-- ==== Sys2Proof/Word.lean ====
section
/-!
DEFINITION. The words of the DMD2 core (spec/00_scope.md R10, R11; spec/30_encoding.md R110 to R112).
-/

namespace Sys2Proof

/-- A bitmap byte, `u8` (R10). -/
abbrev Byte := BitVec 8

/-- A word of the command port or of the response stream (R110, R114). -/
abbrev Word := BitVec 32

/-- A frame handle as the header's `FA` and `FB` fields hold it, read as `zext_8` (R117). -/
abbrev Handle := BitVec 8

/-- The 16-bit value field of an operand word (R112). -/
abbrev Operand := BitVec 16

end Sys2Proof
end

