-- ==== Sys2Proof/Syntax.lean ====
section
/-!
DEFINITION. The commands of the DMD2 core: one constructor of `Instr` per row of spec/opcode_table.json
(spec/30_encoding.md R115), with the operands in the order of the row.
-/

namespace Sys2Proof

/-- The seven drawing modes, in the order of R118. -/
inductive Mode where
  | on | off | or | nor | xor | inverse | noop
  deriving DecidableEq, Repr

/-- The 24 assigned opcodes, by mnemonic (R115). -/
inductive Op where
  | fnew | fcopy | fassign | ffree | dnew
  | setpix | getpix | fill | line | circle | box | fbox
  | move | subf | copyin | scrx | scry | marqx | marqy | swap
  | bright | start | stop | scan
  deriving DecidableEq, Repr

/-- The commands (R115). `fa` is the receiver and `fb` the other frame; the remaining arguments are the operand words. -/
inductive Instr where
  | fnew (w h : Operand)
  | fcopy (fa : Handle)
  | fassign (fa fb : Handle)
  | ffree (fa : Handle)
  | dnew (panelsWide panelsHigh guard : Operand)
  | setpix (mode : Mode) (fa : Handle) (x y : Operand)
  | getpix (fa : Handle) (x y : Operand)
  | fill (fa : Handle) (on : Operand)
  | line (mode : Mode) (fa : Handle) (x1 y1 x2 y2 : Operand)
  | circle (mode : Mode) (fa : Handle) (xCenter yCenter radius : Operand)
  | box (mode : Mode) (fa : Handle) (x1 y1 x2 y2 : Operand)
  | fbox (mode : Mode) (fa : Handle) (x1 y1 x2 y2 : Operand)
  | move (fa : Handle) (fromX fromY toX toY w h : Operand)
  | subf (fa : Handle) (left top w h : Operand)
  | copyin (fa fb : Handle) (destLeft destTop : Operand)
  | scrx (fa : Handle) (delta : Operand)
  | scry (fa : Handle) (delta : Operand)
  | marqx (fa : Handle) (delta : Operand)
  | marqy (fa : Handle) (delta : Operand)
  | swap (fa fb : Handle)
  | bright (fa : Handle) (level : Operand)
  | start (fa : Handle)
  | stop (fa : Handle)
  | scan (fa : Handle)
  deriving DecidableEq, Repr

end Sys2Proof
end

