-- ==== Sys2Proof/WellFormed.lean ====
section
/-!
DEFINITION. Which terms of `Instr` are commands a legal encoding can stand for: the ILLEGAL rows of spec/30_encoding.md
R116 (check 5 of R120). Every other check of R120 on the words alone is met by the types of `Instr`'s fields.
-/

namespace Sys2Proof

/-- A flag operand is 0 or 1 (R116, rows FILL and DISPLAY_NEW). -/
def Operand.isFlag (v : Operand) : Bool := v == 0 || v == 1

/-- A brightness level is 0..255 (R116, row SET_BRIGHTNESS); a level is read through `sext_16` (R112). -/
def Operand.isLevel (v : Operand) : Bool := decide (0 ≤ v.toInt) && decide (v.toInt ≤ 255)

/-- Check 5 of R120: the enumerated operands are in range. -/
def Instr.wellFormed : Instr → Bool
  | .fnew _ _ => true
  | .fcopy _ => true
  | .fassign _ _ => true
  | .ffree _ => true
  | .dnew _ _ guard => Operand.isFlag guard
  | .setpix _ _ _ _ => true
  | .getpix _ _ _ => true
  | .fill _ on => Operand.isFlag on
  | .line _ _ _ _ _ _ => true
  | .circle _ _ _ _ _ => true
  | .box _ _ _ _ _ _ => true
  | .fbox _ _ _ _ _ _ => true
  | .move _ _ _ _ _ _ _ => true
  | .subf _ _ _ _ _ => true
  | .copyin _ _ _ _ => true
  | .scrx _ _ => true
  | .scry _ _ => true
  | .marqx _ _ => true
  | .marqy _ _ => true
  | .swap _ _ => true
  | .bright _ level => Operand.isLevel level
  | .start _ => true
  | .stop _ => true
  | .scan _ => true

end Sys2Proof
end

