-- ==== Sys2Proof/Decode.lean ====
section
/-!
DEFINITION. Reading commands from words and writing them as words (spec/30_encoding.md R110 to R120). The decoder is total on
any list of words and rejects by name; each name is one of the first five checks of R120, in their order.
-/

namespace Sys2Proof

/-! ## The opcode map (R115) -/

/-- Every opcode, in the order of R115. -/
def Op.all : List Op :=
  [.fnew, .fcopy, .fassign, .ffree, .dnew, .setpix, .getpix, .fill, .line, .circle, .box, .fbox,
   .move, .subf, .copyin, .scrx, .scry, .marqx, .marqy, .swap, .bright, .start, .stop, .scan]

/-- The `OPC` field of each mnemonic (R115). -/
def Op.code : Op → BitVec 8
  | .fnew => 0x01 | .fcopy => 0x02 | .fassign => 0x03 | .ffree => 0x04 | .dnew => 0x05
  | .setpix => 0x10 | .getpix => 0x11 | .fill => 0x12 | .line => 0x13 | .circle => 0x14 | .box => 0x15 | .fbox => 0x16
  | .move => 0x20 | .subf => 0x21 | .copyin => 0x22 | .scrx => 0x23 | .scry => 0x24 | .marqx => 0x25 | .marqy => 0x26
  | .swap => 0x27
  | .bright => 0x30 | .start => 0x31 | .stop => 0x32 | .scan => 0x33

/-- `NOPS(OPC)`: how many operand words follow the header (R115). -/
def Op.nops : Op → Nat
  | .fnew => 2 | .fcopy => 0 | .fassign => 0 | .ffree => 0 | .dnew => 3
  | .setpix => 2 | .getpix => 2 | .fill => 1 | .line => 4 | .circle => 3 | .box => 4 | .fbox => 4
  | .move => 6 | .subf => 4 | .copyin => 2 | .scrx => 1 | .scry => 1 | .marqx => 1 | .marqy => 1
  | .swap => 0
  | .bright => 1 | .start => 0 | .stop => 0 | .scan => 0

/-- Column MODE of R115: whether the header's `MODE` field is used. -/
def Op.usesMode : Op → Bool
  | .setpix => true | .line => true | .circle => true | .box => true | .fbox => true
  | .fnew => false | .fcopy => false | .fassign => false | .ffree => false | .dnew => false
  | .getpix => false | .fill => false
  | .move => false | .subf => false | .copyin => false | .scrx => false | .scry => false | .marqx => false | .marqy => false
  | .swap => false
  | .bright => false | .start => false | .stop => false | .scan => false

/-- Column FA of R115: whether the header's `FA` field names a frame. -/
def Op.usesFa : Op → Bool
  | .fnew => false | .dnew => false
  | .fcopy => true | .fassign => true | .ffree => true
  | .setpix => true | .getpix => true | .fill => true | .line => true | .circle => true | .box => true | .fbox => true
  | .move => true | .subf => true | .copyin => true | .scrx => true | .scry => true | .marqx => true | .marqy => true
  | .swap => true
  | .bright => true | .start => true | .stop => true | .scan => true

/-- Column FB of R115: whether the header's `FB` field names a frame. -/
def Op.usesFb : Op → Bool
  | .fassign => true | .copyin => true | .swap => true
  | .fnew => false | .fcopy => false | .ffree => false | .dnew => false
  | .setpix => false | .getpix => false | .fill => false | .line => false | .circle => false | .box => false | .fbox => false
  | .move => false | .subf => false | .scrx => false | .scry => false | .marqx => false | .marqy => false
  | .bright => false | .start => false | .stop => false | .scan => false

/-- The opcode a header's `OPC` field stands for; none where R115 leaves it unassigned. -/
def Op.ofCode (c : BitVec 8) : Option Op := Op.all.find? fun op => op.code == c

/-! ## Fields (R111, R112, R118) -/

/-- `OPC`, header bits 31:24. -/
def Word.opc (hdr : Word) : BitVec 8 := hdr.extractLsb' 24 8

/-- `MODE`, header bits 23:20. -/
def Word.modeField (hdr : Word) : BitVec 4 := hdr.extractLsb' 20 4

/-- `RSV`, header bits 19:16. -/
def Word.rsv (hdr : Word) : BitVec 4 := hdr.extractLsb' 16 4

/-- `FA`, header bits 15:8. -/
def Word.fa (hdr : Word) : Handle := hdr.extractLsb' 8 8

/-- `FB`, header bits 7:0. -/
def Word.fb (hdr : Word) : Handle := hdr.extractLsb' 0 8

/-- The value field of an operand word, bits 15:0 (R112). -/
def Word.operand (w : Word) : Operand := w.extractLsb' 0 16

/-- The reserved half of an operand word, bits 31:16 (R112). -/
def Word.upper (w : Word) : BitVec 16 := w.extractLsb' 16 16

/-- The `MODE` values of R118; 7 to 15 are reserved. -/
def Mode.ofBits (b : BitVec 4) : Option Mode :=
  if b = 0 then some .on else if b = 1 then some .off else if b = 2 then some .or else if b = 3 then some .nor
  else if b = 4 then some .xor else if b = 5 then some .inverse else if b = 6 then some .noop else none

/-- The `MODE` value of each mode (R118). -/
def Mode.bits : Mode → BitVec 4
  | .on => 0 | .off => 1 | .or => 2 | .nor => 3 | .xor => 4 | .inverse => 5 | .noop => 6

/-! ## The decoder (R110, R113, R120) -/

/-- Why a list of words is no legal command: the first five checks of R120, and the two shapes the port never hands over. -/
inductive Reject where
  /-- No word at all: the port has no header yet. -/
  | noHeader
  /-- Check 1: `OPC` is not in R115. -/
  | unassignedOpcode
  /-- The operand words are not `NOPS(OPC)` many: the port takes exactly that many (R110). -/
  | wrongLength
  /-- Check 2: `RSV`, or an unused `MODE`, `FA` or `FB`, is not 0. -/
  | reservedField
  /-- Check 3: a used `MODE` is 7..15. -/
  | reservedMode
  /-- Check 4: an operand word has a bit of 31:16 set. -/
  | operandUpperHalf
  /-- Check 5: an enumerated operand is out of range. -/
  | enumeratedOperand
  deriving DecidableEq, Repr

/-- How many words the command of this header has: `1 + NOPS(OPC)`, or 1 for an unassigned opcode (R113). -/
def commandLength (hdr : Word) : Nat :=
  match Op.ofCode hdr.opc with
  | some op => 1 + op.nops
  | none => 1

/-- Check 2 of R120. -/
def Op.reservedClear (op : Op) (hdr : Word) : Bool :=
  hdr.rsv == 0 && (op.usesMode || hdr.modeField == 0) && (op.usesFa || hdr.fa == 0) && (op.usesFb || hdr.fb == 0)

/-- The command of an opcode with these fields; none when the operands are not `NOPS` many. -/
def Op.build (m : Mode) (fa fb : Handle) (op : Op) (operands : List Operand) : Option Instr :=
  match op with
  | .fnew => match operands with | [w, h] => some (.fnew w h) | _ => none
  | .fcopy => match operands with | [] => some (.fcopy fa) | _ => none
  | .fassign => match operands with | [] => some (.fassign fa fb) | _ => none
  | .ffree => match operands with | [] => some (.ffree fa) | _ => none
  | .dnew => match operands with | [pw, ph, g] => some (.dnew pw ph g) | _ => none
  | .setpix => match operands with | [x, y] => some (.setpix m fa x y) | _ => none
  | .getpix => match operands with | [x, y] => some (.getpix fa x y) | _ => none
  | .fill => match operands with | [on] => some (.fill fa on) | _ => none
  | .line => match operands with | [x1, y1, x2, y2] => some (.line m fa x1 y1 x2 y2) | _ => none
  | .circle => match operands with | [xc, yc, r] => some (.circle m fa xc yc r) | _ => none
  | .box => match operands with | [x1, y1, x2, y2] => some (.box m fa x1 y1 x2 y2) | _ => none
  | .fbox => match operands with | [x1, y1, x2, y2] => some (.fbox m fa x1 y1 x2 y2) | _ => none
  | .move => match operands with | [fx, fy, tx, ty, w, h] => some (.move fa fx fy tx ty w h) | _ => none
  | .subf => match operands with | [l, t, w, h] => some (.subf fa l t w h) | _ => none
  | .copyin => match operands with | [l, t] => some (.copyin fa fb l t) | _ => none
  | .scrx => match operands with | [d] => some (.scrx fa d) | _ => none
  | .scry => match operands with | [d] => some (.scry fa d) | _ => none
  | .marqx => match operands with | [d] => some (.marqx fa d) | _ => none
  | .marqy => match operands with | [d] => some (.marqy fa d) | _ => none
  | .swap => match operands with | [] => some (.swap fa fb) | _ => none
  | .bright => match operands with | [l] => some (.bright fa l) | _ => none
  | .start => match operands with | [] => some (.start fa) | _ => none
  | .stop => match operands with | [] => some (.stop fa) | _ => none
  | .scan => match operands with | [] => some (.scan fa) | _ => none

/-- Checks 1 to 5 of R120 on the words of one command, in their order. -/
def decode (cmd : List Word) : Except Reject Instr :=
  match cmd with
  | [] => .error .noHeader
  | hdr :: operands =>
    match Op.ofCode hdr.opc with
    | none => .error .unassignedOpcode
    | some op =>
      if operands.length ≠ op.nops then .error .wrongLength
      else if !op.reservedClear hdr then .error .reservedField
      else match Mode.ofBits hdr.modeField with
        | none => .error .reservedMode
        | some m =>
          if operands.any (fun w => w.upper != 0) then .error .operandUpperHalf
          else match Op.build m hdr.fa hdr.fb op (operands.map Word.operand) with
            | none => .error .wrongLength
            | some i => if i.wellFormed then .ok i else .error .enumeratedOperand

/-- The first command of a stream of words and the words after it; none while the command is not complete (R110). -/
def takeCommand (words : List Word) : Option (List Word × List Word) :=
  match words with
  | [] => none
  | hdr :: rest =>
    if commandLength hdr ≤ 1 + rest.length then
      some (hdr :: rest.take (commandLength hdr - 1), rest.drop (commandLength hdr - 1))
    else none

/-! ## The encoder (R111, R112, R115) -/

/-- The opcode of a command. -/
def Instr.op : Instr → Op
  | .fnew _ _ => .fnew
  | .fcopy _ => .fcopy
  | .fassign _ _ => .fassign
  | .ffree _ => .ffree
  | .dnew _ _ _ => .dnew
  | .setpix _ _ _ _ => .setpix
  | .getpix _ _ _ => .getpix
  | .fill _ _ => .fill
  | .line _ _ _ _ _ _ => .line
  | .circle _ _ _ _ _ => .circle
  | .box _ _ _ _ _ _ => .box
  | .fbox _ _ _ _ _ _ => .fbox
  | .move _ _ _ _ _ _ _ => .move
  | .subf _ _ _ _ _ => .subf
  | .copyin _ _ _ _ => .copyin
  | .scrx _ _ => .scrx
  | .scry _ _ => .scry
  | .marqx _ _ => .marqx
  | .marqy _ _ => .marqy
  | .swap _ _ => .swap
  | .bright _ _ => .bright
  | .start _ => .start
  | .stop _ => .stop
  | .scan _ => .scan

/-- A header word: `OOOOOOOO MMMM 0000 AAAAAAAA BBBBBBBB` (R111). -/
def headerWord (op : Op) (m : Mode) (fa fb : Handle) : Word :=
  op.code ++ m.bits ++ (0 : BitVec 4) ++ fa ++ fb

/-- An operand word: `0000000000000000 VVVVVVVVVVVVVVVV` (R112). -/
def operandWord (v : Operand) : Word := (0 : BitVec 16) ++ v

/-- The words of a command. A field that R115 does not use is 0, which is also the bits of mode ON. -/
def encode : Instr → List Word
  | .fnew w h => headerWord .fnew .on 0 0 :: [w, h].map operandWord
  | .fcopy fa => [headerWord .fcopy .on fa 0]
  | .fassign fa fb => [headerWord .fassign .on fa fb]
  | .ffree fa => [headerWord .ffree .on fa 0]
  | .dnew pw ph g => headerWord .dnew .on 0 0 :: [pw, ph, g].map operandWord
  | .setpix m fa x y => headerWord .setpix m fa 0 :: [x, y].map operandWord
  | .getpix fa x y => headerWord .getpix .on fa 0 :: [x, y].map operandWord
  | .fill fa on => headerWord .fill .on fa 0 :: [on].map operandWord
  | .line m fa x1 y1 x2 y2 => headerWord .line m fa 0 :: [x1, y1, x2, y2].map operandWord
  | .circle m fa xc yc r => headerWord .circle m fa 0 :: [xc, yc, r].map operandWord
  | .box m fa x1 y1 x2 y2 => headerWord .box m fa 0 :: [x1, y1, x2, y2].map operandWord
  | .fbox m fa x1 y1 x2 y2 => headerWord .fbox m fa 0 :: [x1, y1, x2, y2].map operandWord
  | .move fa fx fy tx ty w h => headerWord .move .on fa 0 :: [fx, fy, tx, ty, w, h].map operandWord
  | .subf fa l t w h => headerWord .subf .on fa 0 :: [l, t, w, h].map operandWord
  | .copyin fa fb l t => headerWord .copyin .on fa fb :: [l, t].map operandWord
  | .scrx fa d => headerWord .scrx .on fa 0 :: [d].map operandWord
  | .scry fa d => headerWord .scry .on fa 0 :: [d].map operandWord
  | .marqx fa d => headerWord .marqx .on fa 0 :: [d].map operandWord
  | .marqy fa d => headerWord .marqy .on fa 0 :: [d].map operandWord
  | .swap fa fb => [headerWord .swap .on fa fb]
  | .bright fa l => headerWord .bright .on fa 0 :: [l].map operandWord
  | .start fa => [headerWord .start .on fa 0]
  | .stop fa => [headerWord .stop .on fa 0]
  | .scan fa => [headerWord .scan .on fa 0]

/-! ## The host's reading of one opcode-table row -/

/-- The most words a command has: MOVE, a header and six operands (R115). -/
def longestCommand : Nat := 7

/-- The words of an instruction whose bits are `w`, the first word in bits 31..0, the next in bits 63..32 and so on; bits from
`nbits` up are 0. As many words as the header's opcode takes (R113). -/
def tableWords (nbits w : Nat) : List Word :=
  let words := (List.range longestCommand).map fun k => BitVec.ofNat 32 ((w % 2 ^ nbits) >>> (32 * k))
  words.take (commandLength (words.headD 0))

/-- The command the decoder reads from an opcode-table row's bits. -/
def decodeTableWord (nbits w : Nat) : Option Instr :=
  match takeCommand (tableWords nbits w) with
  | none => none
  | some (cmd, _) =>
    match decode cmd with
    | .ok i => some i
    | .error _ => none

end Sys2Proof
end

