-- ==== Sys2Proof/Config.lean ====
section
/-!
DEFINITION. What the spec fixes as a number, and what it leaves open (spec/00_scope.md R8, spec/93_implementation_defined.md).
An open value is a constant without a body: no proof can see what it is, so a claim holds whatever it is.
-/

namespace Sys2Proof.Config

/-- `PANEL_WIDTH` (R8). -/
def panelWidth : Nat := 32

/-- `PANEL_HEIGHT` (R8). -/
def panelHeight : Nat := 16

/-- `GROUP_ROWS`: rows emitted per scan step; also the distance between them, `SCAN_GROUPS` (R8). -/
def groupRows : Nat := 4

/-- `BRIGHTNESS_FULL` (R8). -/
def brightnessFull : BitVec 8 := 255

/-- The largest frame side, sub-frame side (R8, decision D12). -/
def maxSide : Int := 32767

/-- The largest panel count of a display side (R8, decision D12). -/
def maxPanels : Int := 255

/-! The OPEN parameters of R8 (log 1). The bounds R8 states are kept by construction. -/

/-- One less than `MAX_FRAMES`. OPEN, 1..255 (R8). -/
opaque frameSlotsPick : Fin 255

/-- `MAX_FRAMES`, 1..255 (R8). -/
def maxFrames : Nat := frameSlotsPick.val + 1

/-- What `POOL_BYTES` has above its least value. OPEN (R8). -/
opaque poolExtra : Nat

/-- `POOL_BYTES`, at least 64 (R8). -/
def poolBytes : Nat := 64 + poolExtra

/-- What `REGISTRY_CAPACITY` has above its least value. OPEN (R8). -/
opaque registryExtra : Nat

/-- `REGISTRY_CAPACITY`, at least 1 (R8). -/
def registryCapacity : Nat := 1 + registryExtra

/-- `OE_ENABLE_LEVEL`. OPEN (R8). -/
opaque oeEnableLevel : Bool

/-- `LATCH_ACTIVE_LEVEL`. OPEN (R8). -/
opaque latchActiveLevel : Bool

/-- `GUARD_ASSERTED_LEVEL`. OPEN (R8). -/
opaque guardAssertedLevel : Bool

/-- `PWM_PERIOD`. OPEN, non-normative (R8, R284). -/
opaque pwmPeriod : Nat

/-- `TICK_PERIOD`. OPEN, non-normative (R8, R383). -/
opaque tickPeriod : Nat

/-! The draws (R12: "a free choice of the environment, under no law beyond the stated range"), each a free value numbered by a
counter of State. -/

/-- `draw ok` of `Alloc` (R95; log 2). -/
opaque allocOk : Nat → Bool

/-- `draw grow_ok` of `Register` (R300; log 3). -/
opaque growOk : Nat → Bool

/-- `draw g`, the sample of `GUARD_IN` (R271; log 4). -/
opaque guardSample : Nat → Bool

/-- `draw b`, the byte a torn tick reads: by the tick's number, the handle and the offset (R87; log 5). -/
opaque tornByte : Nat → Handle → Nat → Byte

end Sys2Proof.Config
end

