-- ==== Sys2Proof/Machine/State.lean ====
section
/-!
DEFINITION. The state of the DMD2 core as plain data (spec/10_state.md), the reasons a step can stop, and the state after
reset (spec/70_reset_and_hazards.md R370).
-/

namespace Sys2Proof.Machine

/-- A bitmap buffer (R37): its bytes by offset, in one canonical form (`Memory.wf`). An offset that is not listed reads as
`Memory.unlisted`. -/
abbrev Memory := List Host.Cell

/-- The output-enable levels an event can carry (R49): off, on, or on for `n / 255` of each PWM period. -/
inductive OeLevel where
  | off
  | on
  | pwm (n : BitVec 8)
  deriving DecidableEq, Repr

/-- `OE_OUT` (R42). -/
inductive OeLine where
  | undriven
  | driven (v : OeLevel)
  deriving DecidableEq, Repr

/-- `LATCH_OUT`, `RS0_OUT`, `RS1_OUT` (R42): the logical value of a control line. -/
inductive Line where
  | undriven
  | driven (v : Bool)
  deriving DecidableEq, Repr

/-- The output events of a display (R49). -/
inductive OutEvent where
  | send (b : Byte)
  | oe (v : OeLevel)
  | latch (v : Bool)
  | rs0 (v : Bool)
  | rs1 (v : Bool)
  deriving DecidableEq, Repr

/-- One slot `FR[h]` of the frame table (R35) with the display fields (R39 to R42) and the output trace (R50). The display
fields mean something only while `live` and `isDisplay` hold (R38); the output registers of a freed display keep their
values (R154). The buffer a frame owns stands in its slot: ownership is exclusive (R37; log 10). -/
structure Slot where
  live : Bool
  width : Nat
  height : Nat
  isDisplay : Bool
  buf : Memory
  scanRow : BitVec 2
  brightness : BitVec 8
  guardEn : Bool
  oe : OeLine
  latch : Line
  rs0 : Line
  rs1 : Line
  trace : List OutEvent
  deriving DecidableEq, Repr

/-- A slot after reset (R370): not live, no buffer, lines not driven. The fields R370 calls unspecified and unread are zero
(DESIGN CHOICE, log 11). -/
def Slot.reset : Slot :=
  { live := false, width := 0, height := 0, isDisplay := false, buf := [], scanRow := 0, brightness := 0, guardEn := false,
    oe := .undriven, latch := .undriven, rs0 := .undriven, rs1 := .undriven, trace := [] }

/-- The status codes (R330). -/
inductive Status where
  | ok | illegal | badHandle | badGeometry | noMemory | busy
  deriving DecidableEq, Repr

/-- A response (R114): the status and the 16-bit result. -/
structure Response where
  status : Status
  value : BitVec 16
  deriving DecidableEq, Repr

/-- The state tuple of R33 but for `PORT`: the frame table with the buffers it owns, the registry, the timer's arm bit, and
the response stream (R51), which a model keeps as its observation (R33). -/
structure Block where
  /-- `FR`: one slot per value of a handle field; slot 0 is never live (R34). -/
  frames : Vector Slot 256
  /-- `REG_SLOT[0..REG_LEN-1]`: the length is `REG_LEN`, `none` is `EMPTY` (R44). -/
  registry : List (Option Handle)
  /-- `TIMER_ARMED` (R46). -/
  timerArmed : Bool
  /-- The responses delivered so far, in command order (R51). -/
  responses : List Response
  deriving DecidableEq, Repr

/-- The block after reset (R370). -/
def Block.reset : Block :=
  { frames := Vector.replicate 256 Slot.reset, registry := [], timerArmed := false, responses := [] }

/-- `PORT` (R48): idle, or a command in flight with its words, the state `S0` before it and the state `S1` its rule gives. -/
inductive Port where
  | idle
  | inFlight (cmd : List Word) (s0 s1 : Block)
  deriving DecidableEq, Repr

/-- What reaches the block from outside, in the order it arrives (R89, R303; log 6). -/
inductive Input where
  /-- The host sends a word on the command port. -/
  | word (w : Word)
  /-- A timer period elapses between two commands. -/
  | tick
  /-- A timer period elapses between the `BEGIN` and the `END` of the command whose words stand before it. -/
  | tickInCommand
  deriving DecidableEq, Repr

/-- The environment's answers to one kind of draw: the answers already known, in order, and how many draws have been made. A
draw past the known answers is a free value of Config (log 2, 3, 4). -/
structure Draws where
  known : List Bool
  count : Nat
  deriving DecidableEq, Repr

/-- The environment's side of the draws. -/
structure Env where
  /-- Allocator success (R95). -/
  alloc : Draws
  /-- Growth of the registry list (R300). -/
  grow : Draws
  /-- Samples of the guard line (R271). -/
  guard : Draws
  /-- How many torn ticks have run (R87: "chosen afresh per tick"). -/
  tornTicks : Nat
  deriving DecidableEq, Repr

/-- The OPEN parameters of R8, "an argument the model takes". No step changes them (log 1). -/
structure Params where
  maxFrames : Nat
  poolBytes : Nat
  registryCapacity : Nat
  oeEnableLevel : Bool
  latchActiveLevel : Bool
  guardAssertedLevel : Bool
  pwmPeriod : Nat
  tickPeriod : Nat
  deriving DecidableEq, Repr

/-- The machine: the spec's tuple (R33), the parameters it runs with, the running command's write set and the model's own
fields for what comes from outside. -/
structure State where
  params : Params
  blk : Block
  port : Port
  /-- `WS` (R12, R86): the bitmap bytes the latest command wrote, as handle and offset. -/
  ws : List (Handle × Nat)
  /-- The model's own: what the host and the timer send (log 6). -/
  input : List Input
  /-- The model's own: the draws (log 2 to 5). -/
  env : Env
  deriving DecidableEq, Repr

/-- Why a step stops with a fault. There is no constructor: the block has no trap, and the spec's treatment list says that no
item is a fault (R121, spec/93_implementation_defined.md; log 19). Safe: nothing the block does is left out by a stop. -/
inductive Fault where
  deriving DecidableEq, Repr

/-- Why a command has no meaning in the model. -/
inductive Refusal where
  /-- Raised by `exec`'s arm of a command without a meaning. Safe: a claim about such a command cannot be proved from it. -/
  | notModelled (mnemonic : String)
  deriving DecidableEq, Repr

/-- The parameters of this hardware: OPEN, so constants without a body (R8; log 1). -/
def Params.platform : Params :=
  { maxFrames := Config.maxFrames, poolBytes := Config.poolBytes, registryCapacity := Config.registryCapacity,
    oeEnableLevel := Config.oeEnableLevel, latchActiveLevel := Config.latchActiveLevel,
    guardAssertedLevel := Config.guardAssertedLevel, pwmPeriod := Config.pwmPeriod, tickPeriod := Config.tickPeriod }

/-- The machine right after reset (R370): no frame, no registry slot, the timer disarmed, the port idle, nothing sent yet. -/
def State.reset : State :=
  { params := Params.platform, blk := Block.reset, port := .idle, ws := [], input := [],
    env := { alloc := ⟨[], 0⟩, grow := ⟨[], 0⟩, guard := ⟨[], 0⟩, tornTicks := 0 } }

end Sys2Proof.Machine
end

