-- ==== Sys2Proof/Machine/Flags.lean ====
section
/-!
DEFINITION. The block has no flags or condition codes (spec/10_state.md R32): the outcome of a command is the status in its
response word (spec/30_encoding.md R114, spec/60_exceptions.md R330 to R332). This file holds that outcome: the codes, the
word, and the two ways a command ends.
-/

namespace Sys2Proof.Machine

/-- The code of each status (R330). -/
def Status.code : Status → BitVec 8
  | .ok => 0x00
  | .illegal => 0x01
  | .badHandle => 0x02
  | .badGeometry => 0x03
  | .noMemory => 0x04
  | .busy => 0x05

/-- The response word: status in 31:24, zero in 23:16, the value in 15:0 (R114). -/
def Response.word (r : Response) : Word := r.status.code ++ (0 : BitVec 8) ++ r.value

/-- The response words delivered so far (R110, R114). -/
def State.responseWords (s : State) : List Word := s.blk.responses.map Response.word

/-- A command ends: its write set is known and its one response is delivered (R51, R86). -/
def State.reply (s : State) (ws : List (Handle × Nat)) (status : Status) (value : BitVec 16) : State :=
  { s with ws := ws, blk := { s.blk with responses := s.blk.responses ++ [⟨status, value⟩] } }

/-- A command fails: it changes nothing and answers a status with `VALUE = 0` (R120, R332). -/
def State.fail (s : State) (status : Status) : State := s.reply [] status 0

/-- A one-bit result in the response's value field (R115, rows GETPIX and STOP). -/
def flagValue (b : Bool) : BitVec 16 := if b then 1 else 0

/-- A handle in the response's value field (R115, the creating commands). -/
def handleValue (h : Handle) : BitVec 16 := h.zeroExtend 16

end Sys2Proof.Machine
end

