-- ==== Sys2Proof/Machine/Operands.lean ====
section
/-!
DEFINITION. Operand values and ranges (spec/30_encoding.md R112, R116), frame geometry (spec/10_state.md R36) and the
addressing of a pixel: the Panel-Tiling Index Transform and its inverse (spec/20_memory.md R71 to R74).
-/

namespace Sys2Proof.Machine

/-! ## Operand values -/

/-- An operand's value, `sext_16` (R112). -/
def val (v : Operand) : Int := v.toInt

/-- A frame side is 1..32767 (R116, rows FRAME_NEW and SUB_FRAME). -/
def sideOk (v : Operand) : Bool := decide (1 ≤ val v) && decide (val v ≤ Config.maxSide)

/-- A panel count is 1..255 (R116, row DISPLAY_NEW). -/
def panelsOk (v : Operand) : Bool := decide (1 ≤ val v) && decide (val v ≤ Config.maxPanels)

/-! ## Geometry (R36) -/

/-- `PW`: panels across a frame of this width. -/
def panelsAcross (width : Nat) : Nat := (width + (Config.panelWidth - 1)) / Config.panelWidth

/-- `PH`: panels down a frame of this height. -/
def panelsDown (height : Nat) : Nat := (height + (Config.panelHeight - 1)) / Config.panelHeight

/-- `NP`: panels in the chain. -/
def panelCount (width height : Nat) : Nat := panelsAcross width * panelsDown height

/-- `RB`: bytes per unified row. -/
def rowBytes (width height : Nat) : Nat := panelCount width height * Config.panelWidth / 8

/-- `SIZE`: bytes of the bitmap. -/
def bitmapSize (width height : Nat) : Nat := rowBytes width height * Config.panelHeight

/-- Whether a pixel is in range of a frame of this size (R13). -/
def inRange (width height : Nat) (x y : Int) : Bool :=
  decide (0 ≤ x) && decide (x < width) && decide (0 ≤ y) && decide (y < height)

/-! ## The transform (R71, R72) and its inverse (R74) -/

/-- `panel`: which panel of the chain a pixel belongs to. -/
def panelOf (width x y : Nat) : Nat := x / Config.panelWidth + panelsAcross width * (y / Config.panelHeight)

/-- `x'`: the pixel's column along the chain. -/
def unifiedX (width x y : Nat) : Nat := x % Config.panelWidth + panelOf width x y * Config.panelWidth

/-- `y'`: the pixel's unified row. -/
def unifiedY (y : Nat) : Nat := y % Config.panelHeight

/-- `byteOffset` of a pixel (R72). -/
def pixelOffset (width height x y : Nat) : Nat := unifiedX width x y / 8 + unifiedY y * rowBytes width height

/-- The bit position of a pixel counted from the left of its byte, `x' mod 8` (R72). -/
def pixelBit (width x y : Nat) : Nat := unifiedX width x y % 8

/-- The mask of bit position `k` counted from the left: `1 << (7 - k)` (R72, R78). -/
def leftMask (k : Nat) : Byte := (1 : Byte) <<< (7 - k)

/-- `bitMask` of a pixel (R72). -/
def pixelMask (width x y : Nat) : Byte := leftMask (pixelBit width x y)

/-- The column of the pixel a bitmap bit stands for: byte offset `o`, bit position `k` from the left (R74). -/
def pixelX (width height o k : Nat) : Nat :=
  let ux := o % rowBytes width height * 8 + k
  ux % Config.panelWidth + Config.panelWidth * (ux / Config.panelWidth % panelsAcross width)

/-- The row of the pixel a bitmap bit stands for (R74). -/
def pixelY (width height o k : Nat) : Nat :=
  let ux := o % rowBytes width height * 8 + k
  o / rowBytes width height + Config.panelHeight * (ux / Config.panelWidth / panelsAcross width)

/-- The byte offset of a panel row's byte column: unified row `r`, byte `i` of the row (R77, R272). -/
def rowOffset (rb r i : Nat) : Nat := r * rb + i

end Sys2Proof.Machine
end

