-- ==== Sys2Proof/Machine/Shapes.lean ====
section
/-!
DEFINITION. The pixels a drawing command visits, in visit order (spec/42_drawing.md R200 to R210; spec/43_region.md R230,
R231). Every list is computed on exact integers (R10); clipping happens where a pixel is written (R182).
-/

namespace Sys2Proof.Machine

/-- A pixel coordinate. -/
abbrev Point := Int × Int

/-! ## Lines (R200) -/

/-- `-1 if d < 0 else 1` (R200). -/
def stepOf (d : Int) : Int := if d < 0 then -1 else 1

/-- The loop of R200 along its major axis `a`, `n` steps to go: the points visited after the first. `da` and `db` are the
doubled differences of the major and the minor axis. -/
def lineLoop (da db sa sb : Int) : Nat → Int → Int → Int → List Point
  | 0, _, _, _ => []
  | n + 1, a, b, frac =>
    let b' := if 0 ≤ frac then b + sb else b
    let frac' := if 0 ≤ frac then frac - da else frac
    (a + sa, b') :: lineLoop da db sa sb n (a + sa) b' (frac' + db)

/-- The points of `Line(x1, y1, x2, y2)`, in visit order (R200). The loop runs until its major coordinate reaches the end
point, one step each time, so `|x2 - x1|` or `|y2 - y1|` times. -/
def linePoints (x1 y1 x2 y2 : Int) : List Point :=
  let sx := stepOf (x2 - x1)
  let sy := stepOf (y2 - y1)
  let dx := 2 * |x2 - x1|
  let dy := 2 * |y2 - y1|
  if dy < dx then
    (x1, y1) :: lineLoop dx dy sx sy (x2 - x1).natAbs x1 y1 (dy - dx / 2)
  else
    (x1, y1) :: (lineLoop dy dx sy sx (y2 - y1).natAbs y1 x1 (dx - dy / 2)).map Prod.swap

/-! ## Boxes (R203, R205) -/

/-- The points of `Box`: top, right, bottom, left edge, each a line (R203). -/
def boxPoints (x1 y1 x2 y2 : Int) : List Point :=
  linePoints x1 y1 x2 y1 ++ linePoints x2 y1 x2 y2 ++ linePoints x2 y2 x1 y2 ++ linePoints x1 y2 x1 y1

/-- The integers `lo, lo + 1, …`, `n` of them. -/
def ascending (lo : Int) (n : Nat) : List Int := (List.range n).map fun (k : Nat) => lo + (k : Int)

/-- The points of `FilledBox`: one vertical line for each column of the span, left to right (R205). -/
def filledBoxPoints (x1 y1 x2 y2 : Int) : List Point :=
  (ascending (min x1 x2) (max x1 x2 - min x1 x2 + 1).toNat).flatMap fun x => linePoints x y1 x y2

/-! ## Circles (R210) -/

/-- The four points of one iteration (R210). -/
def circleQuad (xc yc x y : Int) : List Point :=
  [(xc - x, yc + y), (xc - y, yc - x), (xc + x, yc - y), (xc + y, yc + x)]

/-- The loop of R210, with at most `fuel` iterations. Both tests read the error from before the update, but the second test
also reads the updated one; each increment uses the new coordinate (conflict C3). -/
def circleLoop (xc yc : Int) : Nat → Int → Int → Int → List Point
  | 0, _, _, _ => []
  | fuel + 1, x, y, err =>
    if x < 0 then
      let y' := if err ≤ y then y + 1 else y
      let err' := if err ≤ y then err + 2 * (y + 1) + 1 else err
      let x' := if x < err ∨ y' < err' then x + 1 else x
      let err'' := if x < err ∨ y' < err' then err' + 2 * (x + 1) + 1 else err'
      circleQuad xc yc x y ++ circleLoop xc yc fuel x' y' err''
    else []

/-- The points of `Circle(xc, yc, r)`, in visit order (R210). Each iteration raises `x` from `-r` towards 0 or `y` from 0, and
`y` never passes `r`, so `2 * r` iterations reach the loop's end (`circleLoop_enough`, log 17). -/
def circlePoints (xc yc r : Int) : List Point := circleLoop xc yc (2 * r).toNat (-r) 0 (2 - 2 * r)

/-! ## Grids (R230, R231) -/

/-- The cells of a grid of `cols` by `rows`, row by row (R230, R231: "j outer, i inner, ascending"). -/
def gridCells (cols rows : Nat) : List (Nat × Nat) :=
  (List.range rows).flatMap fun j => (List.range cols).map fun i => (i, j)

end Sys2Proof.Machine
end

