-- ==== Sys2Proof/Machine/Ops.lean ====
section
/-!
DEFINITION. The named operations the commands share: bitmap bytes (spec/20_memory.md), a frame being drawn on
(spec/41_pixel.md R182, R183; spec/43_region.md R230, R231), the frame table and the pool (R34, R95, R96), the registry
(spec/45_registry.md R300, R301), output events (R50), the scan step (spec/44_scan.md R275) and the tick, the block's one
interrupt, with its entry and return (R305, R337, R338).
-/

namespace Sys2Proof.Machine

/-! ## Bitmap bytes -/

/-- What an offset that is not listed reads as: a new buffer's byte, every pixel off (R151, R155). -/
def Memory.unlisted : Byte := 0xFF

/-- `MemRead`: the byte at an offset (R12, R81). -/
def Memory.read : Memory → Nat → Byte
  | [], _ => Memory.unlisted
  | (a, b) :: rest, o => if a = o then b else Memory.read rest o

/-- `MemWrite`: set the byte at an offset, keeping the canonical form (R12, R81). -/
def Memory.write : Memory → Nat → Byte → Memory
  | [], o, v => if v = Memory.unlisted then [] else [(o, v)]
  | (a, b) :: rest, o, v =>
    if o < a then (if v = Memory.unlisted then (a, b) :: rest else (o, v) :: (a, b) :: rest)
    else if a = o then (if v = Memory.unlisted then rest else (o, v) :: rest)
    else (a, b) :: Memory.write rest o v

/-- A buffer of `n` bytes, every byte `v`: what the loops `for o in 0 .. n-1` of R151, R184, R235 and R287 leave (log 16). -/
def Memory.filled (n : Nat) (v : Byte) : Memory :=
  if v = Memory.unlisted then [] else (List.range n).map fun o => (o, v)

/-- The canonical form: offsets strictly rising, no byte listed that reads so anyway. -/
def Memory.wf : Memory → Bool
  | [] => true
  | [(_, b)] => b != Memory.unlisted
  | (a, b) :: (a', b') :: rest => b != Memory.unlisted && decide (a < a') && Memory.wf ((a', b') :: rest)

/-- Every listed offset lies below `n`. -/
def Memory.below (m : Memory) (n : Nat) : Bool := m.all fun c => decide (c.1 < n)

/-! ## A frame being drawn on -/

/-- One frame's geometry and bitmap while a command draws on it, with the offsets it has written so far (R86), the latest
first. -/
structure Canvas where
  width : Nat
  height : Nat
  buf : Memory
  ws : List Nat
  deriving DecidableEq, Repr

/-- `MemWrite` on the frame: the byte is set and its offset joins the write set (R12). -/
def Canvas.write (c : Canvas) (o : Nat) (v : Byte) : Canvas :=
  { c with buf := c.buf.write o v, ws := o :: c.ws }

/-- The byte a mode stores for a pixel at mask `m` of byte `b`; none for the modes that do not write (R180, R182). -/
def modeStore (mode : Mode) (b m : Byte) : Option Byte :=
  match mode with
  | .on => some (b &&& ~~~m)
  | .or => some (b &&& ~~~m)
  | .off => some (b ||| m)
  | .nor => some (b ||| m)
  | .xor => some (b ^^^ m)
  | .inverse => none
  | .noop => none

/-- `SetPixelInt` (R182). -/
def Canvas.setPixel (c : Canvas) (x y : Int) (mode : Mode) : Canvas :=
  if inRange c.width c.height x y then
    let o := pixelOffset c.width c.height x.toNat y.toNat
    match modeStore mode (c.buf.read o) (pixelMask c.width x.toNat y.toNat) with
    | some v => c.write o v
    | none => c
  else c

/-- `GetPixelInt` (R183): lit when the stored bit is 0 (R73), dark when out of range. -/
def Canvas.getPixel (c : Canvas) (x y : Int) : Bool :=
  inRange c.width c.height x y &&
    (c.buf.read (pixelOffset c.width c.height x.toNat y.toNat) &&& pixelMask c.width x.toNat y.toNat) == 0

/-- One visit of `SetPixelInt`. -/
structure PixelOp where
  x : Int
  y : Int
  mode : Mode
  deriving DecidableEq, Repr

/-- A sequence of visits, in order. -/
def Canvas.paint (c : Canvas) (visits : List PixelOp) : Canvas :=
  visits.foldl (fun c v => c.setPixel v.x v.y v.mode) c

/-- Points visited in one mode (spec/42_drawing.md, opening paragraph). -/
def visitsOf (mode : Mode) (points : List Point) : List PixelOp := points.map fun p => ⟨p.1, p.2, mode⟩

/-- A mode that writes a grid pixel: ON if it is lit, else OFF (R231). -/
def litMode (lit : Bool) : Mode := if lit then .on else .off

/-- `Snapshot` (R230): the grid of pixels of a frame from `(left, top)`, read before anything is written. -/
def Canvas.snapshot (c : Canvas) (left top : Int) (i j : Nat) : Bool := c.getPixel (left + i) (top + j)

/-- The visits of `Paste` (R231): a grid written at `(left, top)`. -/
def pasteVisits (grid : Nat → Nat → Bool) (cols rows : Nat) (left top : Int) : List PixelOp :=
  (gridCells cols rows).map fun c => ⟨left + c.1, top + c.2, litMode (grid c.1 c.2)⟩

/-- The visits that clear a rectangle (R234). -/
def clearVisits (cols rows : Nat) (left top : Int) : List PixelOp :=
  (gridCells cols rows).map fun c => ⟨left + c.1, top + c.2, .off⟩

/-- Every byte of the bitmap is written with `v` (R184, R235, R287; log 16). -/
def Canvas.fillBytes (c : Canvas) (v : Byte) : Canvas :=
  { c with buf := Memory.filled (bitmapSize c.width c.height) v,
           ws := List.range (bitmapSize c.width c.height) ++ c.ws }

/-- The frame a slot holds, before a command writes to it. -/
def Slot.canvas (f : Slot) : Canvas := { width := f.width, height := f.height, buf := f.buf, ws := [] }

/-! ## The frame table -/

/-- Read slot `FR[h]`. -/
def Block.slot (b : Block) (h : Handle) : Slot := b.frames[h.toNat]'h.isLt

/-- Write slot `FR[h]`. -/
def Block.setSlot (b : Block) (h : Handle) (f : Slot) : Block := { b with frames := b.frames.set h.toNat f h.isLt }

/-- Read slot `FR[h]`. -/
def State.slot (s : State) (h : Handle) : Slot := s.blk.slot h

/-- Write slot `FR[h]`. -/
def State.setSlot (s : State) (h : Handle) (f : Slot) : State := { s with blk := s.blk.setSlot h f }

/-- The byte at an offset of a frame's bitmap. -/
def State.byte (s : State) (h : Handle) (o : Nat) : Byte := (s.slot h).buf.read o

/-- The logical pixel `p(h, x, y)`; dark out of range (R13, R73). -/
def State.pixel (s : State) (h : Handle) (x y : Int) : Bool := (s.slot h).canvas.getPixel x y

/-- A handle names a live frame: not 0, not above `MAX_FRAMES`, and live (R34). -/
def State.isFrame (s : State) (h : Handle) : Bool :=
  (s.slot h).live && h != 0 && decide (h.toNat ≤ s.params.maxFrames)

/-- A handle names a live display (R38). -/
def State.isDisplay (s : State) (h : Handle) : Bool := s.isFrame h && (s.slot h).isDisplay

/-- Two frames have equal geometry (R153, R239). -/
def State.sameGeometry (s : State) (a b : Handle) : Bool :=
  decide ((s.slot a).width = (s.slot b).width) && decide ((s.slot a).height = (s.slot b).height)

/-- A command draws on frame `h`: the bitmap is replaced, and the command's write set and OK response are recorded (R85, R86). -/
def State.drawn (s : State) (h : Handle) (c : Canvas) : State :=
  (s.setSlot h { s.slot h with buf := c.buf }).reply (c.ws.map fun o => (h, o)) .ok 0

/-- Draw on frame `h` if it is live (check 6 of R120). -/
def State.drawOn (s : State) (h : Handle) (action : Canvas → Canvas) : State :=
  if s.isFrame h then s.drawn h (action (s.slot h).canvas) else s.fail .badHandle

/-! ## The pool (R47, R95, R96) -/

/-- The bytes a slot takes from the pool. -/
def Slot.poolBytes (f : Slot) : Nat := if f.live then bitmapSize f.width f.height else 0

/-- `POOL_USED` (R47). -/
def Block.poolUsed (b : Block) : Nat := (b.frames.toList.map Slot.poolBytes).sum

/-- The handles a frame can have, lowest first: 1..255 (R34). -/
def allHandles : List Handle := (List.range 255).map fun k => BitVec.ofNat 8 (k + 1)

/-- The lowest handle up to `MAX_FRAMES` whose slot is not live (R95). -/
def State.freeHandle (s : State) : Option Handle :=
  allHandles.find? fun h => decide (h.toNat ≤ s.params.maxFrames) && !(s.slot h).live

/-- One draw: the next known answer, or the free value numbered by the count (R12; log 2 to 4). -/
def Draws.next (d : Draws) (free : Nat → Bool) : Bool × Draws :=
  match d.known with
  | a :: rest => (a, { known := rest, count := d.count + 1 })
  | [] => (free d.count, { known := [], count := d.count + 1 })

/-- `Alloc(n)` (R95): the handle of the new frame, or none for NO_MEMORY. The allocator's own success is drawn only when a
handle and the pool would do. -/
def State.allocate (s : State) (n : Nat) : Option Handle × State :=
  match s.freeHandle with
  | none => (none, s)
  | some h =>
    if s.params.poolBytes < s.blk.poolUsed + n then (none, s)
    else
      let d := s.env.alloc.next Config.allocOk
      (if d.1 then some h else none, { s with env := { s.env with alloc := d.2 } })

/-- A creating command (R150): allocate `n` bytes, write the new slot and answer its handle, or answer NO_MEMORY. `make` gives
the new slot from the old one; `ws` the offsets written through `MemWrite`. -/
def State.create (s : State) (n : Nat) (make : Slot → Slot) (ws : List Nat) : State :=
  match s.allocate n with
  | (none, s') => s'.fail .noMemory
  | (some h, s') => (s'.setSlot h (make (s'.slot h))).reply (ws.map fun o => (h, o)) .ok (handleValue h)

/-- The fields a creating command gives a plain frame (R151, R152, R232). The display fields have no meaning in it (R38); the
lines of a display that had the slot before keep their values (R154). -/
def Slot.plainFrame (width height : Nat) (buf : Memory) (old : Slot) : Slot :=
  { old with live := true, width := width, height := height, isDisplay := false, buf := buf }

/-- The fields DISPLAY_NEW gives a display (R155, R371). -/
def Slot.newDisplay (width height : Nat) (guardEn : Bool) (_old : Slot) : Slot :=
  { live := true, width := width, height := height, isDisplay := true, buf := Memory.filled (bitmapSize width height) 0xFF,
    scanRow := 0, brightness := Config.brightnessFull, guardEn := guardEn,
    oe := .undriven, latch := .undriven, rs0 := .undriven, rs1 := .undriven, trace := [] }

/-- `Free(h)` (R96): the slot is not live and owns no buffer; its lines keep their values (R154). -/
def State.free (s : State) (h : Handle) : State := s.setSlot h { s.slot h with live := false, buf := [] }

/-! ## The registry (R45, R300, R301) -/

/-- `RUNNING(d)`: some registry slot holds the display (R45). -/
def Block.running (b : Block) (d : Handle) : Bool := b.registry.contains (some d)

/-- `RUNNING(d)` (R45). -/
def State.running (s : State) (d : Handle) : Bool := s.blk.running d

/-- Put a display into the lowest empty slot; none when every slot is occupied (R300). -/
def fillLowestEmpty (d : Handle) : List (Option Handle) → Option (List (Option Handle))
  | [] => none
  | none :: rest => some (some d :: rest)
  | some e :: rest => (fillLowestEmpty d rest).map (some e :: ·)

/-- `Register(d)` (R300): idempotent; the lowest empty slot, else an append, which is skipped silently when the list is full or
its growth fails. -/
def State.register (s : State) (d : Handle) : State :=
  if s.running d then s
  else match fillLowestEmpty d s.blk.registry with
    | some slots => { s with blk := { s.blk with registry := slots } }
    | none =>
      if s.params.registryCapacity ≤ s.blk.registry.length then s
      else
        let g := s.env.grow.next Config.growOk
        { s with env := { s.env with grow := g.2 },
                 blk := { s.blk with registry := if g.1 then s.blk.registry ++ [some d] else s.blk.registry } }

/-- The slots after `Unregister(d)`: its slot becomes a tombstone, the length stays (R301). -/
def unregisterSlots (d : Handle) (slots : List (Option Handle)) : List (Option Handle) :=
  slots.map fun e => if e = some d then none else e

/-- `stillOthersRunning`: some slot is occupied (R301). -/
def anyOccupied (slots : List (Option Handle)) : Bool := slots.any Option.isSome

/-- `Unregister(d)`, and the timer disarmed when no display stays running, as STOP and FRAME_FREE do (R288, R301, R306). -/
def State.unregister (s : State) (d : Handle) : State :=
  let slots := unregisterSlots d s.blk.registry
  { s with blk := { s.blk with registry := slots, timerArmed := s.blk.timerArmed && anyOccupied slots } }

/-! ## Output events (R49, R50) -/

/-- `emit(d, e)` on the display's slot: the event joins the trace, and a line event sets its output register (R50). -/
def Slot.emit (f : Slot) (e : OutEvent) : Slot :=
  match e with
  | .send b => { f with trace := f.trace ++ [.send b] }
  | .oe v => { f with trace := f.trace ++ [.oe v], oe := .driven v }
  | .latch v => { f with trace := f.trace ++ [.latch v], latch := .driven v }
  | .rs0 v => { f with trace := f.trace ++ [.rs0 v], rs0 := .driven v }
  | .rs1 v => { f with trace := f.trace ++ [.rs1 v], rs1 := .driven v }

/-- Events emitted in order. -/
def Slot.emitAll (f : Slot) (es : List OutEvent) : Slot := es.foldl Slot.emit f

/-- `PinSetup(d)` (R286). -/
def pinSetupEvents : List OutEvent := [.oe .off, .latch false, .rs0 false, .rs1 false]

/-! ## The scan step (R270 to R284) -/

/-- The byte a scan step reads at an offset of a display's bitmap (R87). -/
abbrev View := Handle → Nat → Byte

/-- The view of a step that no command's write set touches: the bitmap as it is (R87). -/
def State.exactView (s : State) : View := fun h o => s.byte h o

/-- The output enable after a step: fully on at brightness 255, else duty-cycled (R279). -/
def brightnessLevel (b : BitVec 8) : OeLevel := if b = Config.brightnessFull then .on else .pwm b

/-- The row-data events of a step: for each byte column, rows `sr+12`, `sr+8`, `sr+4`, `sr` (R272, R273). -/
def sendEvents (read : Nat → Byte) (rb : Nat) (sr : BitVec 2) : List OutEvent :=
  (List.range rb).flatMap fun i =>
    [3, 2, 1, 0].map fun j => .send (read (rowOffset rb (sr.toNat + Config.groupRows * j) i))

/-- Every event of a step that is not skipped, in order (R275). -/
def scanEvents (read : Nat → Byte) (rb : Nat) (sr : BitVec 2) (brightness : BitVec 8) : List OutEvent :=
  sendEvents read rb sr ++
    [.oe .off, .latch true, .latch false, .rs0 (sr.getLsbD 0), .rs1 (sr.getLsbD 1), .oe (brightnessLevel brightness)]

/-- A step that is not skipped: the events, and the row advanced modulo 4 (R275, R278). -/
def Slot.scan (f : Slot) (read : Nat → Byte) : Slot :=
  { f.emitAll (scanEvents read (rowBytes f.width f.height) f.scanRow f.brightness) with scanRow := f.scanRow + 1 }

/-- `ScanStep(d)` (R275): with the guard enabled its line is sampled, and an asserted line skips the step (R271). -/
def State.scanStep (s : State) (view : View) (d : Handle) : State :=
  if (s.slot d).guardEn then
    let g := s.env.guard.next Config.guardSample
    let s' := { s with env := { s.env with guard := g.2 } }
    if g.1 then s' else s'.setSlot d ((s'.slot d).scan (view d))
  else s.setSlot d ((s.slot d).scan (view d))

/-! ## The tick: the block's interrupt (R305, R335 to R342) -/

/-- `Tick` (R305): every occupied slot's display makes a scan step, in ascending slot order. -/
def State.runTick (s : State) (view : View) : State :=
  (s.blk.registry.filterMap id).foldl (fun s d => s.scanStep view d) s

/-- Taking a tick (R337): nothing is saved and no mode changes; ticks occur only while the timer is armed (R303), and one that
falls while it is disarmed is lost (R336). -/
def State.takeTick (s : State) (view : View) : State := if s.blk.timerArmed then s.runTick view else s

/-- The return from a tick (R338): nothing is restored, because nothing was saved. -/
def State.returnFromTick (s : State) : State := s

/-- A tick between two commands sees the state exactly (R87, R341). -/
def State.tickBetween (s : State) : State := (s.takeTick s.exactView).returnFromTick

/-- The view of a tick inside a command (R87): `S0`'s byte, but for the command's write set, where any byte may be read. -/
def State.tornView (s : State) (s0 : Block) : View := fun h o =>
  if (h, o) ∈ s.ws then Config.tornByte s.env.tornTicks h o else (s0.slot h).buf.read o

/-- A tick inside a command (R85, R87): it scans through the torn view, and the next such tick draws afresh. -/
def State.tickInside (s : State) (s0 : Block) : State :=
  let t := (s.takeTick (s.tornView s0)).returnFromTick
  { t with env := { t.env with tornTicks := t.env.tornTicks + 1 } }

/-! ## The two transitions of a command (R85, R88) -/

/-- `BEGIN(c)`: the port holds the command, the state before it and the state its rule gives; nothing else changes yet. `after`
is the machine as the command's rule leaves it. -/
def State.beginCommand (after : State) (cmd : List Word) (s0 : Block) : State :=
  { after with blk := s0, port := .inFlight cmd s0 after.blk }

/-- The fields of a running display that a tick writes: `SCAN_ROW`, the output registers and the trace (R85). -/
def Slot.withScanOf (f : Slot) (now : Slot) : Slot :=
  { f with scanRow := now.scanRow, oe := now.oe, latch := now.latch, rs0 := now.rs0, rs1 := now.rs1, trace := now.trace }

/-- The footprint of a command installed (R85): every field takes the value `S1` gives it, but for the fields that ticks have
written meanwhile, which no command in flight writes: those of the displays that run in `S0` (log 9). -/
def Block.install (now s0 s1 : Block) : Block :=
  (s0.registry.filterMap id).foldl (fun b d => b.setSlot d ((b.slot d).withScanOf (now.slot d))) s1

/-- `END(c)`: the footprint is installed in one step, the response delivered, the port idle (R85, R88). -/
def State.endCommand (s : State) (s0 s1 : Block) : State :=
  { s with blk := s.blk.install s0 s1, port := .idle }

end Sys2Proof.Machine
end

