-- ==== Sys2Proof/Machine/Display.lean ====
section
/-!
DEFINITION. The display commands (spec/44_scan.md R285 to R289).
-/

namespace Sys2Proof.Machine

/-- SET_BRIGHTNESS (R285): a pure state update; no event, and no line changes until the next scan step. -/
def execBright (fa : Handle) (level : Operand) (s : State) : Host.Outcome State Fault Refusal :=
  .next (
    if Operand.isLevel level then
      if s.isDisplay fa then
        (s.setSlot fa { s.slot fa with brightness := BitVec.ofInt 8 (val level) }).reply [] .ok 0
      else s.fail .badHandle
    else s.fail .illegal)

/-- START (R287): set the lines up, blank the bitmap, make one scan step, register, arm the timer. -/
def execStart (fa : Handle) (s : State) : Host.Outcome State Fault Refusal :=
  .next (
    if s.isDisplay fa then
      if s.running fa then s.fail .busy
      else
        let f := (s.slot fa).emitAll pinSetupEvents
        let blank := f.canvas.fillBytes 0xFF
        let blanked := s.setSlot fa { f with buf := blank.buf }
        let registered := (blanked.scanStep blanked.exactView fa).register fa
        ({ registered with blk := { registered.blk with timerArmed := true } }).reply (blank.ws.map fun o => (fa, o)) .ok 0
    else s.fail .badHandle)

/-- STOP (R288): unregister, disarm the timer when no display stays running, and answer whether others do; no event. -/
def execStop (fa : Handle) (s : State) : Host.Outcome State Fault Refusal :=
  .next (
    if s.isDisplay fa then
      let s' := s.unregister fa
      s'.reply [] .ok (flagValue (anyOccupied s'.blk.registry))
    else s.fail .badHandle)

/-- SCAN_STEP (R289): one scan step of a display that is not running; a skipped step still answers OK. -/
def execScan (fa : Handle) (s : State) : Host.Outcome State Fault Refusal :=
  .next (
    if s.isDisplay fa then
      if s.running fa then s.fail .busy
      else (s.scanStep s.exactView fa).reply [] .ok 0
    else s.fail .badHandle)

end Sys2Proof.Machine
end

