-- ==== Sys2Proof/Machine/Drawing.lean ====
section
/-!
DEFINITION. The drawing commands (spec/42_drawing.md): each visits the pixels of its shape in order, clipped pixel by pixel,
and applies its mode to each.
-/

namespace Sys2Proof.Machine

/-- DRAW_LINE (R201). -/
def execLine (mode : Mode) (fa : Handle) (x1 y1 x2 y2 : Operand) (s : State) : Host.Outcome State Fault Refusal :=
  .next (s.drawOn fa fun c => c.paint (visitsOf mode (linePoints (val x1) (val y1) (val x2) (val y2))))

/-- DRAW_CIRCLE (R211): a radius of 0 or less draws nothing. -/
def execCircle (mode : Mode) (fa : Handle) (xCenter yCenter radius : Operand) (s : State) :
    Host.Outcome State Fault Refusal :=
  .next (s.drawOn fa fun c => c.paint (visitsOf mode (circlePoints (val xCenter) (val yCenter) (val radius))))

/-- DRAW_BOX (R204). -/
def execBox (mode : Mode) (fa : Handle) (x1 y1 x2 y2 : Operand) (s : State) : Host.Outcome State Fault Refusal :=
  .next (s.drawOn fa fun c => c.paint (visitsOf mode (boxPoints (val x1) (val y1) (val x2) (val y2))))

/-- DRAW_FILLED_BOX (R206). -/
def execFbox (mode : Mode) (fa : Handle) (x1 y1 x2 y2 : Operand) (s : State) : Host.Outcome State Fault Refusal :=
  .next (s.drawOn fa fun c => c.paint (visitsOf mode (filledBoxPoints (val x1) (val y1) (val x2) (val y2))))

end Sys2Proof.Machine
end

