-- ==== Sys2Proof/Machine/Frames.lean ====
section
/-!
DEFINITION. The frame and display lifecycle commands (spec/40_frames.md). The checks stand in the order of R120.
-/

namespace Sys2Proof.Machine

/-- FRAME_NEW (R151): a plain frame of `W` by `H` pixels, every byte `0xFF`. -/
def execFnew (w h : Operand) (s : State) : Host.Outcome State Fault Refusal :=
  .next (
    if sideOk w && sideOk h then
      let width := (val w).toNat
      let height := (val h).toNat
      s.create (bitmapSize width height)
        (Slot.plainFrame width height (Memory.filled (bitmapSize width height) 0xFF)) []
    else s.fail .badGeometry)

/-- FRAME_COPY (R152): a plain frame with the source's geometry and bytes. -/
def execFcopy (fa : Handle) (s : State) : Host.Outcome State Fault Refusal :=
  .next (
    if s.isFrame fa then
      let src := s.slot fa
      s.create (bitmapSize src.width src.height) (Slot.plainFrame src.width src.height src.buf) []
    else s.fail .badHandle)

/-- FRAME_ASSIGN (R153): the source's bytes overwrite the destination's; every byte of the destination is written. -/
def execFassign (fa fb : Handle) (s : State) : Host.Outcome State Fault Refusal :=
  .next (
    if s.isFrame fa && s.isFrame fb then
      if s.sameGeometry fa fb then
        let dst := s.slot fa
        s.drawn fa { dst.canvas with buf := (s.slot fb).buf, ws := List.range (bitmapSize dst.width dst.height) }
      else s.fail .badGeometry
    else s.fail .badHandle)

/-- FRAME_FREE (R154): a running display is unregistered, and the timer disarmed when no other runs; then the frame is freed. -/
def execFfree (fa : Handle) (s : State) : Host.Outcome State Fault Refusal :=
  .next (
    if s.isFrame fa then
      let s' := if (s.slot fa).isDisplay && s.running fa then s.unregister fa else s
      (s'.free fa).reply [] .ok 0
    else s.fail .badHandle)

/-- DISPLAY_NEW (R155): a display of `panelsWide` by `panelsHigh` panels, not running, its lines not driven. -/
def execDnew (panelsWide panelsHigh guard : Operand) (s : State) : Host.Outcome State Fault Refusal :=
  .next (
    if Operand.isFlag guard then
      if panelsOk panelsWide && panelsOk panelsHigh then
        let width := Config.panelWidth * (val panelsWide).toNat
        let height := Config.panelHeight * (val panelsHigh).toNat
        s.create (bitmapSize width height) (Slot.newDisplay width height (guard == 1)) []
      else s.fail .badGeometry
    else s.fail .illegal)

end Sys2Proof.Machine
end

