-- ==== Sys2Proof/Machine/Pixel.lean ====
section
/-!
DEFINITION. The pixel commands (spec/41_pixel.md).
-/

namespace Sys2Proof.Machine

/-- SET_PIXEL (R181): one visit of `SetPixelInt`; out of range it writes nothing and still answers OK. -/
def execSetpix (mode : Mode) (fa : Handle) (x y : Operand) (s : State) : Host.Outcome State Fault Refusal :=
  .next (s.drawOn fa fun c => c.paint [⟨val x, val y, mode⟩])

/-- GET_PIXEL (R183): the logical pixel, 0 out of range; nothing is written. -/
def execGetpix (fa : Handle) (x y : Operand) (s : State) : Host.Outcome State Fault Refusal :=
  .next (
    if s.isFrame fa then s.reply [] .ok (flagValue (s.pixel fa (val x) (val y)))
    else s.fail .badHandle)

/-- FILL (R184): every byte `0x00` for `on = 1`, `0xFF` for `on = 0`, padding included. -/
def execFill (fa : Handle) (on : Operand) (s : State) : Host.Outcome State Fault Refusal :=
  .next (
    if Operand.isFlag on then s.drawOn fa fun c => c.fillBytes (if on = 1 then 0x00 else 0xFF)
    else s.fail .illegal)

end Sys2Proof.Machine
end

