-- ==== Sys2Proof/Machine/Region.lean ====
section
/-!
DEFINITION. The region commands (spec/43_region.md). Each reads its snapshot before it writes (R230).
-/

namespace Sys2Proof.Machine

/-- MOVE_REGION (R234): snapshot, clear the source rectangle, paste; an empty rectangle moves nothing and answers OK. -/
def execMove (fa : Handle) (fromX fromY toX toY w h : Operand) (s : State) : Host.Outcome State Fault Refusal :=
  .next (s.drawOn fa fun c =>
    if 1 ≤ val w ∧ 1 ≤ val h then
      let cols := (val w).toNat
      let rows := (val h).toNat
      c.paint (clearVisits cols rows (val fromX) (val fromY)
        ++ pasteVisits (c.snapshot (val fromX) (val fromY)) cols rows (val toX) (val toY))
    else c)

/-- SUB_FRAME (R232): a plain frame of `w` by `h` with a copy of the rectangle; pixels out of the source's range are dark. -/
def execSubf (fa : Handle) (left top w h : Operand) (s : State) : Host.Outcome State Fault Refusal :=
  .next (
    if s.isFrame fa then
      if sideOk w && sideOk h then
        let cols := (val w).toNat
        let rows := (val h).toNat
        let grid := (s.slot fa).canvas.snapshot (val left) (val top)
        let blank : Canvas := { width := cols, height := rows, buf := Memory.filled (bitmapSize cols rows) 0xFF, ws := [] }
        let new := blank.paint (pasteVisits grid cols rows 0 0)
        s.create (bitmapSize cols rows) (Slot.plainFrame cols rows new.buf) new.ws
      else s.fail .badGeometry
    else s.fail .badHandle)

/-- COPY_INTO (R233): the whole of frame `FB` is pasted into frame `FA` at `(destLeft, destTop)`, clipped to `FA`. -/
def execCopyin (fa fb : Handle) (destLeft destTop : Operand) (s : State) : Host.Outcome State Fault Refusal :=
  .next (
    if s.isFrame fa && s.isFrame fb then
      let src := s.slot fb
      s.drawn fa ((s.slot fa).canvas.paint
        (pasteVisits (src.canvas.snapshot 0 0) src.width src.height (val destLeft) (val destTop)))
    else s.fail .badHandle)

/-- SCROLL_X (R235): the picture moves by `delta` columns; vacated pixels are dark; `|delta| >= W` clears the frame. -/
def execScrx (fa : Handle) (delta : Operand) (s : State) : Host.Outcome State Fault Refusal :=
  .next (s.drawOn fa fun c =>
    if (c.width : Int) ≤ |val delta| then c.fillBytes 0xFF
    else c.paint (pasteVisits (fun i j => c.snapshot (-val delta) 0 i j) c.width c.height 0 0))

/-- SCROLL_Y (R236): R235 with the axes exchanged. -/
def execScry (fa : Handle) (delta : Operand) (s : State) : Host.Outcome State Fault Refusal :=
  .next (s.drawOn fa fun c =>
    if (c.height : Int) ≤ |val delta| then c.fillBytes 0xFF
    else c.paint (pasteVisits (fun i j => c.snapshot 0 (-val delta) i j) c.width c.height 0 0))

/-- MARQUEE_X (R237): the picture moves by `delta` columns modulo `W`. -/
def execMarqx (fa : Handle) (delta : Operand) (s : State) : Host.Outcome State Fault Refusal :=
  .next (s.drawOn fa fun c =>
    c.paint (pasteVisits (fun i j => c.snapshot 0 0 (((i : Int) - val delta) % c.width).toNat j) c.width c.height 0 0))

/-- MARQUEE_Y (R238): R237 with the axes exchanged. -/
def execMarqy (fa : Handle) (delta : Operand) (s : State) : Host.Outcome State Fault Refusal :=
  .next (s.drawOn fa fun c =>
    c.paint (pasteVisits (fun i j => c.snapshot 0 0 i (((j : Int) - val delta) % c.height).toNat) c.width c.height 0 0))

/-- SWAP_BUFFERS (R239): two frames of equal geometry exchange their bitmaps, and nothing else; no bitmap byte is written. -/
def execSwap (fa fb : Handle) (s : State) : Host.Outcome State Fault Refusal :=
  .next (
    if s.isFrame fa && s.isFrame fb then
      if s.sameGeometry fa fb then
        let a := s.slot fa
        let b := s.slot fb
        if fa = fb then s.reply [] .ok 0
        else ((s.setSlot fa { a with buf := b.buf }).setSlot fb { b with buf := a.buf }).reply [] .ok 0
      else s.fail .badGeometry
    else s.fail .badHandle)

end Sys2Proof.Machine
end

