-- ==== Sys2Proof/Machine/Dispatch.lean ====
section
/-!
DEFINITION. One arm per command: what each does to the machine (spec/30_encoding.md R115).
-/

namespace Sys2Proof.Machine

def exec (i : Instr) (s : State) : Host.Outcome State Fault Refusal :=
  match i with
  | .fnew w h => Sys2Proof.Machine.execFnew w h s
  | .fcopy fa => Sys2Proof.Machine.execFcopy fa s
  | .fassign fa fb => Sys2Proof.Machine.execFassign fa fb s
  | .ffree fa => Sys2Proof.Machine.execFfree fa s
  | .dnew panelsWide panelsHigh guard => Sys2Proof.Machine.execDnew panelsWide panelsHigh guard s
  | .setpix mode fa x y => Sys2Proof.Machine.execSetpix mode fa x y s
  | .getpix fa x y => Sys2Proof.Machine.execGetpix fa x y s
  | .fill fa on => Sys2Proof.Machine.execFill fa on s
  | .line mode fa x1 y1 x2 y2 => Sys2Proof.Machine.execLine mode fa x1 y1 x2 y2 s
  | .circle mode fa xCenter yCenter radius => Sys2Proof.Machine.execCircle mode fa xCenter yCenter radius s
  | .box mode fa x1 y1 x2 y2 => Sys2Proof.Machine.execBox mode fa x1 y1 x2 y2 s
  | .fbox mode fa x1 y1 x2 y2 => Sys2Proof.Machine.execFbox mode fa x1 y1 x2 y2 s
  | .move fa fromX fromY toX toY w h => Sys2Proof.Machine.execMove fa fromX fromY toX toY w h s
  | .subf fa left top w h => Sys2Proof.Machine.execSubf fa left top w h s
  | .copyin fa fb destLeft destTop => Sys2Proof.Machine.execCopyin fa fb destLeft destTop s
  | .scrx fa delta => Sys2Proof.Machine.execScrx fa delta s
  | .scry fa delta => Sys2Proof.Machine.execScry fa delta s
  | .marqx fa delta => Sys2Proof.Machine.execMarqx fa delta s
  | .marqy fa delta => Sys2Proof.Machine.execMarqy fa delta s
  | .swap fa fb => Sys2Proof.Machine.execSwap fa fb s
  | .bright fa level => Sys2Proof.Machine.execBright fa level s
  | .start fa => Sys2Proof.Machine.execStart fa s
  | .stop fa => Sys2Proof.Machine.execStop fa s
  | .scan fa => Sys2Proof.Machine.execScan fa s

end Sys2Proof.Machine
end

