-- ==== Sys2Proof/Machine/Port.lean ====
section
/-!
DEFINITION. The command port (spec/30_encoding.md R110, spec/10_state.md R48) and the interleaving of host and tick
(spec/20_memory.md R83 to R89). `step` calls these.
-/

namespace Sys2Proof.Machine

/-- The words at the head of the queue, up to the first tick. -/
def leadingWords : List Input → List Word
  | .word w :: rest => w :: leadingWords rest
  | _ => []

/-- The queue without its first tick; none where there is no tick. -/
def withoutFirstTick : List Input → Option (List Input)
  | [] => none
  | .word w :: rest => (withoutFirstTick rest).map (.word w :: ·)
  | .tick :: rest => some rest
  | .tickInCommand :: rest => some rest

/-- Whether the next input falls inside the command just taken. -/
def tickComesInside : List Input → Bool
  | .tickInCommand :: _ => true
  | _ => false

/-- The state a command's rule gives (R85): the decoded command's meaning, or the ILLEGAL answer of R120 checks 1 to 5, which
changes nothing (R121). -/
def runCommand (cmd : List Word) (s : State) : Host.Outcome State Fault Refusal :=
  match decode cmd with
  | .ok i => exec i s
  | .error _ => .next (s.fail .illegal)

/-- The port takes a command (R110). With no tick before its `END`, `BEGIN` and `END` are one step (log 8); otherwise this is
its `BEGIN` (R85). `rest` is the queue after the command. -/
def takeAndRun (cmd : List Word) (rest : List Input) (s : State) : Host.Outcome State Fault Refusal :=
  match runCommand cmd { s with input := rest } with
  | .next after => .next (if tickComesInside rest then after.beginCommand cmd s.blk else after)
  | .fault r => .fault r
  | .refused r => .refused r

/-- A step while the port is idle: the command whose words stand first; a tick that stands first, or that falls before an
incomplete command's last word (log 7); or nothing, while the block waits for the host (R93, R351). -/
def stepIdle (s : State) : Host.Outcome State Fault Refusal :=
  match takeCommand (leadingWords s.input) with
  | some (cmd, _) => takeAndRun cmd (s.input.drop cmd.length) s
  | none =>
    match withoutFirstTick s.input with
    | some rest => .next ({ s with input := rest }).tickBetween
    | none => .next s

/-- A step while a command is in flight: a tick that falls inside it (R87), else its `END` (R85). -/
def stepInFlight (s0 s1 : Block) (s : State) : Host.Outcome State Fault Refusal :=
  match s.input with
  | .tickInCommand :: rest => .next (({ s with input := rest }).tickInside s0)
  | _ => .next (s.endCommand s0 s1)

/-- One transition, or a command's two transitions where no tick falls between them. -/
def stepPort (s : State) : Host.Outcome State Fault Refusal :=
  match s.port with
  | .idle => stepIdle s
  | .inFlight _ s0 s1 => stepInFlight s0 s1 s

/-- The port idle with one command's words in the queue: the next step takes and runs it. -/
def State.withCommandWords (s : State) (words : List Word) : State :=
  { s with port := .idle, input := words.map .word }

end Sys2Proof.Machine
end

