-- ==== Sys2Proof/Machine/Step.lean ====
section
/-!
DEFINITION. The machine's step, and the host's way to place one instruction where the next step takes it.
-/

namespace Sys2Proof.Machine

/-- One step of the machine (spec/20_memory.md R83 to R89). -/
def step (s : State) : Host.Outcome State Fault Refusal := stepPort s

/-- `s` with the instruction of an opcode-table row's bits on the command port, as the only words sent (log 6). -/
def State.withFetchWord (s : State) (nbits w : Nat) : State := s.withCommandWords (tableWords nbits w)

end Sys2Proof.Machine
end

