-- ==== Sys2Proof/Machine/Pins.lean ====
section
/-!
DEFINITION. The electrical side of a display's lines: the levels the parameters of spec/00_scope.md R8 give the logical values
of spec/10_state.md R42, and the duty of spec/44_scan.md R284. Views of State; no step depends on them.
-/

namespace Sys2Proof.Machine

/-- The electrical level of a two-level line; none while it is not driven (R42). -/
def Line.level (activeLevel : Bool) : Line → Option Bool
  | .undriven => none
  | .driven v => some (if v then activeLevel else !activeLevel)

/-- The electrical level of display `d`'s latch line; 1 is the active level (R42, R276). -/
def State.latchLevel (s : State) (d : Handle) : Option Bool := (s.slot d).latch.level s.params.latchActiveLevel

/-- How long a period of the output enable is active, in 255ths of a time unit: the fraction `n / 255` of `PWM_PERIOD` for
`PWM(n)`, all of it for ON, none of it for OFF (R284). -/
def OeLevel.activeTime (pwmPeriod : Nat) : OeLevel → Nat
  | .off => 0
  | .on => 255 * pwmPeriod
  | .pwm n => n.toNat * pwmPeriod

/-- The active time of display `d`'s output enable per period; none while it is not driven (R42, R284). -/
def State.oeActiveTime (s : State) (d : Handle) : Option Nat :=
  match (s.slot d).oe with
  | .undriven => none
  | .driven v => some (v.activeTime s.params.pwmPeriod)

/-- The level of display `d`'s output-enable line while its LEDs are lit, and while they are dark (R8, R42). -/
def State.oeLevel (s : State) (lit : Bool) : Bool := if lit then s.params.oeEnableLevel else !s.params.oeEnableLevel

/-- The guard sample a level of the guard input stands for: 1 at `GUARD_ASSERTED_LEVEL` (R8, R43). -/
def State.guardSampleOf (s : State) (level : Bool) : Bool := level == s.params.guardAssertedLevel

/-- The time four ticks take, in which a whole picture is sent (R383). -/
def State.refreshPeriod (s : State) : Nat := Config.groupRows * s.params.tickPeriod

end Sys2Proof.Machine
end

