-- ==== Sys2Proof/Safety.lean ====
section
/-!
DEFINITION. What counts as a safe state (spec/10_state.md R53 and the legal values of R35 to R48), and the words the claims
use: what a command leaves as it was, what it answers, what it draws.
-/

namespace Sys2Proof.Machine

/-! ## The invariant -/

/-- The parameters are in the ranges of R8. -/
structure Params.Legal (p : Params) : Prop where
  framesLow : 1 ≤ p.maxFrames
  framesHigh : p.maxFrames ≤ 255
  pool : 64 ≤ p.poolBytes
  registry : 1 ≤ p.registryCapacity

/-- A live slot `FR[h]`: a handle that can be live (R34), legal sides (R35), a canonical bitmap inside its `SIZE` (R37), and
whole panels in a display (R53 e). -/
structure Slot.LiveOk (p : Params) (h : Handle) (f : Slot) : Prop where
  handlePos : h ≠ 0
  handleMax : h.toNat ≤ p.maxFrames
  widthPos : 1 ≤ f.width
  widthMax : f.width ≤ 32767
  heightPos : 1 ≤ f.height
  heightMax : f.height ≤ 32767
  bitmap : f.buf.wf = true
  bitmapSize : f.buf.below (Machine.bitmapSize f.width f.height) = true
  wholePanels : f.isDisplay = true → f.width % Config.panelWidth = 0 ∧ f.height % Config.panelHeight = 0

/-- A slot: legal while live, without a buffer otherwise (R35), and `PWM(n)` only with `n` in 0..254 (R42). -/
structure Slot.Inv (p : Params) (h : Handle) (f : Slot) : Prop where
  live : f.live = true → f.LiveOk p h
  dead : f.live = false → f.buf = []
  duty : f.oe ≠ .driven (.pwm Config.brightnessFull)

/-- The state tuple (R53): legal slots, the pool not overrun, each registry slot empty or a live display, no display in two
slots, the list within its capacity (R44), and the timer armed while any display runs (R306). -/
structure Block.Inv (p : Params) (b : Block) : Prop where
  slots : ∀ h, (b.slot h).Inv p h
  pool : b.poolUsed ≤ p.poolBytes
  capacity : b.registry.length ≤ p.registryCapacity
  registered : ∀ d, some d ∈ b.registry → (b.slot d).live = true ∧ (b.slot d).isDisplay = true
  once : (b.registry.filterMap id).Nodup
  armed : anyOccupied b.registry = true → b.timerArmed = true

/-- What ticks may have changed since `S0`: of a display that runs in `S0`, the fields a tick writes; nothing else (R85). -/
structure Block.OnlyScanned (s0 now : Block) : Prop where
  running : ∀ h, s0.running h = true → now.slot h = (s0.slot h).withScanOf (now.slot h)
  stopped : ∀ h, s0.running h = false → now.slot h = s0.slot h
  registry : now.registry = s0.registry
  timerArmed : now.timerArmed = s0.timerArmed
  responses : now.responses = s0.responses

/-- The port: in flight, both states it holds are safe, and the machine has left `S0` only by ticks (R48, R85). -/
def Port.Inv (p : Params) (now : Block) : Port → Prop
  | .idle => True
  | .inFlight _ s0 s1 => s0.Inv p ∧ s1.Inv p ∧ s0.OnlyScanned now

/-- A safe state of the machine. -/
structure State.Inv (s : State) : Prop where
  params : s.params.Legal
  blk : s.blk.Inv s.params
  port : s.port.Inv s.params s.blk

/-! ## What a command leaves as it was -/

/-- The registry and the timer are as they were (R44, R46). -/
def State.SameScheduler (s t : State) : Prop :=
  t.blk.registry = s.blk.registry ∧ t.blk.timerArmed = s.blk.timerArmed

/-- What no command changes: the parameters, the port and the queue of what is still to come. -/
def State.SameOutside (s t : State) : Prop := t.params = s.params ∧ t.port = s.port ∧ t.input = s.input

/-- Every slot but `h` is as it was: every field of every other frame, every byte of every other bitmap. -/
def State.SameSlotsBut (s t : State) (h : Handle) : Prop := ∀ k, k ≠ h → t.slot k = s.slot k

/-- The command delivered exactly this response (R51, R114). -/
def State.Answers (s t : State) (status : Status) (value : BitVec 16) : Prop :=
  t.blk.responses = s.blk.responses ++ [⟨status, value⟩]

/-- Everything but the bitmap of frame `h`, the write set and the responses is as it was. -/
structure State.OnlyBitmap (s t : State) (h : Handle) : Prop where
  outside : s.SameOutside t
  env : t.env = s.env
  scheduler : s.SameScheduler t
  others : s.SameSlotsBut t h
  itself : t.slot h = { s.slot h with buf := (t.slot h).buf }

/-- A failed command: nothing is as it was not, but for the response; no bitmap byte is in the write set (R332). -/
structure State.OnlyAnswers (s t : State) (status : Status) : Prop where
  outside : s.SameOutside t
  frames : t.blk.frames = s.blk.frames
  scheduler : s.SameScheduler t
  answer : s.Answers t status 0
  noWrite : t.ws = []

/-! ## What a command draws -/

/-- The new logical value each mode gives a pixel of old value `q` (R180). -/
def modeResult (mode : Mode) (q : Bool) : Bool :=
  match mode with
  | .on => true
  | .off => false
  | .or => true
  | .nor => false
  | .xor => !q
  | .inverse => q
  | .noop => q

/-- Column "writes" of R180. -/
def modeWrites (mode : Mode) : Bool :=
  match mode with
  | .on => true
  | .off => true
  | .or => true
  | .nor => true
  | .xor => true
  | .inverse => false
  | .noop => false

/-- Whether a pixel is in range of frame `h` (R13). -/
def State.inRange (s : State) (h : Handle) (x y : Int) : Bool := Machine.inRange (s.slot h).width (s.slot h).height x y

/-- The byte offset of a pixel of frame `h`, as the drawing primitive computes it (R72). -/
def State.offsetOf (s : State) (h : Handle) (x y : Int) : Nat :=
  pixelOffset (s.slot h).width (s.slot h).height x.toNat y.toNat

/-- `t` is `s` with the points visited in a mode on frame `h`, in range ones only (R182): each in-range pixel has the mode
applied as often as it is visited; the write set is the bytes of the in-range points, if the mode writes (R86); every byte
outside it is as it was; and nothing else changes but the OK response. -/
structure State.Draws (s t : State) (h : Handle) (mode : Mode) (points : List Point) : Prop where
  frame : s.OnlyBitmap t h
  answer : s.Answers t .ok 0
  pixels : ∀ x y, s.inRange h x y = true → t.pixel h x y = (modeResult mode)^[points.count (x, y)] (s.pixel h x y)
  written : ∀ k o, (k, o) ∈ t.ws ↔
    k = h ∧ modeWrites mode = true ∧ ∃ p ∈ points, s.inRange h p.1 p.2 = true ∧ o = s.offsetOf h p.1 p.2
  bytes : ∀ o, (h, o) ∉ t.ws → t.byte h o = s.byte h o

/-- The bytes of frame `h` that hold a pixel in range and in a region: what overwriting the region stores to (R72, R182). -/
def State.bytesOf (s : State) (h : Handle) (region : Int → Int → Prop) (o : Nat) : Prop :=
  ∃ x y, s.inRange h x y = true ∧ region x y ∧ o = s.offsetOf h x y

/-- Every byte of frame `h`'s bitmap (R36). -/
def State.allBytes (s : State) (h : Handle) (o : Nat) : Prop := o < bitmapSize (s.slot h).width (s.slot h).height

/-- `t` is `s` with the picture of frame `h` replaced by `picture` at every in-range pixel; the write set is the bytes `stores`;
every other byte is as it was; and nothing else changes but the OK response. -/
structure State.Redraws (s t : State) (h : Handle) (picture : Int → Int → Bool) (stores : Nat → Prop) : Prop where
  frame : s.OnlyBitmap t h
  answer : s.Answers t .ok 0
  pixels : ∀ x y, s.inRange h x y = true → t.pixel h x y = picture x y
  written : ∀ k o, (k, o) ∈ t.ws ↔ k = h ∧ stores o
  bytes : ∀ o, ¬stores o → t.byte h o = s.byte h o

/-- A rectangle of `w` by `h` pixels at `(left, top)`; empty when a side is below 1. -/
def inRect (left top w h x y : Int) : Prop := left ≤ x ∧ x < left + w ∧ top ≤ y ∧ y < top + h

/-! ## Creating frames -/

/-- `h` is the lowest handle whose slot is not live (R95). -/
structure State.LowestFree (s : State) (h : Handle) : Prop where
  pos : h ≠ 0
  max : h.toNat ≤ s.params.maxFrames
  free : (s.slot h).live = false
  lowest : ∀ k : Handle, k ≠ 0 → k.toNat < h.toNat → (s.slot k).live = true

/-- `Alloc(n)` gives handle `h`: the lowest free one, the pool has room, and the environment lets it (R95). -/
structure State.CanAlloc (s : State) (n : Nat) (h : Handle) : Prop where
  handle : s.LowestFree h
  pool : s.blk.poolUsed + n ≤ s.params.poolBytes
  drawn : (s.env.alloc.next Config.allocOk).1 = true

/-- `Alloc(n)` fails: no handle is free, or the pool has no room, or the environment refuses (R95). -/
def State.CannotAlloc (s : State) (n : Nat) : Prop :=
  (∀ k : Handle, k ≠ 0 → k.toNat ≤ s.params.maxFrames → (s.slot k).live = true) ∨
  s.params.poolBytes < s.blk.poolUsed + n ∨ (s.env.alloc.next Config.allocOk).1 = false

/-- A creating command answered handle `h`: slot `h` is live, every other frame is as it was, and so are the registry, the timer
and every draw but the allocator's (R150). -/
structure State.Creates (s t : State) (h : Handle) : Prop where
  outside : s.SameOutside t
  draws : t.env = { s.env with alloc := (s.env.alloc.next Config.allocOk).2 }
  scheduler : s.SameScheduler t
  others : s.SameSlotsBut t h
  live : (t.slot h).live = true
  answer : s.Answers t .ok (handleValue h)

/-! ## The scan step and the registry -/

/-- The byte offsets a scan step sends, in order: for each byte column, rows `sr + 12`, `sr + 8`, `sr + 4`, `sr` (R273). -/
def sentOffsets (rb sr : Nat) : List Nat :=
  (List.range rb).flatMap fun i => [(sr + 12) * rb + i, (sr + 8) * rb + i, (sr + 4) * rb + i, sr * rb + i]

/-- Whether an event is row data (R49). -/
def OutEvent.isSend : OutEvent → Bool
  | .send _ => true
  | .oe _ => false
  | .latch _ => false
  | .rs0 _ => false
  | .rs1 _ => false

/-- The six control events that end a scan step (R274 to R279). -/
def controlEvents (sr : BitVec 2) (brightness : BitVec 8) : List OutEvent :=
  [.oe .off, .latch true, .latch false, .rs0 (sr.getLsbD 0), .rs1 (sr.getLsbD 1),
   .oe (if brightness = 255 then .on else .pwm brightness)]

/-- A display after a scan step that was not skipped, its bytes read through `view`: the events join the trace, the lines take
the values of the last event of each, and the row advances modulo 4 (R275). -/
def Slot.afterStep (f : Slot) (view : Nat → Byte) : Slot :=
  { f with
    trace := f.trace ++ (sentOffsets (rowBytes f.width f.height) f.scanRow.toNat).map (fun o => .send (view o))
      ++ controlEvents f.scanRow f.brightness,
    scanRow := f.scanRow + 1,
    oe := .driven (if f.brightness = 255 then .on else .pwm f.brightness),
    latch := .driven false, rs0 := .driven (f.scanRow.getLsbD 0), rs1 := .driven (f.scanRow.getLsbD 1) }

/-- Whether the next sample of the guard line is asserted (R271). -/
def State.guardAsserted (s : State) : Bool := (s.env.guard.next Config.guardSample).1

/-- What the draw of the guard line that comes after `m` others answers: the known answer, or the free value of its number (R271). -/
def State.guardAt (s : State) (m : Nat) : Bool := (s.env.guard.known[m]?).getD (Config.guardSample (s.env.guard.count + m))

/-- How many displays of a part of the registry have a guard line. -/
def State.guarded (s : State) (slots : List (Option Handle)) : Nat :=
  ((slots.filterMap id).filter fun d => (s.slot d).guardEn).length

/-- A scan step of display `d` in state `s` runs: it has no guard line, or the sample is 0 (R271). -/
def State.StepRuns (s : State) (d : Handle) : Prop := (s.slot d).guardEn = false ∨ s.guardAsserted = false

/-- The registry with display `d`'s slot emptied, its length as it was (R301). -/
def State.registryWithout (s : State) (d : Handle) : List (Option Handle) :=
  s.blk.registry.map fun e => if e = some d then none else e

/-- `t`'s registry is `s`'s after `Register(d)` for a display that does not run: the lowest empty slot takes it, else an append
that the capacity and the growth allow, else nothing (R300). -/
structure State.Registers (s t : State) (d : Handle) : Prop where
  reuse : ∀ before after, none ∉ before → s.blk.registry = before ++ none :: after →
    t.blk.registry = before ++ some d :: after
  append : none ∉ s.blk.registry → s.blk.registry.length < s.params.registryCapacity →
    (s.env.grow.next Config.growOk).1 = true → t.blk.registry = s.blk.registry ++ [some d]
  full : none ∉ s.blk.registry → s.params.registryCapacity ≤ s.blk.registry.length → t.blk.registry = s.blk.registry
  noGrowth : none ∉ s.blk.registry → (s.env.grow.next Config.growOk).1 = false → t.blk.registry = s.blk.registry

/-! ## Runs -/

/-- The state after `n` steps; none if one of them stops. -/
def State.run : Nat → State → Option State
  | 0, s => some s
  | n + 1, s =>
    match step s with
    | .next t => State.run n t
    | .fault _ => none
    | .refused _ => none

end Sys2Proof.Machine

namespace Sys2Proof

/-- The frames a command names, `FA` before `FB` (R115, R117). -/
def Instr.handles : Instr → List Handle
  | .fnew _ _ => []
  | .fcopy fa => [fa]
  | .fassign fa fb => [fa, fb]
  | .ffree fa => [fa]
  | .dnew _ _ _ => []
  | .setpix _ fa _ _ => [fa]
  | .getpix fa _ _ => [fa]
  | .fill fa _ => [fa]
  | .line _ fa _ _ _ _ => [fa]
  | .circle _ fa _ _ _ => [fa]
  | .box _ fa _ _ _ _ => [fa]
  | .fbox _ fa _ _ _ _ => [fa]
  | .move fa _ _ _ _ _ _ => [fa]
  | .subf fa _ _ _ _ => [fa]
  | .copyin fa fb _ _ => [fa, fb]
  | .scrx fa _ => [fa]
  | .scry fa _ => [fa]
  | .marqx fa _ => [fa]
  | .marqy fa _ => [fa]
  | .swap fa fb => [fa, fb]
  | .bright fa _ => [fa]
  | .start fa => [fa]
  | .stop fa => [fa]
  | .scan fa => [fa]

/-- Whether a command's frame must be a display (R115, column FA). -/
def Instr.needsDisplay : Instr → Bool
  | .bright _ _ => true
  | .start _ => true
  | .stop _ => true
  | .scan _ => true
  | .fnew _ _ => false
  | .fcopy _ => false
  | .fassign _ _ => false
  | .ffree _ => false
  | .dnew _ _ _ => false
  | .setpix _ _ _ _ => false
  | .getpix _ _ _ => false
  | .fill _ _ => false
  | .line _ _ _ _ _ _ => false
  | .circle _ _ _ _ _ => false
  | .box _ _ _ _ _ _ => false
  | .fbox _ _ _ _ _ _ => false
  | .move _ _ _ _ _ _ _ => false
  | .subf _ _ _ _ _ => false
  | .copyin _ _ _ _ => false
  | .scrx _ _ => false
  | .scry _ _ => false
  | .marqx _ _ => false
  | .marqy _ _ => false
  | .swap _ _ => false

end Sys2Proof
end

