-- ==== Sys2Proof/Certificates/Slice0/Obligations.lean ====
section
/-!
DEFINITION. The statements for the provers. Each docstring names the rules of spec/ it formalises; where a statement rests on a
choice of the model, the log entry is named.
-/

open Sys2Proof Sys2Proof.Machine

/-! ## Encoding -/

/-- Decoding the words of any well-formed command gives that command: every operand at every value, every mode and every handle
(R111, R112, R115). -/
def Obligations.DecodeEncode : Prop :=
  ∀ i : Instr, i.wellFormed = true → decode (encode i) = .ok i

/-- Only the encoding of a well-formed command decodes: no reserved bit, unused field or extra word is ignored (R119, R120). -/
def Obligations.DecodeOnlyEncodings : Prop :=
  ∀ (cmd : List Word) (i : Instr), decode cmd = .ok i → cmd = encode i ∧ i.wellFormed = true

/-- The ten worked encodings of R126, both ways. -/
def Obligations.WorkedEncodings : Prop :=
  (decode [0x01000000, 0x00000040, 0x00000020] = .ok (.fnew 64 32)
    ∧ encode (.fnew 64 32) = [0x01000000, 0x00000040, 0x00000020]) ∧
  (decode [0x05000000, 0x00000001, 0x00000001, 0x00000000] = .ok (.dnew 1 1 0)
    ∧ encode (.dnew 1 1 0) = [0x05000000, 0x00000001, 0x00000001, 0x00000000]) ∧
  (decode [0x10400100, 0x00000003, 0x00000004] = .ok (.setpix .xor 1 3 4)
    ∧ encode (.setpix .xor 1 3 4) = [0x10400100, 0x00000003, 0x00000004]) ∧
  (decode [0x13000100, 0x00000000, 0x00000000, 0x00000009, 0x00000000] = .ok (.line .on 1 0 0 9 0)
    ∧ encode (.line .on 1 0 0 9 0) = [0x13000100, 0x00000000, 0x00000000, 0x00000009, 0x00000000]) ∧
  (decode [0x14000200, 0x0000000A, 0x0000000A, 0x00000003] = .ok (.circle .on 2 10 10 3)
    ∧ encode (.circle .on 2 10 10 3) = [0x14000200, 0x0000000A, 0x0000000A, 0x00000003]) ∧
  (decode [0x23000100, 0x0000FFFF] = .ok (.scrx 1 (-1)) ∧ encode (.scrx 1 (-1)) = [0x23000100, 0x0000FFFF]) ∧
  (decode [0x22000102, 0x00000008, 0x00000000] = .ok (.copyin 1 2 8 0)
    ∧ encode (.copyin 1 2 8 0) = [0x22000102, 0x00000008, 0x00000000]) ∧
  (decode [0x27000103] = .ok (.swap 1 3) ∧ encode (.swap 1 3) = [0x27000103]) ∧
  (decode [0x30000100, 0x00000080] = .ok (.bright 1 128) ∧ encode (.bright 1 128) = [0x30000100, 0x00000080]) ∧
  (decode [0x31000100] = .ok (.start 1) ∧ encode (.start 1) = [0x31000100])

/-- The header alone decides how many words a command takes: the words of a command are taken from the front of any stream,
a header with an unassigned opcode is a command of one word, and an incomplete command is not taken (R110, R113). -/
def Obligations.HeaderDecidesLength : Prop :=
  (∀ (i : Instr) (rest : List Word), takeCommand (encode i ++ rest) = some (encode i, rest)) ∧
  (∀ (hdr : Word) (rest : List Word), (∀ op : Op, op.code ≠ hdr.opc) → takeCommand (hdr :: rest) = some ([hdr], rest)) ∧
  (∀ (op : Op) (hdr : Word) (rest : List Word), hdr.opc = op.code →
    (rest.length < op.nops → takeCommand (hdr :: rest) = none) ∧
    (op.nops ≤ rest.length → takeCommand (hdr :: rest) = some (hdr :: rest.take op.nops, rest.drop op.nops)))

/-- A nonzero `RSV` or a nonzero operand bit 31:16 makes the command answer ILLEGAL, whatever else it holds; the response's
reserved bits are 0 (R119). -/
def Obligations.ReservedBitsRefused : Prop :=
  (∀ (s : State) (hdr : Word) (operands : List Word), hdr.rsv ≠ 0 ∨ (∃ w ∈ operands, w.upper ≠ 0) →
    runCommand (hdr :: operands) s = .next (s.fail .illegal)) ∧
  (∀ r : Response, r.word.extractLsb' 16 8 = 0)

/-- The response word: the status code of R330 in bits 31:24, the value in bits 15:0 (R114). -/
def Obligations.ResponseWord : Prop :=
  (∀ r : Response, r.word.extractLsb' 24 8 = r.status.code ∧ r.word.extractLsb' 16 8 = 0
    ∧ r.word.extractLsb' 0 16 = r.value) ∧
  Status.code .ok = 0x00 ∧ Status.code .illegal = 0x01 ∧ Status.code .badHandle = 0x02 ∧
  Status.code .badGeometry = 0x03 ∧ Status.code .noMemory = 0x04 ∧ Status.code .busy = 0x05

/-! ## The port, the step, reset -/

/-- A step runs the decoded command: when the words at the head of the queue decode to a command, the step is that command's
meaning, with the words taken from the queue; when a tick falls inside the command, the step is its `BEGIN`, which holds the
state before and the state the meaning gives (R85, R110). BEGIN and END being one step when no tick falls between them is the
model's (log 8). -/
def Obligations.StepRunsDecodedCommand : Prop :=
  ∀ (s : State) (cmd : List Word) (rest : List Input) (i : Instr),
    s.port = .idle → s.input = cmd.map Input.word ++ rest → decode cmd = .ok i →
    (tickComesInside rest = false → step s = exec i { s with input := rest }) ∧
    (∀ t, tickComesInside rest = true → exec i { s with input := rest } = .next t →
      step s = .next { t with blk := s.blk, port := .inFlight cmd s.blk t.blk })

/-- Words that fail checks 1 to 5 of R120 are answered ILLEGAL and change nothing else (R120, R121). -/
def Obligations.IllegalWordsAnswered : Prop :=
  ∀ (s : State) (cmd : List Word) (rest : List Input) (e : Reject),
    s.port = .idle → s.input = cmd.map Input.word ++ rest → takeCommand cmd = some (cmd, []) → decode cmd = .error e →
    tickComesInside rest = false →
    ∃ t, step s = .next t ∧ ({ s with input := rest } : State).OnlyAnswers t .illegal

/-- The block has no trap and no fault: every step of every state answers a next state, and no step changes the parameters
(R121, R93). -/
def Obligations.StepAnswersNext : Prop :=
  ∀ s : State, ∃ t, step s = .next t ∧ t.params = s.params

/-- While the port is idle and nothing is sent, the block waits; a tick that falls while the timer is disarmed is lost
(R336, R351). -/
def Obligations.WaitsAndLosesDisarmedTicks : Prop :=
  (∀ s : State, s.port = .idle → s.input = [] → step s = .next s) ∧
  (∀ (s : State) (rest : List Input), s.port = .idle → s.input = .tick :: rest → s.blk.timerArmed = false →
    step s = .next { s with input := rest })

/-- What reset leaves: no frame is live, no slot owns a buffer or has a trace, no line is driven, the pool is unused, the registry
has no slots, the timer is disarmed, the port is idle (R370). -/
def Obligations.ResetState : Prop :=
  (∀ h, (State.reset.slot h).live = false ∧ (State.reset.slot h).buf = [] ∧ (State.reset.slot h).trace = []
    ∧ (State.reset.slot h).oe = .undriven ∧ (State.reset.slot h).latch = .undriven
    ∧ (State.reset.slot h).rs0 = .undriven ∧ (State.reset.slot h).rs1 = .undriven) ∧
  State.reset.blk.poolUsed = 0 ∧ State.reset.blk.registry = [] ∧ State.reset.blk.timerArmed = false ∧
  State.reset.port = .idle

/-- The state after reset is safe (R53). -/
def Obligations.ResetInv : Prop := State.reset.Inv

/-- Every step keeps the invariants: from any safe state, not only from one that a run reaches, a step gives a safe state
(R53, R306). -/
def Obligations.StepKeepsInv : Prop :=
  ∀ s t : State, s.Inv → step s = .next t → t.Inv

/-! ## Status codes -/

/-- Every command produces exactly one response, in command order, with `VALUE` 0 unless it is OK; and a command that fails
records nothing but its response (R51, R114, R332). -/
def Obligations.OneResponsePerCommand : Prop :=
  ∀ (cmd : List Word) (s : State), ∃ t status value, runCommand cmd s = .next t ∧ s.Answers t status value ∧
    (status ≠ .ok → value = 0 ∧ s.OnlyAnswers t status)

/-- A command that names a handle that is 0, above `MAX_FRAMES` or not live, or a plain frame where it needs a display, answers
BAD_HANDLE (R34, R38, R331). -/
def Obligations.BadHandle : Prop :=
  ∀ (i : Instr) (s : State) (h : Handle), i.wellFormed = true → h ∈ i.handles →
    (h = 0 ∨ s.params.maxFrames < h.toNat ∨ (s.slot h).live = false
      ∨ (i.needsDisplay = true ∧ (s.slot h).isDisplay = false)) →
    exec i s = .next (s.fail .badHandle)

/-- BAD_GEOMETRY: FRAME_NEW and SUB_FRAME with a side below 1, DISPLAY_NEW with a panel count out of 1 to 255, FRAME_ASSIGN and
SWAP_BUFFERS of frames of different sizes. BUSY: START and SCAN_STEP of a running display (R116, R287, R289, R331). -/
def Obligations.BadGeometryAndBusy : Prop :=
  (∀ (w h : Operand) (s : State), val w < 1 ∨ val h < 1 → exec (.fnew w h) s = .next (s.fail .badGeometry)) ∧
  (∀ (pw ph g : Operand) (s : State), g = 0 ∨ g = 1 → val pw < 1 ∨ 255 < val pw ∨ val ph < 1 ∨ 255 < val ph →
    exec (.dnew pw ph g) s = .next (s.fail .badGeometry)) ∧
  (∀ (fa : Handle) (left top w h : Operand) (s : State), s.isFrame fa = true → val w < 1 ∨ val h < 1 →
    exec (.subf fa left top w h) s = .next (s.fail .badGeometry)) ∧
  (∀ (fa fb : Handle) (s : State), s.isFrame fa = true → s.isFrame fb = true →
    (s.slot fa).width ≠ (s.slot fb).width ∨ (s.slot fa).height ≠ (s.slot fb).height →
    exec (.fassign fa fb) s = .next (s.fail .badGeometry) ∧ exec (.swap fa fb) s = .next (s.fail .badGeometry)) ∧
  (∀ (fa : Handle) (s : State), s.isDisplay fa = true → s.running fa = true →
    exec (.start fa) s = .next (s.fail .busy) ∧ exec (.scan fa) s = .next (s.fail .busy))

/-- A creating command whose other checks pass answers NO_MEMORY when no handle is free, the pool has no room or the environment
refuses, and then creates nothing (R95, R150). -/
def Obligations.NoMemory : Prop :=
  (∀ (w h : Operand) (s : State), 1 ≤ val w → 1 ≤ val h →
    s.CannotAlloc (bitmapSize (val w).toNat (val h).toNat) →
    ∃ t, exec (.fnew w h) s = .next t ∧ s.OnlyAnswers t .noMemory) ∧
  (∀ (fa : Handle) (s : State), s.isFrame fa = true →
    s.CannotAlloc (bitmapSize (s.slot fa).width (s.slot fa).height) →
    ∃ t, exec (.fcopy fa) s = .next t ∧ s.OnlyAnswers t .noMemory) ∧
  (∀ (pw ph g : Operand) (s : State), g = 0 ∨ g = 1 → 1 ≤ val pw → val pw ≤ 255 → 1 ≤ val ph → val ph ≤ 255 →
    s.CannotAlloc (64 * ((val pw).toNat * (val ph).toNat)) →
    ∃ t, exec (.dnew pw ph g) s = .next t ∧ s.OnlyAnswers t .noMemory) ∧
  (∀ (fa : Handle) (left top w h : Operand) (s : State), s.isFrame fa = true → 1 ≤ val w → 1 ≤ val h →
    s.CannotAlloc (bitmapSize (val w).toNat (val h).toNat) →
    ∃ t, exec (.subf fa left top w h) s = .next t ∧ s.OnlyAnswers t .noMemory)

/-! ## Rules about every command -/

/-- No command changes a live frame it does not name: not its fields, not a byte of its bitmap, not its lines (R35, R37). -/
def Obligations.UnnamedFramesUntouched : Prop :=
  ∀ (i : Instr) (s t : State) (h : Handle), exec i s = .next t → (s.slot h).live = true → h ∉ i.handles →
    t.slot h = s.slot h

/-- The geometry of a frame is fixed from its creation until FRAME_FREE, and so are `IS_DISPLAY` and `GUARD_EN` (R35, R41). That
FRAME_FREE leaves them in the freed slot is the model's choice (log 11). -/
def Obligations.GeometryFixed : Prop :=
  ∀ (i : Instr) (s t : State) (h : Handle), exec i s = .next t → (s.slot h).live = true →
    (t.slot h).width = (s.slot h).width ∧ (t.slot h).height = (s.slot h).height ∧
    (t.slot h).isDisplay = (s.slot h).isDisplay ∧ (t.slot h).guardEn = (s.slot h).guardEn ∧
    ((t.slot h).live = true ∨ i = .ffree h)

/-- Of the commands, only START and SCAN_STEP of a live display write its `SCAN_ROW`, its output registers or its trace, and only
SET_BRIGHTNESS its `BRIGHTNESS`: never a drawing operation (R39, R40, R42). That FRAME_FREE leaves `SCAN_ROW`,
`BRIGHTNESS` and the trace in the freed slot is the model's choice (log 11, log 14). -/
def Obligations.ScanStateWriters : Prop :=
  ∀ (i : Instr) (s t : State) (h : Handle), exec i s = .next t → (s.slot h).live = true →
    (i ≠ .start h → i ≠ .scan h → t.slot h = { t.slot h with
        scanRow := (s.slot h).scanRow, oe := (s.slot h).oe, latch := (s.slot h).latch, rs0 := (s.slot h).rs0,
        rs1 := (s.slot h).rs1, trace := (s.slot h).trace }) ∧
    ((∀ level, i ≠ .bright h level) → (t.slot h).brightness = (s.slot h).brightness)

/-- `TIMER_ARMED` is set by START alone and cleared by STOP and FRAME_FREE alone; the registry is written by these three alone,
and its length never shrinks (R44, R46, R306). -/
def Obligations.SchedulerWriters : Prop :=
  ∀ (i : Instr) (s t : State), exec i s = .next t →
    s.blk.registry.length ≤ t.blk.registry.length ∧
    (s.blk.timerArmed = false → t.blk.timerArmed = true → ∃ d, i = .start d) ∧
    (s.blk.timerArmed = true → t.blk.timerArmed = false → ∃ d, i = .stop d ∨ i = .ffree d) ∧
    (t.blk.registry ≠ s.blk.registry → ∃ d, i = .start d ∨ i = .stop d ∨ i = .ffree d)

/-! ## The bitmap -/

/-- The transform and its inverse: the inverse gives back every pixel of the panel grid, so the transform is injective over the
pixels in range, and every bit of the bitmap is the bit of one pixel of the grid (R75). -/
def Obligations.TransformBijection : Prop :=
  ∀ width height : Nat,
    (∀ x y, x < width → y < height →
      pixelX width height (pixelOffset width height x y) (pixelBit width x y) = x ∧
      pixelY width height (pixelOffset width height x y) (pixelBit width x y) = y) ∧
    (∀ x y x' y', x < width → y < height → x' < width → y' < height →
      pixelOffset width height x y = pixelOffset width height x' y' → pixelMask width x y = pixelMask width x' y' →
      x = x' ∧ y = y') ∧
    (∀ x y, x < 32 * panelsAcross width → y < 16 * panelsDown height →
      pixelOffset width height x y < bitmapSize width height ∧
      pixelX width height (pixelOffset width height x y) (pixelBit width x y) = x ∧
      pixelY width height (pixelOffset width height x y) (pixelBit width x y) = y) ∧
    (∀ o k, o < bitmapSize width height → k < 8 →
      pixelX width height o k < 32 * panelsAcross width ∧ pixelY width height o k < 16 * panelsDown height ∧
      pixelOffset width height (pixelX width height o k) (pixelY width height o k) = o ∧
      pixelBit width (pixelX width height o k) (pixelY width height o k) = k)

/-- The unified order: panel `k = px + PW * py` of unified row `r` takes the four bytes from `r * RB + 4 * k`, its column `c` in
byte `c / 8` of them at mask `1 << (7 - c mod 8)`, all inside the `RB` bytes of the row (R77). -/
def Obligations.UnifiedLayout : Prop :=
  ∀ (width height px py c r : Nat), px < panelsAcross width → c < 32 → r < 16 →
    pixelOffset width height (32 * px + c) (16 * py + r)
      = r * rowBytes width height + (4 * (px + panelsAcross width * py) + c / 8) ∧
    pixelMask width (32 * px + c) (16 * py + r) = (1 : Byte) <<< (7 - c % 8) ∧
    (py < panelsDown height → 4 * (px + panelsAcross width * py) + c / 8 < rowBytes width height)

/-- The commands that work pixel by pixel, the scrolls by less than a full width or height among them, never write a padding bit:
a bit that is no in-range pixel's own keeps its value (R76, R235, R236). -/
def Obligations.PaddingBitsKept : Prop :=
  ∀ (i : Instr) (s t : State) (fa : Handle) (o k : Nat), s.Inv →
    ((∃ m x y, i = .setpix m fa x y) ∨ (∃ m a b c d, i = .line m fa a b c d) ∨ (∃ m a b c, i = .circle m fa a b c) ∨
     (∃ m a b c d, i = .box m fa a b c d) ∨ (∃ m a b c d, i = .fbox m fa a b c d) ∨
     (∃ a b c d e f, i = .move fa a b c d e f) ∨ (∃ fb a b, i = .copyin fa fb a b) ∨
     (∃ d, i = .marqx fa d) ∨ (∃ d, i = .marqy fa d) ∨
     (∃ d, i = .scrx fa d ∧ |val d| < ((s.slot fa).width : Int)) ∨
     (∃ d, i = .scry fa d ∧ |val d| < ((s.slot fa).height : Int))) →
    exec i s = .next t → k < 8 →
    (∀ x y, s.inRange fa x y = true → ¬(o = s.offsetOf fa x y ∧ k = x.toNat % 8)) →
    (t.byte fa o).getLsbD (7 - k) = (s.byte fa o).getLsbD (7 - k)

/-! ## Pixel commands -/

/-- SET_PIXEL applies its mode to its one pixel if it is in range; nothing else changes but the OK response (R180, R181, R182). -/
def Obligations.SetPixelDraws : Prop :=
  ∀ (s : State) (mode : Mode) (fa : Handle) (x y : Operand), s.Inv → s.isFrame fa = true →
    ∃ t, exec (.setpix mode fa x y) s = .next t ∧ s.Draws t fa mode [(val x, val y)]

/-- GET_PIXEL answers 1 when the pixel is in range and its stored bit is 0, else 0; the state changes in nothing but the response
(R73, R183). -/
def Obligations.GetPixelAnswers : Prop :=
  ∀ (s : State) (fa : Handle) (x y : Operand), s.isFrame fa = true →
    exec (.getpix fa x y) s = .next (s.reply [] .ok
      (if s.inRange fa (val x) (val y) = true
          ∧ s.byte fa (s.offsetOf fa (val x) (val y)) &&& ((1 : Byte) <<< (7 - (val x).toNat % 8)) = 0
        then 1 else 0))

/-- FILL writes every byte of the bitmap, `0x00` for `on = 1` and `0xFF` for `on = 0`, so every pixel is lit or dark (R184). -/
def Obligations.FillWritesEveryByte : Prop :=
  ∀ (s : State) (fa : Handle) (on : Operand), s.isFrame fa = true → on = 0 ∨ on = 1 → ∃ t,
    exec (.fill fa on) s = .next t ∧
    s.OnlyBitmap t fa ∧ s.Answers t .ok 0 ∧
    (∀ k o, (k, o) ∈ t.ws ↔ k = fa ∧ s.allBytes fa o) ∧
    (∀ o, s.allBytes fa o → t.byte fa o = if on = 1 then 0x00 else 0xFF) ∧
    (∀ x y, s.inRange fa x y = true → t.pixel fa x y = decide (on = 1))

/-- The source's pixel properties: SET_PIXEL then GET_PIXEL, out of range, FILL then GET_PIXEL, and no other pixel changed
(R185). -/
def Obligations.PixelLaws : Prop :=
  ∀ (s : State) (fa : Handle) (x y : Operand), s.Inv → s.isFrame fa = true →
    (s.inRange fa (val x) (val y) = true →
      (∀ t, exec (.setpix .on fa x y) s = .next t → exec (.getpix fa x y) t = .next (t.reply [] .ok 1)) ∧
      (∀ t, exec (.setpix .off fa x y) s = .next t → exec (.getpix fa x y) t = .next (t.reply [] .ok 0)) ∧
      (∀ t, exec (.fill fa 1) s = .next t → exec (.getpix fa x y) t = .next (t.reply [] .ok 1)) ∧
      (∀ t, exec (.fill fa 0) s = .next t → exec (.getpix fa x y) t = .next (t.reply [] .ok 0))) ∧
    (s.inRange fa (val x) (val y) = false →
      (∀ mode, exec (.setpix mode fa x y) s = .next (s.reply [] .ok 0)) ∧
      exec (.getpix fa x y) s = .next (s.reply [] .ok 0)) ∧
    (∀ mode t x' y', exec (.setpix mode fa x y) s = .next t → ¬(x' = val x ∧ y' = val y) →
      t.pixel fa x' y' = s.pixel fa x' y')

/-- INVERSE and NOOP are legal encodings, and every drawing command with one of them changes nothing and still answers OK (R122). -/
def Obligations.InverseAndNoopDrawNothing : Prop :=
  ∀ (s : State) (mode : Mode) (fa : Handle) (a b c d : Operand) (i : Instr), s.isFrame fa = true →
    mode = .inverse ∨ mode = .noop →
    i = .setpix mode fa a b ∨ i = .line mode fa a b c d ∨ i = .circle mode fa a b c ∨ i = .box mode fa a b c d
      ∨ i = .fbox mode fa a b c d →
    decode (encode i) = .ok i ∧ exec i s = .next (s.reply [] .ok 0)

/-! ## Drawing commands -/

/-- DRAW_LINE, DRAW_CIRCLE and DRAW_BOX apply their mode to each point of their shape, clipped point by point; nothing else
changes but the OK response (R201, R204, R211). -/
def Obligations.LineCircleBoxDraw : Prop :=
  ∀ (s : State) (mode : Mode) (fa : Handle), s.Inv → s.isFrame fa = true →
    (∀ x1 y1 x2 y2 : Operand, ∃ t, exec (.line mode fa x1 y1 x2 y2) s = .next t ∧
      s.Draws t fa mode (linePoints (val x1) (val y1) (val x2) (val y2))) ∧
    (∀ xc yc r : Operand, ∃ t, exec (.circle mode fa xc yc r) s = .next t ∧
      s.Draws t fa mode (circlePoints (val xc) (val yc) (val r))) ∧
    (∀ x1 y1 x2 y2 : Operand, ∃ t, exec (.box mode fa x1 y1 x2 y2) s = .next t ∧
      s.Draws t fa mode (boxPoints (val x1) (val y1) (val x2) (val y2)))

/-- The points of a line: `max(|x2 - x1|, |y2 - y1|) + 1` of them, first and last the end points, no point twice, each one step
of the major axis and at most one of the minor axis from the one before; straight lines visit their straight run (R202). -/
def Obligations.LineShape : Prop :=
  ∀ x1 y1 x2 y2 : Int,
    (linePoints x1 y1 x2 y2).length = (max |x2 - x1| |y2 - y1|).toNat + 1 ∧
    (linePoints x1 y1 x2 y2).head? = some (x1, y1) ∧
    (linePoints x1 y1 x2 y2).getLast? = some (x2, y2) ∧
    (linePoints x1 y1 x2 y2).Nodup ∧
    List.IsChain (fun p q : Point =>
      (|y2 - y1| < |x2 - x1| → |q.1 - p.1| = 1 ∧ |q.2 - p.2| ≤ 1) ∧
      (|x2 - x1| ≤ |y2 - y1| → |q.2 - p.2| = 1 ∧ |q.1 - p.1| ≤ 1)) (linePoints x1 y1 x2 y2) ∧
    (y1 = y2 → ∀ p, p ∈ linePoints x1 y1 x2 y2 ↔ p.2 = y1 ∧ min x1 x2 ≤ p.1 ∧ p.1 ≤ max x1 x2) ∧
    (x1 = x2 → ∀ p, p ∈ linePoints x1 y1 x2 y2 ↔ p.1 = x1 ∧ min y1 y2 ≤ p.2 ∧ p.2 ≤ max y1 y2)

/-- A line's points are those of R200's doubled-difference rule: after `k` steps of the major axis the line has made as many steps
of the minor axis as keep it nearest the true line, a tie going to the next pixel. In an x-major line with `n = |x2 - x1|` and
`m = |y2 - y1|` that is `(2 * k * m + n) / (2 * n)`; in the other, with the axes exchanged, the same (R200). -/
def Obligations.LineRounding : Prop :=
  ∀ (x1 y1 x2 y2 : Int) (k : Nat),
    (|y2 - y1| < |x2 - x1| → (k : Int) ≤ |x2 - x1| →
      (linePoints x1 y1 x2 y2)[k]? = some (x1 + stepOf (x2 - x1) * k,
        y1 + stepOf (y2 - y1) * ((2 * k * |y2 - y1| + |x2 - x1|) / (2 * |x2 - x1|)))) ∧
    (|x2 - x1| ≤ |y2 - y1| → 0 < |y2 - y1| → (k : Int) ≤ |y2 - y1| →
      (linePoints x1 y1 x2 y2)[k]? = some (x1 + stepOf (x2 - x1) * ((2 * k * |x2 - x1| + |y2 - y1|) / (2 * |y2 - y1|)),
        y1 + stepOf (y2 - y1) * k))

/-- How often a box visits each point: in a box with two different columns and two different rows, twice at its corners and once
elsewhere on its outline, so XOR leaves the corners as they were; in a box that is one line, three times at its ends and twice
between; in a box that is one pixel, four times (R203, R204). -/
def Obligations.BoxVisits : Prop :=
  ∀ (x1 y1 x2 y2 x y : Int),
    (x1 ≠ x2 → y1 ≠ y2 → (boxPoints x1 y1 x2 y2).count (x, y) =
      if (x = x1 ∨ x = x2) ∧ (y = y1 ∨ y = y2) then 2
      else if ((x = x1 ∨ x = x2) ∧ min y1 y2 ≤ y ∧ y ≤ max y1 y2) ∨ ((y = y1 ∨ y = y2) ∧ min x1 x2 ≤ x ∧ x ≤ max x1 x2)
      then 1 else 0) ∧
    (x1 = x2 → y1 ≠ y2 → (boxPoints x1 y1 x2 y2).count (x, y) =
      if x = x1 ∧ (y = y1 ∨ y = y2) then 3 else if x = x1 ∧ min y1 y2 ≤ y ∧ y ≤ max y1 y2 then 2 else 0) ∧
    (x1 ≠ x2 → y1 = y2 → (boxPoints x1 y1 x2 y2).count (x, y) =
      if y = y1 ∧ (x = x1 ∨ x = x2) then 3 else if y = y1 ∧ min x1 x2 ≤ x ∧ x ≤ max x1 x2 then 2 else 0) ∧
    (x1 = x2 → y1 = y2 → (boxPoints x1 y1 x2 y2).count (x, y) = if x = x1 ∧ y = y1 then 4 else 0)

/-- A filled box visits every pixel of its rectangle exactly once, column by column from the left, each column from `y1` towards
`y2` (R207). -/
def Obligations.FilledBoxVisits : Prop :=
  ∀ x1 y1 x2 y2 : Int,
    (∀ x y, (filledBoxPoints x1 y1 x2 y2).count (x, y) =
      if min x1 x2 ≤ x ∧ x ≤ max x1 x2 ∧ min y1 y2 ≤ y ∧ y ≤ max y1 y2 then 1 else 0) ∧
    filledBoxPoints x1 y1 x2 y2 =
      (List.range (|x2 - x1|.toNat + 1)).flatMap fun (i : Nat) =>
        (List.range (|y2 - y1|.toNat + 1)).map fun (j : Nat) =>
          (min x1 x2 + (i : Int), y1 + (if y1 ≤ y2 then (j : Int) else -(j : Int)))

/-- DRAW_FILLED_BOX applies its mode once to every in-range pixel of its rectangle, and changes nothing else but the OK response;
it writes the bytes of those pixels if the mode writes (R205, R206). -/
def Obligations.FilledBoxDraws : Prop :=
  ∀ (s : State) (mode : Mode) (fa : Handle) (x1 y1 x2 y2 : Operand), s.Inv → s.isFrame fa = true →
    ∃ t, exec (.fbox mode fa x1 y1 x2 y2) s = .next t ∧
      s.Redraws t fa
        (fun x y =>
          if min (val x1) (val x2) ≤ x ∧ x ≤ max (val x1) (val x2) ∧ min (val y1) (val y2) ≤ y ∧ y ≤ max (val y1) (val y2)
          then modeResult mode (s.pixel fa x y) else s.pixel fa x y)
        (fun o => modeWrites mode = true ∧ s.bytesOf fa (fun x y =>
          min (val x1) (val x2) ≤ x ∧ x ≤ max (val x1) (val x2) ∧ min (val y1) (val y2) ≤ y ∧ y ≤ max (val y1) (val y2)) o)

/-- A circle: nothing for a radius of 0 or less; no point twice; the same set under the eight reflections about its centre; the
four points on the axes. Which points: with `M` the larger and `m` the smaller of `|dx|` and `|dy|`, the point at `(dx, dy)` from
the centre is visited when `M * M - M + m * m < r * r` and `r * r ≤ M * M + M + m * m`, a point on a diagonal (`M = m`) only if
the first holds with 1 more on its left. In which order: four points for each point of the quarter `dx > 0`, `dy ≥ 0`, taken
from `(r, 0)` on with `dx` falling and `dy` rising (R210, R211, R212). -/
def Obligations.CircleShape : Prop :=
  ∀ xc yc r : Int,
    (r ≤ 0 → circlePoints xc yc r = []) ∧
    (circlePoints xc yc r).Nodup ∧
    (∀ dx dy : Int, (xc + dx, yc + dy) ∈ circlePoints xc yc r →
      ∀ ex ey : Int, (|ex| = |dx| ∧ |ey| = |dy|) ∨ (|ex| = |dy| ∧ |ey| = |dx|) →
        (xc + ex, yc + ey) ∈ circlePoints xc yc r) ∧
    (0 < r → (xc + r, yc) ∈ circlePoints xc yc r ∧ (xc - r, yc) ∈ circlePoints xc yc r ∧
      (xc, yc + r) ∈ circlePoints xc yc r ∧ (xc, yc - r) ∈ circlePoints xc yc r) ∧
    (0 < r → ∀ dx dy : Int, (xc + dx, yc + dy) ∈ circlePoints xc yc r ↔
      max |dx| |dy| * max |dx| |dy| - max |dx| |dy| + min |dx| |dy| * min |dx| |dy| + (if |dx| = |dy| then 1 else 0) < r * r ∧
      r * r ≤ max |dx| |dy| * max |dx| |dy| + max |dx| |dy| + min |dx| |dy| * min |dx| |dy|) ∧
    (0 < r → ∃ quarter : List Point,
      circlePoints xc yc r = quarter.flatMap (fun p =>
        [(xc + p.1, yc + p.2), (xc - p.2, yc + p.1), (xc - p.1, yc - p.2), (xc + p.2, yc - p.1)]) ∧
      quarter.head? = some (r, 0) ∧ (∀ p ∈ quarter, 0 < p.1 ∧ 0 ≤ p.2) ∧
      List.IsChain (fun p q : Point => q.1 ≤ p.1 ∧ p.2 ≤ q.2) quarter)

/-! ## Region commands -/

/-- MOVE_REGION: the rectangle's old picture at the destination, the rest of the source rectangle dark, every other pixel as it
was; an empty rectangle changes nothing (R234). -/
def Obligations.MoveRegion : Prop :=
  ∀ (s : State) (fa : Handle) (fromX fromY toX toY w h : Operand), s.Inv → s.isFrame fa = true →
    (1 ≤ val w → 1 ≤ val h → ∃ t, exec (.move fa fromX fromY toX toY w h) s = .next t ∧
      s.Redraws t fa
        (fun x y =>
          if val toX ≤ x ∧ x < val toX + val w ∧ val toY ≤ y ∧ y < val toY + val h
          then s.pixel fa (val fromX + (x - val toX)) (val fromY + (y - val toY))
          else if val fromX ≤ x ∧ x < val fromX + val w ∧ val fromY ≤ y ∧ y < val fromY + val h then false
          else s.pixel fa x y)
        (s.bytesOf fa fun x y => inRect (val toX) (val toY) (val w) (val h) x y
          ∨ inRect (val fromX) (val fromY) (val w) (val h) x y)) ∧
    (val w < 1 ∨ val h < 1 → exec (.move fa fromX fromY toX toY w h) s = .next (s.reply [] .ok 0))

/-- SUB_FRAME creates a plain frame of `w` by `h` whose pixel `(x, y)` is the source's `(left + x, top + y)`, dark where that is
out of the source's range, with every other bit 1; it writes the bytes of the new frame's pixels (R232). -/
def Obligations.SubFrame : Prop :=
  ∀ (s : State) (fa h : Handle) (left top w ht : Operand), s.Inv → s.isFrame fa = true → 1 ≤ val w → 1 ≤ val ht →
    s.CanAlloc (bitmapSize (val w).toNat (val ht).toNat) h →
    ∃ t, exec (.subf fa left top w ht) s = .next t ∧ s.Creates t h ∧
      (t.slot h).width = (val w).toNat ∧ (t.slot h).height = (val ht).toNat ∧ (t.slot h).isDisplay = false ∧
      (∀ x y, t.inRange h x y = true → t.pixel h x y = s.pixel fa (val left + x) (val top + y)) ∧
      (∀ o k, k < 8 → (∀ x y, t.inRange h x y = true → ¬(o = t.offsetOf h x y ∧ k = x.toNat % 8)) →
        (t.byte h o).getLsbD (7 - k) = true) ∧
      (∀ k o, (k, o) ∈ t.ws ↔ k = h ∧ t.bytesOf h (fun _ _ => True) o)

/-- COPY_INTO: every pixel of the source that lands in the receiver's range overwrites it, lit or dark; every other pixel is as it
was (R233). -/
def Obligations.CopyInto : Prop :=
  ∀ (s : State) (fa fb : Handle) (left top : Operand), s.Inv → s.isFrame fa = true → s.isFrame fb = true →
    ∃ t, exec (.copyin fa fb left top) s = .next t ∧
      s.Redraws t fa
        (fun x y => if s.inRange fb (x - val left) (y - val top) = true then s.pixel fb (x - val left) (y - val top)
          else s.pixel fa x y)
        (s.bytesOf fa fun x y => s.inRange fb (x - val left) (y - val top) = true)

/-- SCROLL_X and SCROLL_Y: the picture moved by `delta`, vacated pixels dark; from a full width or height on, every byte is
`0xFF` (R235, R236). -/
def Obligations.Scroll : Prop :=
  ∀ (s : State) (fa : Handle) (delta : Operand), s.Inv → s.isFrame fa = true →
    (∃ t, exec (.scrx fa delta) s = .next t ∧
      s.Redraws t fa (fun x y => s.pixel fa (x - val delta) y)
        (fun o => if ((s.slot fa).width : Int) ≤ |val delta| then s.allBytes fa o
          else s.bytesOf fa (fun _ _ => True) o) ∧
      (((s.slot fa).width : Int) ≤ |val delta| → ∀ o, s.allBytes fa o → t.byte fa o = 0xFF)) ∧
    (∃ t, exec (.scry fa delta) s = .next t ∧
      s.Redraws t fa (fun x y => s.pixel fa x (y - val delta))
        (fun o => if ((s.slot fa).height : Int) ≤ |val delta| then s.allBytes fa o
          else s.bytesOf fa (fun _ _ => True) o) ∧
      (((s.slot fa).height : Int) ≤ |val delta| → ∀ o, s.allBytes fa o → t.byte fa o = 0xFF))

/-- MARQUEE_X and MARQUEE_Y: the picture moved by `delta` modulo the width or the height (R237, R238). -/
def Obligations.Marquee : Prop :=
  ∀ (s : State) (fa : Handle) (delta : Operand), s.Inv → s.isFrame fa = true →
    (∃ t, exec (.marqx fa delta) s = .next t ∧
      s.Redraws t fa (fun x y => s.pixel fa ((x - val delta) % ((s.slot fa).width : Int)) y)
        (s.bytesOf fa fun _ _ => True)) ∧
    (∃ t, exec (.marqy fa delta) s = .next t ∧
      s.Redraws t fa (fun x y => s.pixel fa x ((y - val delta) % ((s.slot fa).height : Int)))
        (s.bytesOf fa fun _ _ => True))

/-- SWAP_BUFFERS exchanges the two frames' bitmaps and nothing else; its write set is empty (R86, R239). -/
def Obligations.SwapBuffers : Prop :=
  ∀ (s : State) (fa fb : Handle), s.isFrame fa = true → s.isFrame fb = true →
    (s.slot fa).width = (s.slot fb).width → (s.slot fa).height = (s.slot fb).height →
    ∃ t, exec (.swap fa fb) s = .next t ∧
      s.SameOutside t ∧ t.env = s.env ∧ s.SameScheduler t ∧ s.Answers t .ok 0 ∧ t.ws = [] ∧
      t.slot fa = { s.slot fa with buf := (s.slot fb).buf } ∧ t.slot fb = { s.slot fb with buf := (s.slot fa).buf } ∧
      (∀ k, k ≠ fa → k ≠ fb → t.slot k = s.slot k) ∧ t.blk.poolUsed = s.blk.poolUsed

/-- Round trip: SUB_FRAME and then COPY_INTO of the new frame at the same place leaves every pixel of the frame as it was
(R240 a). -/
def Obligations.SubFrameCopyIntoRoundTrip : Prop :=
  ∀ (s t u : State) (fa h : Handle) (left top w ht : Operand), s.Inv → s.isFrame fa = true →
    exec (.subf fa left top w ht) s = .next t → s.Answers t .ok (handleValue h) →
    exec (.copyin fa h left top) t = .next u →
    t.Answers u .ok 0 ∧ ∀ x y, u.pixel fa x y = s.pixel fa x y

/-- Marquees add up: by `d1` and then by `d2` gives every pixel what one by `d1 + d2` gives it (R240 c). -/
def Obligations.MarqueesAdd : Prop :=
  ∀ (s : State) (fa : Handle) (d1 d2 d : Operand), s.Inv → s.isFrame fa = true → val d = val d1 + val d2 →
    (∀ t u v, exec (.marqx fa d1) s = .next t → exec (.marqx fa d2) t = .next u → exec (.marqx fa d) s = .next v →
      ∀ x y, u.pixel fa x y = v.pixel fa x y) ∧
    (∀ t u v, exec (.marqy fa d1) s = .next t → exec (.marqy fa d2) t = .next u → exec (.marqy fa d) s = .next v →
      ∀ x y, u.pixel fa x y = v.pixel fa x y)

/-- A scroll and its reverse restore the columns that stayed in the frame and darken the rest (R240 d). -/
def Obligations.ScrollThereAndBack : Prop :=
  ∀ (s t u : State) (fa : Handle) (d d' : Operand), s.Inv → s.isFrame fa = true → |val d| < ((s.slot fa).width : Int) →
    val d' = -val d → exec (.scrx fa d) s = .next t → exec (.scrx fa d') t = .next u →
    ∀ x y, s.inRange fa x y = true → u.pixel fa x y =
      if max 0 (-val d) ≤ x ∧ x ≤ (s.slot fa).width - 1 - max 0 (val d) then s.pixel fa x y else false

/-! ## Frame and display lifecycle -/

/-- FRAME_NEW creates a plain frame of `W` by `H`, every byte `0xFF` (R150, R151). -/
def Obligations.FrameNew : Prop :=
  ∀ (s : State) (w ht : Operand) (h : Handle), 1 ≤ val w → 1 ≤ val ht →
    s.CanAlloc (bitmapSize (val w).toNat (val ht).toNat) h →
    ∃ t, exec (.fnew w ht) s = .next t ∧ s.Creates t h ∧ t.ws = [] ∧
      (t.slot h).width = (val w).toNat ∧ (t.slot h).height = (val ht).toNat ∧ (t.slot h).isDisplay = false ∧
      (∀ o, t.byte h o = 0xFF) ∧ t.blk.poolUsed = s.blk.poolUsed + bitmapSize (val w).toNat (val ht).toNat

/-- FRAME_COPY creates a plain frame with the source's geometry and bytes (R150, R152). -/
def Obligations.FrameCopy : Prop :=
  ∀ (s : State) (fa h : Handle), s.isFrame fa = true →
    s.CanAlloc (bitmapSize (s.slot fa).width (s.slot fa).height) h →
    ∃ t, exec (.fcopy fa) s = .next t ∧ s.Creates t h ∧ t.ws = [] ∧
      (t.slot h).width = (s.slot fa).width ∧ (t.slot h).height = (s.slot fa).height ∧ (t.slot h).isDisplay = false ∧
      (∀ o, t.byte h o = s.byte fa o)

/-- FRAME_ASSIGN: every byte of the receiver is written with the other frame's; nothing else changes (R153). -/
def Obligations.FrameAssign : Prop :=
  ∀ (s : State) (fa fb : Handle), s.isFrame fa = true → s.isFrame fb = true →
    (s.slot fa).width = (s.slot fb).width → (s.slot fa).height = (s.slot fb).height →
    ∃ t, exec (.fassign fa fb) s = .next t ∧ s.OnlyBitmap t fa ∧ s.Answers t .ok 0 ∧
      (∀ k o, (k, o) ∈ t.ws ↔ k = fa ∧ s.allBytes fa o) ∧ (∀ o, t.byte fa o = s.byte fb o)

/-- FRAME_FREE: the slot is not live and owns no bitmap, its lines are as they were, the pool gets its bytes back; a running
display leaves the registry, and the timer is disarmed when no other runs (R96, R154, R306). That the other fields of the freed
slot and its trace are as they were is the model's choice (log 11, log 14): the spec leaves those fields any value, never read. -/
def Obligations.FrameFree : Prop :=
  ∀ (s : State) (fa : Handle), s.Inv → s.isFrame fa = true →
    ∃ t, exec (.ffree fa) s = .next t ∧
      s.SameOutside t ∧ t.env = s.env ∧ s.SameSlotsBut t fa ∧ s.Answers t .ok 0 ∧ t.ws = [] ∧
      t.slot fa = { s.slot fa with live := false, buf := [] } ∧
      t.blk.poolUsed + bitmapSize (s.slot fa).width (s.slot fa).height = s.blk.poolUsed ∧
      t.blk.registry = s.registryWithout fa ∧
      t.blk.timerArmed =
        (if s.running fa = true then s.blk.timerArmed && anyOccupied (s.registryWithout fa) else s.blk.timerArmed)

/-- DISPLAY_NEW creates a display of whole panels, every byte `0xFF`, `SCAN_ROW` 0, brightness 255, the guard enable of its
operand, every line not driven, its trace empty; it does not run (R150, R155). -/
def Obligations.DisplayNew : Prop :=
  ∀ (s : State) (pw ph g : Operand) (h : Handle), s.Inv → 1 ≤ val pw → val pw ≤ 255 → 1 ≤ val ph → val ph ≤ 255 →
    g = 0 ∨ g = 1 → s.CanAlloc (64 * ((val pw).toNat * (val ph).toNat)) h →
    ∃ t, exec (.dnew pw ph g) s = .next t ∧ s.Creates t h ∧ t.ws = [] ∧ t.running h = false ∧
      (t.slot h).width = 32 * (val pw).toNat ∧ (t.slot h).height = 16 * (val ph).toNat ∧ (t.slot h).isDisplay = true ∧
      (∀ o, t.byte h o = 0xFF) ∧ (t.slot h).scanRow = 0 ∧ (t.slot h).brightness = 255 ∧
      (t.slot h).guardEn = decide (g = 1) ∧ (t.slot h).oe = .undriven ∧ (t.slot h).latch = .undriven ∧
      (t.slot h).rs0 = .undriven ∧ (t.slot h).rs1 = .undriven ∧ (t.slot h).trace = []

/-! ## Display commands, the scan step, the tick -/

/-- SET_BRIGHTNESS writes `BRIGHTNESS` and nothing else: no event, no line (R285). -/
def Obligations.SetBrightness : Prop :=
  ∀ (s : State) (fa : Handle) (level : Operand), s.isDisplay fa = true → 0 ≤ val level → val level ≤ 255 →
    ∃ t, exec (.bright fa level) s = .next t ∧
      s.SameOutside t ∧ t.env = s.env ∧ s.SameScheduler t ∧ s.SameSlotsBut t fa ∧ s.Answers t .ok 0 ∧ t.ws = [] ∧
      t.slot fa = { s.slot fa with brightness := (t.slot fa).brightness } ∧
      ((t.slot fa).brightness.toNat : Int) = val level

/-- SCAN_STEP of a display that does not run: one scan step of its bitmap; when the guard is asserted, nothing but the response
(R271, R275, R289). -/
def Obligations.ScanStepCommand : Prop :=
  ∀ (s : State) (fa : Handle), s.isDisplay fa = true → s.running fa = false →
    ∃ t, exec (.scan fa) s = .next t ∧
      s.SameOutside t ∧ s.SameScheduler t ∧ s.SameSlotsBut t fa ∧ s.Answers t .ok 0 ∧ t.ws = [] ∧
      t.env.alloc = s.env.alloc ∧ t.env.grow = s.env.grow ∧ t.env.tornTicks = s.env.tornTicks ∧
      (s.StepRuns fa → t.slot fa = (s.slot fa).afterStep (s.byte fa)) ∧
      (¬s.StepRuns fa → t.slot fa = s.slot fa)

/-- START of a display that does not run: the lines set up, every byte written with `0xFF`, one scan step of the blank bitmap
unless the guard is asserted, a registration, the timer armed, OK (R286, R287, R300). -/
def Obligations.StartDisplay : Prop :=
  ∀ (s : State) (fa : Handle), s.isDisplay fa = true → s.running fa = false →
    ∃ t blank, exec (.start fa) s = .next t ∧
      s.SameOutside t ∧ s.SameSlotsBut t fa ∧ s.Answers t .ok 0 ∧ t.env.alloc = s.env.alloc ∧
      (∀ k o, (k, o) ∈ t.ws ↔ k = fa ∧ s.allBytes fa o) ∧
      blank = { s.slot fa with
        buf := (t.slot fa).buf, oe := .driven .off, latch := .driven false, rs0 := .driven false, rs1 := .driven false,
        trace := (s.slot fa).trace ++ [.oe .off, .latch false, .rs0 false, .rs1 false] } ∧
      (∀ o, t.byte fa o = 0xFF) ∧
      (s.StepRuns fa → t.slot fa = blank.afterStep (fun _ => 0xFF)) ∧
      (¬s.StepRuns fa → t.slot fa = blank) ∧
      s.Registers t fa ∧ t.blk.timerArmed = true

/-- STOP: the display's slot in the registry is emptied, the timer is disarmed when no other display runs, and the answer says
whether one does; no slot of the frame table changes and no event is emitted (R288, R301, R306). -/
def Obligations.StopDisplay : Prop :=
  ∀ (s : State) (fa : Handle), s.isDisplay fa = true →
    ∃ t, exec (.stop fa) s = .next t ∧
      s.SameOutside t ∧ t.env = s.env ∧ t.blk.frames = s.blk.frames ∧ t.ws = [] ∧
      t.blk.registry = s.registryWithout fa ∧
      ((∃ d, some d ∈ s.registryWithout fa) → t.blk.timerArmed = s.blk.timerArmed ∧ s.Answers t .ok 1) ∧
      ((∀ d, some d ∉ s.registryWithout fa) → t.blk.timerArmed = false ∧ s.Answers t .ok 0)

/-- Four SCAN_STEP commands of a display that does not run, none of them skipped: each advances `SCAN_ROW` by one, the fourth
back to where it was; together they send every byte of the bitmap exactly once, and leave the bitmap as it was (R281, R282). -/
def Obligations.FourStepsSendEveryByteOnce : Prop :=
  ∀ (s : State) (d : Handle), s.isDisplay d = true → s.running d = false →
    ((s.slot d).guardEn = true → ∀ m < 4, s.guardAt m = false) →
    ∃ t1 t2 t3 t4, exec (.scan d) s = .next t1 ∧ exec (.scan d) t1 = .next t2 ∧ exec (.scan d) t2 = .next t3 ∧
      exec (.scan d) t3 = .next t4 ∧
      (t1.slot d).scanRow = (s.slot d).scanRow + 1 ∧ (t2.slot d).scanRow = (s.slot d).scanRow + 2 ∧
      (t3.slot d).scanRow = (s.slot d).scanRow + 3 ∧ (t4.slot d).scanRow = (s.slot d).scanRow ∧
      (t4.slot d).buf = (s.slot d).buf ∧
      ∃ offsets : List Nat, offsets.Perm (List.range (bitmapSize (s.slot d).width (s.slot d).height)) ∧
        ∃ events, (t4.slot d).trace = (s.slot d).trace ++ events ∧
          events.filter OutEvent.isSend = offsets.map fun o => .send (s.byte d o)

/-- A tick between two commands, the timer armed: every running display makes one scan step of its bitmap as it is, unless it has
a guard line and its own sample is asserted; the displays take the samples in slot order. Every other frame, every bitmap, the
registry, the timer and every draw but the guard's are as they were (R87, R271, R305, R307 d). -/
def Obligations.TickStepsRunningDisplays : Prop :=
  ∀ (s : State) (rest : List Input), s.Inv → s.port = .idle → s.input = .tick :: rest → s.blk.timerArmed = true →
    ∃ t, step s = .next t ∧ t.params = s.params ∧ t.port = .idle ∧ t.input = rest ∧ t.ws = s.ws ∧
      s.SameScheduler t ∧ t.blk.responses = s.blk.responses ∧
      (∀ before d after, s.blk.registry = before ++ some d :: after →
        t.slot d = if (s.slot d).guardEn = true ∧ s.guardAt (s.guarded before) = true then s.slot d
          else (s.slot d).afterStep (s.byte d)) ∧
      (∀ k, s.running k = false → t.slot k = s.slot k) ∧
      t.env.guard.count = s.env.guard.count + s.guarded s.blk.registry ∧
      t.env.alloc = s.env.alloc ∧ t.env.grow = s.env.grow ∧ t.env.tornTicks = s.env.tornTicks

/-- A tick inside a command steps each running display, unless it has a guard line and its own sample is asserted; the displays
take the samples in slot order. A step reads the byte the bitmap had before the command, but for the command's write set, where it
reads a value that nothing constrains, drawn afresh for every such tick. The tick changes nothing else (R85, R87, R271, R305).
That the free value is numbered by a counter is the model's (log 5). -/
def Obligations.TornTick : Prop :=
  ∀ (s : State) (cmd : List Word) (s0 s1 : Block) (rest : List Input), s.Inv → s.port = .inFlight cmd s0 s1 →
    s.input = .tickInCommand :: rest → s.blk.timerArmed = true →
    ∃ t, step s = .next t ∧ t.params = s.params ∧ t.port = s.port ∧ t.input = rest ∧ t.ws = s.ws ∧ s.SameScheduler t ∧
      t.blk.responses = s.blk.responses ∧ t.env.tornTicks = s.env.tornTicks + 1 ∧
      t.env.guard.count = s.env.guard.count + s.guarded s.blk.registry ∧
      t.env.alloc = s.env.alloc ∧ t.env.grow = s.env.grow ∧
      (∀ k, s.running k = false → t.slot k = s.slot k) ∧
      (∀ before d after, s.blk.registry = before ++ some d :: after → ∃ view : Nat → Byte,
        (∀ o, (d, o) ∉ s.ws → view o = (s0.slot d).buf.read o) ∧
        (∀ o, (d, o) ∈ s.ws → view o = Config.tornByte s.env.tornTicks d o) ∧
        t.slot d = if (s.slot d).guardEn = true ∧ s.guardAt (s.guarded before) = true then s.slot d
          else (s.slot d).afterStep view)

/-- A command goes on at its `END` as if the ticks inside it had not happened, except for what those ticks wrote: with `n + 1`
ticks inside it, the command's `BEGIN`, the ticks and its `END` take `n + 3` steps and leave the registry, the timer, the
response and every frame as the command's rule gives them from the state before it, but for `SCAN_ROW`, the output registers and
the trace of the displays that ran (R85, R88, R337). -/
def Obligations.TicksInsideChangeNoResult : Prop :=
  ∀ (s u : State) (cmd : List Word) (n : Nat) (rest : List Input), s.port = .idle →
    takeCommand cmd = some (cmd, []) →
    s.input = cmd.map Input.word ++ (List.replicate (n + 1) Input.tickInCommand ++ rest) →
    tickComesInside rest = false →
    runCommand cmd { s with input := List.replicate (n + 1) Input.tickInCommand ++ rest } = .next u →
    ∃ t, s.run (n + 3) = some t ∧ t.port = .idle ∧ t.input = rest ∧ t.ws = u.ws ∧ t.params = u.params ∧
      t.blk.registry = u.blk.registry ∧ t.blk.timerArmed = u.blk.timerArmed ∧ t.blk.responses = u.blk.responses ∧
      (∀ h, s.running h = false → t.slot h = u.slot h) ∧
      (∀ h, s.running h = true → t.slot h = { u.slot h with
        scanRow := (t.slot h).scanRow, oe := (t.slot h).oe, latch := (t.slot h).latch, rs0 := (t.slot h).rs0,
        rs1 := (t.slot h).rs1, trace := (t.slot h).trace })

/-- A lower brightness gives a proportionally shorter output-enable window: ON is active the whole period, `PWM(n)` the fraction
`n / 255` of it, `PWM(0)` and OFF none of it (R284). That the active time is a view of State, counted in 255ths of the time unit
of the period (so that the whole of `period` is `255 * period` of them), is the model's (log 21). -/
def Obligations.DutyIsProportional : Prop :=
  ∀ period : Nat,
    OeLevel.on.activeTime period = 255 * period ∧
    (∀ n : BitVec 8, (OeLevel.pwm n).activeTime period * 255 = n.toNat * (255 * period)) ∧
    (∀ m n : BitVec 8, m.toNat < n.toNat → 0 < period →
      (OeLevel.pwm m).activeTime period < (OeLevel.pwm n).activeTime period) ∧
    (OeLevel.pwm 0).activeTime period = 0 ∧ OeLevel.off.activeTime period = 0
end

