-- ==== Sys2Proof/Laws/Memory.lean ====
section
/-!
SUPPORT. The laws of a bitmap buffer: a read after a write, and that every operation keeps the canonical form.
-/

namespace Sys2Proof.Machine

@[simp] theorem Memory.read_nil (o : Nat) : Memory.read [] o = Memory.unlisted := rfl

/-- The canonical form in one line: offsets strictly rising, and no byte that an unlisted offset reads as. -/
theorem Memory.wf_iff (m : Memory) :
    m.wf = true ↔ m.Pairwise (fun c d => c.1 < d.1) ∧ ∀ c ∈ m, c.2 ≠ Memory.unlisted := by
  match m with
  | [] => simp [Memory.wf]
  | [(a, b)] => simp [Memory.wf]
  | (a, b) :: (a', b') :: rest =>
    have ih := Memory.wf_iff ((a', b') :: rest)
    simp only [Memory.wf, Bool.and_eq_true, ih, bne_iff_ne, decide_eq_true_eq]
    constructor
    · rintro ⟨⟨hb, ha⟩, hp, hm⟩
      refine ⟨List.pairwise_cons.2 ⟨fun c hc => ?_, hp⟩, by simpa using ⟨hb, by simpa using hm⟩⟩
      rcases List.mem_cons.1 hc with rfl | hc
      · exact ha
      · exact lt_trans ha ((List.pairwise_cons.1 hp).1 c hc)
    · rintro ⟨hp, hm⟩
      obtain ⟨h1, h2⟩ := List.pairwise_cons.1 hp
      exact ⟨⟨hm (a, b) (by simp), h1 (a', b') (by simp)⟩, h2, fun c hc => hm c (List.mem_cons_of_mem _ hc)⟩

@[simp] theorem Memory.wf_nil : Memory.wf [] = true := rfl

/-- A canonical list, head and tail. -/
theorem Memory.wf_cons_iff (a : Nat) (b : Byte) (rest : Memory) :
    Memory.wf ((a, b) :: rest) = true ↔ (∀ c ∈ rest, a < c.1) ∧ b ≠ Memory.unlisted ∧ Memory.wf rest = true := by
  rw [Memory.wf_iff, Memory.wf_iff, List.pairwise_cons]
  simp only [List.mem_cons, forall_eq_or_imp]
  tauto

/-- An offset that is not listed reads as a new buffer's byte. -/
theorem Memory.read_of_not_listed (m : Memory) (o : Nat) (h : ∀ c ∈ m, c.1 ≠ o) : m.read o = Memory.unlisted := by
  induction m with
  | nil => rfl
  | cons c rest ih =>
    obtain ⟨a, b⟩ := c
    have : a ≠ o := h (a, b) (by simp)
    simp [Memory.read, this, ih fun c hc => h c (List.mem_cons_of_mem _ hc)]

/-- Where a write leaves its cells: an offset listed after a write was listed before, or is the one written. -/
theorem Memory.mem_write {m : Memory} {o : Nat} {v : Byte} {c : Host.Cell} (h : c ∈ m.write o v) : c ∈ m ∨ c = (o, v) := by
  induction m with
  | nil =>
    simp only [Memory.write] at h
    split at h <;> simp_all
  | cons d rest ih =>
    obtain ⟨a, b⟩ := d
    simp only [Memory.write] at h
    split at h
    · split at h
      · exact .inl h
      · rcases List.mem_cons.1 h with h | h
        · exact .inr h
        · exact .inl h
    · split at h
      · split at h
        · exact .inl (List.mem_cons_of_mem _ h)
        · rcases List.mem_cons.1 h with h | h
          · exact .inr h
          · exact .inl (List.mem_cons_of_mem _ h)
      · rcases List.mem_cons.1 h with rfl | h
        · simp
        · rcases ih h with h | h <;> simp [h]

/-- A write keeps the canonical form, and never lists the byte an unlisted offset reads as. -/
theorem Memory.wf_write {m : Memory} (hm : m.wf = true) (o : Nat) (v : Byte) : (m.write o v).wf = true := by
  induction m with
  | nil =>
    simp only [Memory.write]
    split
    · rfl
    · simpa [Memory.wf] using ‹_›
  | cons d rest ih =>
    obtain ⟨a, b⟩ := d
    obtain ⟨hlt, hb, hrest⟩ := (Memory.wf_cons_iff a b rest).1 hm
    simp only [Memory.write]
    split
    · split
      · exact hm
      · refine (Memory.wf_cons_iff _ _ _).2 ⟨fun c hc => ?_, ‹_›, hm⟩
        rcases List.mem_cons.1 hc with rfl | hc
        · assumption
        · exact lt_trans ‹_› (hlt c hc)
    · split
      · subst a
        split
        · exact hrest
        · exact (Memory.wf_cons_iff _ _ _).2 ⟨hlt, ‹_›, hrest⟩
      · refine (Memory.wf_cons_iff _ _ _).2 ⟨fun c hc => ?_, hb, ih hrest⟩
        rcases Memory.mem_write hc with hc | rfl
        · exact hlt c hc
        · simp only; omega

/-- A read after a write: the byte written at its offset, the old byte elsewhere. -/
theorem Memory.read_write {m : Memory} (hm : m.wf = true) (o p : Nat) (v : Byte) :
    (m.write o v).read p = if p = o then v else m.read p := by
  induction m with
  | nil =>
    simp only [Memory.write]
    split
    · subst v; simp
    · simp only [Memory.read]; split <;> split <;> simp_all
  | cons d rest ih =>
    obtain ⟨a, b⟩ := d
    obtain ⟨hlt, hb, hrest⟩ := (Memory.wf_cons_iff a b rest).1 hm
    simp only [Memory.write]
    split
    · split
      · subst v
        split
        · subst p
          refine Memory.read_of_not_listed _ _ fun c hc => ?_
          rcases List.mem_cons.1 hc with rfl | hc
          · simp only; omega
          · have := hlt c hc; omega
        · rfl
      · simp only [Memory.read]
        by_cases hp : p = o
        · simp [hp]
        · simp [hp, Ne.symm hp]
    · split
      · subst a
        split
        · subst v
          by_cases hp : p = o
          · subst hp
            simpa using Memory.read_of_not_listed _ _ fun c hc => (hlt c hc).ne'
          · simp [Memory.read, hp, Ne.symm hp]
        · by_cases hp : p = o
          · simp [Memory.read, hp]
          · simp [Memory.read, hp, Ne.symm hp]
      · simp only [Memory.read, ih hrest]
        by_cases hp : p = o
        · subst hp; simp [‹¬a = p›]
        · simp [hp]

/-- A write inside a bound keeps every listed offset inside it. -/
theorem Memory.below_write {m : Memory} {n : Nat} (hm : m.below n = true) {o : Nat} (ho : o < n) (v : Byte) :
    (m.write o v).below n = true := by
  simp only [Memory.below, List.all_eq_true, decide_eq_true_eq] at hm ⊢
  intro c hc
  rcases Memory.mem_write hc with hc | rfl
  · exact hm c hc
  · exact ho

@[simp] theorem Memory.below_nil (n : Nat) : Memory.below [] n = true := rfl

@[simp] theorem Memory.filled_unlisted (n : Nat) : Memory.filled n Memory.unlisted = [] := by simp [Memory.filled]

@[simp] theorem Memory.filled_ff (n : Nat) : Memory.filled n 0xFF = [] := Memory.filled_unlisted n

/-- A filled buffer is canonical. -/
theorem Memory.wf_filled (n : Nat) (v : Byte) : (Memory.filled n v).wf = true := by
  unfold Memory.filled
  split
  · rfl
  · rename_i hv
    rw [Memory.wf_iff]
    refine ⟨?_, by simp [hv]⟩
    rw [List.pairwise_map]
    exact (List.pairwise_lt_range).imp fun h => h

/-- A filled buffer lists nothing from its length on. -/
theorem Memory.below_filled (n : Nat) (v : Byte) : (Memory.filled n v).below n = true := by
  unfold Memory.filled
  split
  · rfl
  · simp [Memory.below]

/-- A filled buffer reads as its byte below its length. -/
theorem Memory.read_filled {n o : Nat} (ho : o < n) (v : Byte) : (Memory.filled n v).read o = v := by
  unfold Memory.filled
  split
  · subst v; rfl
  · have key : ∀ (l : List Nat), o ∈ l → Memory.read (l.map fun k => (k, v)) o = v := by
      intro l
      induction l with
      | nil => simp
      | cons k l ih =>
        intro h
        simp only [List.map_cons, Memory.read]
        split
        · rfl
        · exact ih ((List.mem_cons.1 h).resolve_left fun e => ‹¬k = o› e.symm)
    exact key _ (List.mem_range.2 ho)

end Sys2Proof.Machine
end

