-- ==== Sys2Proof/Laws/Transform.lean ====
section
/-!
SUPPORT. The arithmetic of the Panel-Tiling Index Transform (spec/20_memory.md R71 to R75) and of bit masks (R78).
-/

namespace Sys2Proof.Machine

theorem inRange_iff (width height : Nat) (x y : Int) :
    inRange width height x y = true ↔ 0 ≤ x ∧ x < width ∧ 0 ≤ y ∧ y < height := by
  simp only [inRange, Bool.and_eq_true, decide_eq_true_eq]; tauto

/-- `RB = 4 * NP` (R36). -/
theorem rowBytes_eq (width height : Nat) : rowBytes width height = 4 * panelCount width height := by
  simp only [rowBytes, Config.panelWidth]; omega

/-- `SIZE = 64 * NP` (R36). -/
theorem bitmapSize_eq (width height : Nat) : bitmapSize width height = 64 * panelCount width height := by
  rw [bitmapSize, rowBytes_eq, Config.panelHeight]; omega

theorem panel_column_lt {width x : Nat} (hx : x < width) : x / Config.panelWidth < panelsAcross width := by
  simp only [panelsAcross, Config.panelWidth]; omega

theorem panel_row_lt {height y : Nat} (hy : y < height) : y / Config.panelHeight < panelsDown height := by
  simp only [panelsDown, Config.panelHeight]; omega

/-- The panel of a pixel in range is in the chain (R71). -/
theorem panelOf_lt {width height x y : Nat} (hx : x < width) (hy : y < height) :
    panelOf width x y < panelCount width height := by
  have h1 := panel_column_lt hx
  have h2 := panel_row_lt hy
  have : panelsAcross width * (y / Config.panelHeight + 1) ≤ panelsAcross width * panelsDown height :=
    Nat.mul_le_mul_left _ h2
  rw [Nat.mul_add, Nat.mul_one] at this
  simp only [panelOf, panelCount]
  omega

/-- The byte of the pixel's unified row (R72): four bytes a panel. -/
theorem unifiedX_div_lt {width height x y : Nat} (hx : x < width) (hy : y < height) :
    unifiedX width x y / 8 < rowBytes width height := by
  have := panelOf_lt hx hy
  rw [rowBytes_eq]
  simp only [unifiedX, Config.panelWidth]
  omega

theorem pixelOffset_div {width height x y : Nat} (hx : x < width) (hy : y < height) :
    pixelOffset width height x y / rowBytes width height = unifiedY y := by
  have h := unifiedX_div_lt hx hy
  rw [pixelOffset, Nat.add_mul_div_right _ _ (by omega), Nat.div_eq_of_lt h, Nat.zero_add]

theorem pixelOffset_mod {width height x y : Nat} (hx : x < width) (hy : y < height) :
    pixelOffset width height x y % rowBytes width height = unifiedX width x y / 8 := by
  have h := unifiedX_div_lt hx hy
  rw [pixelOffset, Nat.add_mul_mod_self_right, Nat.mod_eq_of_lt h]

/-- The offset of a pixel in range lies in the bitmap (R72). -/
theorem pixelOffset_lt {width height x y : Nat} (hx : x < width) (hy : y < height) :
    pixelOffset width height x y < bitmapSize width height := by
  have h := unifiedX_div_lt hx hy
  have hy' : unifiedY y < 16 := by simp only [unifiedY, Config.panelHeight]; omega
  have : (unifiedY y + 1) * rowBytes width height ≤ 16 * rowBytes width height := Nat.mul_le_mul_right _ hy'
  rw [Nat.add_mul, Nat.one_mul] at this
  rw [pixelOffset, bitmapSize, Config.panelHeight]
  omega

theorem pixelBit_lt (width x y : Nat) : pixelBit width x y < 8 := Nat.mod_lt _ (by decide)

/-- The mask depends on `x` alone (R72). -/
theorem pixelBit_eq (width x y : Nat) : pixelBit width x y = x % 8 := by
  simp only [pixelBit, unifiedX, Config.panelWidth]; omega

/-- The inverse transform of a pixel's byte and bit gives the pixel's column (R74, R75). -/
theorem pixelX_of_index {width height x y : Nat} (hx : x < width) (hy : y < height) :
    pixelX width height (pixelOffset width height x y) (pixelBit width x y) = x := by
  have hc := panel_column_lt hx
  have hux : unifiedX width x y / 8 * 8 + pixelBit width x y = unifiedX width x y := by
    rw [pixelBit]; omega
  have hp : unifiedX width x y / Config.panelWidth = panelOf width x y := by
    simp only [unifiedX, Config.panelWidth]; omega
  have hm : unifiedX width x y % Config.panelWidth = x % Config.panelWidth := by
    simp only [unifiedX, Config.panelWidth]; omega
  simp only [pixelX, pixelOffset_mod hx hy, hux, hp, hm]
  rw [panelOf, Nat.add_mul_mod_self_left, Nat.mod_eq_of_lt hc]
  simp only [Config.panelWidth]
  omega

/-- The inverse transform of a pixel's byte and bit gives the pixel's row (R74, R75). -/
theorem pixelY_of_index {width height x y : Nat} (hx : x < width) (hy : y < height) :
    pixelY width height (pixelOffset width height x y) (pixelBit width x y) = y := by
  have hc := panel_column_lt hx
  have hux : unifiedX width x y / 8 * 8 + pixelBit width x y = unifiedX width x y := by
    rw [pixelBit]; omega
  have hp : unifiedX width x y / Config.panelWidth = panelOf width x y := by
    simp only [unifiedX, Config.panelWidth]; omega
  simp only [pixelY, pixelOffset_mod hx hy, pixelOffset_div hx hy, hux, hp]
  rw [panelOf, Nat.add_mul_div_left _ _ (Nat.zero_lt_of_lt hc), Nat.div_eq_of_lt hc, Nat.zero_add]
  simp only [unifiedY, Config.panelHeight]
  omega

/-- Two pixels in range with the same byte and the same bit are one pixel (R75). -/
theorem index_injective {width height x y x' y' : Nat} (hx : x < width) (hy : y < height) (hx' : x' < width)
    (hy' : y' < height) (ho : pixelOffset width height x y = pixelOffset width height x' y')
    (hk : pixelBit width x y = pixelBit width x' y') : x = x' ∧ y = y' := by
  constructor
  · rw [← pixelX_of_index hx hy, ho, hk, pixelX_of_index hx' hy']
  · rw [← pixelY_of_index hx hy, ho, hk, pixelY_of_index hx' hy']

/-! ## Masks -/

theorem leftMask_getLsbD {k i : Nat} (hk : k < 8) (hi : i < 8) : (leftMask k).getLsbD i = decide (i = 7 - k) := by
  interval_cases k <;> interval_cases i <;> rfl

/-- The stored bit a pixel command reads: bit `7 - k` of the byte (R72, R78). -/
theorem and_leftMask_eq_zero (b : Byte) {k : Nat} (hk : k < 8) :
    ((b &&& leftMask k) == 0) = !b.getLsbD (7 - k) := by
  interval_cases k <;> revert b <;> decide

/-- Two bit positions of a byte with one mask are one position (R72). -/
theorem leftMask_injective {k k' : Nat} (hk : k < 8) (hk' : k' < 8) (h : leftMask k = leftMask k') : k = k' := by
  have := leftMask_getLsbD hk (show 7 - k < 8 by omega)
  rw [h, leftMask_getLsbD hk' (by omega)] at this
  simp only [decide_true, decide_eq_true_eq] at this
  omega

/-- The stored bit a mode leaves in a pixel whose stored bit was `b`: the complement of the new logical value (R73, R180). -/
def storedBit (mode : Mode) (b : Bool) : Bool :=
  match mode with
  | .on => false
  | .or => false
  | .off => true
  | .nor => true
  | .xor => !b
  | .inverse => b
  | .noop => b

/-- The stored bits after a mode wrote at mask `k`: bit `7 - k` is the mode's, the other seven keep their value (R180). -/
theorem modeStore_getLsbD {mode : Mode} {b v : Byte} {k j : Nat} (hk : k < 8) (hj : j < 8)
    (h : modeStore mode b (leftMask k) = some v) :
    v.getLsbD (7 - j) = if j = k then storedBit mode (b.getLsbD (7 - k)) else b.getLsbD (7 - j) := by
  have hm := leftMask_getLsbD hk (show 7 - j < 8 by omega)
  have hjk : (7 - j = 7 - k) ↔ j = k := by omega
  cases mode <;> simp only [modeStore, Option.some.injEq, reduceCtorEq] at h <;> subst h <;>
    simp only [BitVec.getLsbD_and, BitVec.getLsbD_or, BitVec.getLsbD_xor, BitVec.getLsbD_not, hm, hjk, storedBit] <;>
    by_cases e : j = k <;> simp [e] <;> omega

/-- INVERSE and NOOP are the modes that store nothing (R180). -/
theorem modeStore_eq_none_iff (mode : Mode) (b m : Byte) :
    modeStore mode b m = none ↔ mode = .inverse ∨ mode = .noop := by
  cases mode <;> simp [modeStore]

end Sys2Proof.Machine
end

