-- ==== Sys2Proof/Laws/Canvas.lean ====
section
/-!
SUPPORT. What drawing does to a frame: one law per primitive, and one for any sequence of visits
(spec/41_pixel.md R180 to R185; spec/43_region.md R230, R231).
-/

namespace Sys2Proof.Machine

/-- A canvas whose bitmap is canonical and lies inside its `SIZE` (R37). -/
structure Canvas.Ok (c : Canvas) : Prop where
  bitmap : c.buf.wf = true
  size : c.buf.below (bitmapSize c.width c.height) = true

/-- A live slot's bitmap makes a good canvas. -/
theorem Slot.LiveOk.canvas {p : Params} {h : Handle} {f : Slot} (hf : f.LiveOk p h) : f.canvas.Ok :=
  ⟨hf.bitmap, hf.bitmapSize⟩

/-- The stored bit of a bitmap at byte `o`, position `k` from the left (R78). -/
def Canvas.bit (c : Canvas) (o k : Nat) : Bool := (c.buf.read o).getLsbD (7 - k)

theorem storedBit_eq (mode : Mode) (b : Bool) : storedBit mode b = !modeResult mode (!b) := by
  cases mode <;> cases b <;> rfl

theorem modeWrites_iff (mode : Mode) : modeWrites mode = true ↔ ¬(mode = .inverse ∨ mode = .noop) := by
  cases mode <;> simp [modeWrites]

theorem modeResult_of_not_writes {mode : Mode} (h : modeWrites mode = false) (q : Bool) : modeResult mode q = q := by
  cases mode <;> simp_all [modeWrites, modeResult]

@[simp] theorem modeWrites_litMode (lit : Bool) : modeWrites (litMode lit) = true := by cases lit <;> rfl
@[simp] theorem modeResult_litMode (lit q : Bool) : modeResult (litMode lit) q = lit := by cases lit <;> rfl
@[simp] theorem modeResult_off (q : Bool) : modeResult .off q = false := rfl

/-- A pixel is the complement of its stored bit, dark out of range (R73, R183). -/
theorem Canvas.getPixel_eq (c : Canvas) (x y : Int) :
    c.getPixel x y = (inRange c.width c.height x y &&
      !c.bit (pixelOffset c.width c.height x.toNat y.toNat) (pixelBit c.width x.toNat y.toNat)) := by
  rw [Canvas.getPixel, pixelMask, and_leftMask_eq_zero _ (pixelBit_lt _ _ _), Canvas.bit]

theorem Canvas.getPixel_out {c : Canvas} {x y : Int} (h : inRange c.width c.height x y = false) :
    c.getPixel x y = false := by simp [Canvas.getPixel, h]

/-! ## One visit -/

/-- `SetPixelInt` says once what it does: nothing when the pixel is out of range or the mode does not write; else one byte is
written (R182). -/
theorem Canvas.setPixel_cases (c : Canvas) (x y : Int) (mode : Mode) :
    (¬(inRange c.width c.height x y = true ∧ modeWrites mode = true) ∧ c.setPixel x y mode = c) ∨
    (inRange c.width c.height x y = true ∧ modeWrites mode = true ∧ ∃ v,
      modeStore mode (c.buf.read (pixelOffset c.width c.height x.toNat y.toNat))
        (leftMask (pixelBit c.width x.toNat y.toNat)) = some v ∧
      c.setPixel x y mode = c.write (pixelOffset c.width c.height x.toNat y.toNat) v) := by
  by_cases hr : inRange c.width c.height x y = true
  · simp only [Canvas.setPixel, hr, if_true, pixelMask]
    cases hs : modeStore mode (c.buf.read (pixelOffset c.width c.height x.toNat y.toNat))
        (leftMask (pixelBit c.width x.toNat y.toNat)) with
    | none =>
      have hw := (modeStore_eq_none_iff _ _ _).1 hs
      exact .inl ⟨fun h => (modeWrites_iff mode).1 h.2 hw, rfl⟩
    | some v =>
      refine .inr ⟨trivial, (modeWrites_iff mode).2 fun h => ?_, v, rfl, rfl⟩
      rw [(modeStore_eq_none_iff _ _ _).2 h] at hs
      simp at hs
  · exact .inl ⟨fun h => hr h.1, by simp [Canvas.setPixel, hr]⟩

@[simp] theorem Canvas.setPixel_width (c : Canvas) (x y : Int) (mode : Mode) : (c.setPixel x y mode).width = c.width := by
  rcases c.setPixel_cases x y mode with ⟨_, h⟩ | ⟨_, _, v, _, h⟩ <;> rw [h]; rfl

@[simp] theorem Canvas.setPixel_height (c : Canvas) (x y : Int) (mode : Mode) :
    (c.setPixel x y mode).height = c.height := by
  rcases c.setPixel_cases x y mode with ⟨_, h⟩ | ⟨_, _, v, _, h⟩ <;> rw [h]; rfl

theorem inRange_toNat {width height : Nat} {x y : Int} (h : inRange width height x y = true) :
    x.toNat < width ∧ y.toNat < height := by
  rw [inRange_iff] at h; omega

/-- A visit keeps the bitmap canonical and inside its size. -/
theorem Canvas.Ok.setPixel {c : Canvas} (hc : c.Ok) (x y : Int) (mode : Mode) : (c.setPixel x y mode).Ok := by
  rcases c.setPixel_cases x y mode with ⟨_, h⟩ | ⟨hr, _, v, _, h⟩
  · rwa [h]
  · rw [h]
    have hb := inRange_toNat hr
    exact ⟨Memory.wf_write hc.bitmap _ _, Memory.below_write hc.size (pixelOffset_lt hb.1 hb.2) _⟩

/-- A visit changes at most the bit of its own pixel (R180, R182). -/
theorem Canvas.setPixel_bit {c : Canvas} (hc : c.Ok) (x y : Int) (mode : Mode) (o : Nat) {k : Nat} (hk : k < 8) :
    (c.setPixel x y mode).bit o k =
      if inRange c.width c.height x y = true ∧ o = pixelOffset c.width c.height x.toNat y.toNat
          ∧ k = pixelBit c.width x.toNat y.toNat
      then storedBit mode (c.bit o k) else c.bit o k := by
  rcases c.setPixel_cases x y mode with ⟨hn, h⟩ | ⟨hr, _, v, hv, h⟩
  · rw [h]
    split
    · rename_i hp
      have : modeWrites mode = false := by
        by_contra hw
        exact hn ⟨hp.1, by simpa using hw⟩
      rw [storedBit_eq, modeResult_of_not_writes this, Bool.not_not]
    · rfl
  · rw [h]
    simp only [Canvas.bit, Canvas.write, Memory.read_write hc.bitmap]
    by_cases ho : o = pixelOffset c.width c.height x.toNat y.toNat
    · subst ho
      rw [if_pos rfl, modeStore_getLsbD (pixelBit_lt _ _ _) hk hv]
      by_cases hkk : k = pixelBit c.width x.toNat y.toNat
      · subst hkk; simp [hr]
      · simp [hkk]
    · simp [ho]

/-- A visit gives its own pixel the mode's value and leaves every other pixel as it was (R180, R185). -/
theorem Canvas.getPixel_setPixel {c : Canvas} (hc : c.Ok) (x y : Int) (mode : Mode) {x' y' : Int}
    (hr' : inRange c.width c.height x' y' = true) :
    (c.setPixel x y mode).getPixel x' y' =
      if x = x' ∧ y = y' then modeResult mode (c.getPixel x' y') else c.getPixel x' y' := by
  rw [Canvas.getPixel_eq, Canvas.getPixel_eq, Canvas.setPixel_width, Canvas.setPixel_height, hr',
    Canvas.setPixel_bit hc _ _ _ _ (pixelBit_lt _ _ _)]
  have hb' := inRange_toNat hr'
  by_cases hp : x = x' ∧ y = y'
  · obtain ⟨rfl, rfl⟩ := hp
    simp [hr', storedBit_eq]
  · rw [if_neg hp, if_neg]
    rintro ⟨hr, ho, hk⟩
    have hb := inRange_toNat hr
    obtain ⟨h1, h2⟩ := index_injective hb'.1 hb'.2 hb.1 hb.2 ho hk
    rw [inRange_iff] at hr hr'
    exact hp ⟨by omega, by omega⟩

/-- A visit writes the byte of its pixel, if it is in range and the mode writes (R86). -/
theorem Canvas.mem_setPixel_ws (c : Canvas) (x y : Int) (mode : Mode) (o : Nat) :
    o ∈ (c.setPixel x y mode).ws ↔
      (inRange c.width c.height x y = true ∧ modeWrites mode = true
        ∧ o = pixelOffset c.width c.height x.toNat y.toNat) ∨ o ∈ c.ws := by
  rcases c.setPixel_cases x y mode with ⟨hn, h⟩ | ⟨hr, hw, v, hv, h⟩
  · rw [h]; tauto
  · rw [h]; simp [Canvas.write, hr, hw]

/-- A byte outside the write set after a visit is as it was. -/
theorem Canvas.read_setPixel {c : Canvas} (hc : c.Ok) (x y : Int) (mode : Mode) {o : Nat}
    (ho : o ∉ (c.setPixel x y mode).ws) : (c.setPixel x y mode).buf.read o = c.buf.read o := by
  rcases c.setPixel_cases x y mode with ⟨hn, h⟩ | ⟨hr, hw, v, hv, h⟩
  · rw [h]
  · rw [h] at ho ⊢
    simp only [Canvas.write, List.mem_cons, not_or] at ho ⊢
    rw [Memory.read_write hc.bitmap, if_neg ho.1]

/-! ## A sequence of visits -/

@[simp] theorem Canvas.paint_nil (c : Canvas) : c.paint [] = c := rfl
theorem Canvas.paint_cons (c : Canvas) (v : PixelOp) (vs : List PixelOp) :
    c.paint (v :: vs) = (c.setPixel v.x v.y v.mode).paint vs := rfl
theorem Canvas.paint_append (c : Canvas) (vs vs' : List PixelOp) : c.paint (vs ++ vs') = (c.paint vs).paint vs' := by
  simp [Canvas.paint]

@[simp] theorem Canvas.paint_width (c : Canvas) (vs : List PixelOp) : (c.paint vs).width = c.width := by
  induction vs generalizing c with
  | nil => rfl
  | cons v vs ih => rw [Canvas.paint_cons, ih, Canvas.setPixel_width]

@[simp] theorem Canvas.paint_height (c : Canvas) (vs : List PixelOp) : (c.paint vs).height = c.height := by
  induction vs generalizing c with
  | nil => rfl
  | cons v vs ih => rw [Canvas.paint_cons, ih, Canvas.setPixel_height]

theorem Canvas.Ok.paint {c : Canvas} (hc : c.Ok) (vs : List PixelOp) : (c.paint vs).Ok := by
  induction vs generalizing c with
  | nil => exact hc
  | cons v vs ih => exact ih (hc.setPixel _ _ _)

/-- What a sequence of visits makes of one pixel in range: each visit of it applies its mode, in order (R180). -/
theorem Canvas.getPixel_paint {c : Canvas} (hc : c.Ok) (vs : List PixelOp) {x y : Int}
    (hr : inRange c.width c.height x y = true) :
    (c.paint vs).getPixel x y =
      vs.foldl (fun q v => if v.x = x ∧ v.y = y then modeResult v.mode q else q) (c.getPixel x y) := by
  induction vs generalizing c with
  | nil => rfl
  | cons v vs ih =>
    rw [Canvas.paint_cons, ih (hc.setPixel _ _ _) (by simpa using hr), Canvas.getPixel_setPixel hc _ _ _ hr,
      List.foldl_cons]

/-- A bit that is no visited pixel's own bit keeps its value: padding bits are never written (R76, R182). -/
theorem Canvas.paint_bit {c : Canvas} (hc : c.Ok) (vs : List PixelOp) {o k : Nat} (hk : k < 8)
    (h : ∀ v ∈ vs, inRange c.width c.height v.x v.y = true →
      ¬(o = pixelOffset c.width c.height v.x.toNat v.y.toNat ∧ k = pixelBit c.width v.x.toNat v.y.toNat)) :
    (c.paint vs).bit o k = c.bit o k := by
  induction vs generalizing c with
  | nil => rfl
  | cons v vs ih =>
    rw [Canvas.paint_cons, ih (hc.setPixel _ _ _), Canvas.setPixel_bit hc _ _ _ _ hk, if_neg]
    · exact fun hv => h v (by simp) hv.1 hv.2
    · intro w hw
      simpa using h w (List.mem_cons_of_mem _ hw)

/-- The write set of a sequence of visits (R86). -/
theorem Canvas.mem_paint_ws (c : Canvas) (vs : List PixelOp) (o : Nat) :
    o ∈ (c.paint vs).ws ↔ o ∈ c.ws ∨ ∃ v ∈ vs, inRange c.width c.height v.x v.y = true ∧ modeWrites v.mode = true
      ∧ o = pixelOffset c.width c.height v.x.toNat v.y.toNat := by
  induction vs generalizing c with
  | nil => simp
  | cons v vs ih =>
    rw [Canvas.paint_cons, ih, Canvas.mem_setPixel_ws]
    simp only [Canvas.setPixel_width, Canvas.setPixel_height, List.mem_cons, exists_eq_or_imp]
    tauto

theorem Canvas.ws_subset_paint (c : Canvas) (vs : List PixelOp) {o : Nat} (h : o ∈ c.ws) : o ∈ (c.paint vs).ws :=
  (c.mem_paint_ws vs o).2 (.inl h)

/-- A byte outside the write set after the visits is as it was. -/
theorem Canvas.read_paint {c : Canvas} (hc : c.Ok) (vs : List PixelOp) {o : Nat} (ho : o ∉ (c.paint vs).ws) :
    (c.paint vs).buf.read o = c.buf.read o := by
  induction vs generalizing c with
  | nil => rfl
  | cons v vs ih =>
    rw [Canvas.paint_cons] at ho ⊢
    rw [ih (hc.setPixel _ _ _) ho, Canvas.read_setPixel hc]
    exact fun h => ho (Canvas.ws_subset_paint _ _ h)

/-- The write set of a sequence of visits lies in the bitmap. -/
theorem Canvas.paint_ws_lt {c : Canvas} {vs : List PixelOp} {o : Nat} (hws : ∀ p ∈ c.ws, p < bitmapSize c.width c.height)
    (ho : o ∈ (c.paint vs).ws) : o < bitmapSize c.width c.height := by
  rcases (c.mem_paint_ws vs o).1 ho with h | ⟨v, _, hr, _, rfl⟩
  · exact hws o h
  · have := inRange_toNat hr
    exact pixelOffset_lt this.1 this.2

/-! ## The shapes of visits the commands make -/

/-- Points visited in one mode: the mode applied as often as the pixel is visited. -/
theorem foldl_visitsOf (mode : Mode) (points : List Point) (x y : Int) (q : Bool) :
    (visitsOf mode points).foldl (fun q v => if v.x = x ∧ v.y = y then modeResult v.mode q else q) q
      = (modeResult mode)^[points.count (x, y)] q := by
  induction points generalizing q with
  | nil => rfl
  | cons p ps ih =>
    simp only [visitsOf, List.map_cons, List.foldl_cons] at ih ⊢
    rw [ih, List.count_cons]
    by_cases hp : p.1 = x ∧ p.2 = y
    · have : (p == (x, y)) = true := by simp [Prod.ext_iff, hp]
      rw [if_pos hp, this, if_pos rfl, Function.iterate_succ_apply]
    · have : (p == (x, y)) = false := by simp [Prod.ext_iff]; tauto
      rw [if_neg hp, this]; simp

/-- The cells of a grid (R230). -/
theorem mem_gridCells (cols rows : Nat) (c : Nat × Nat) : c ∈ gridCells cols rows ↔ c.1 < cols ∧ c.2 < rows := by
  obtain ⟨i, j⟩ := c
  simp only [gridCells, List.mem_flatMap, List.mem_range, List.mem_map, Prod.mk.injEq]
  constructor
  · rintro ⟨_, hj, _, hi, rfl, rfl⟩; exact ⟨hi, hj⟩
  · rintro ⟨hi, hj⟩; exact ⟨j, hj, i, hi, rfl, rfl⟩

/-- Cells of a grid at `(left, top)`, each setting its pixel to a value of its own: the pixel of a cell gets that cell's value,
every other keeps its own. -/
theorem foldl_cells (f : Nat × Nat → Mode) (value : Nat → Nat → Bool)
    (hf : ∀ c q, modeResult (f c) q = value c.1 c.2) (left top x y : Int) (cells : List (Nat × Nat)) (q : Bool) :
    (cells.map fun c => (⟨left + c.1, top + c.2, f c⟩ : PixelOp)).foldl
        (fun q v => if v.x = x ∧ v.y = y then modeResult v.mode q else q) q
      = if 0 ≤ x - left ∧ 0 ≤ y - top ∧ ((x - left).toNat, (y - top).toNat) ∈ cells
        then value (x - left).toNat (y - top).toNat else q := by
  induction cells generalizing q with
  | nil => simp
  | cons c cs ih =>
    rw [List.map_cons, List.foldl_cons, ih]
    by_cases hc : left + c.1 = x ∧ top + c.2 = y
    · have h1 : (x - left).toNat = c.1 := by omega
      have h2 : (y - top).toNat = c.2 := by omega
      rw [if_pos hc, hf, h1, h2]
      have h3 : 0 ≤ x - left := by omega
      have h4 : 0 ≤ y - top := by omega
      simp only [h3, h4, true_and, List.mem_cons, true_or, if_true, ite_self]
    · rw [if_neg hc]
      have : ¬(0 ≤ x - left ∧ 0 ≤ y - top ∧ ((x - left).toNat, (y - top).toNat) = c) := by
        rintro ⟨h1, h2, rfl⟩
        exact hc ⟨by simp only; omega, by simp only; omega⟩
      simp only [List.mem_cons]
      congr 1
      simp only [eq_iff_iff]
      tauto

/-- What `Paste` makes of a pixel in range (R231). -/
theorem Canvas.getPixel_paste {c : Canvas} (hc : c.Ok) (grid : Nat → Nat → Bool) (cols rows : Nat) (left top : Int)
    {x y : Int} (hr : inRange c.width c.height x y = true) :
    (c.paint (pasteVisits grid cols rows left top)).getPixel x y =
      if 0 ≤ x - left ∧ x - left < cols ∧ 0 ≤ y - top ∧ y - top < rows
      then grid (x - left).toNat (y - top).toNat else c.getPixel x y := by
  rw [Canvas.getPixel_paint hc _ hr, pasteVisits,
    foldl_cells (fun c => litMode (grid c.1 c.2)) grid (fun _ _ => by simp)]
  congr 1
  simp only [mem_gridCells, eq_iff_iff]
  omega

/-- What clearing a rectangle makes of a pixel in range (R234). -/
theorem Canvas.getPixel_clear {c : Canvas} (hc : c.Ok) (cols rows : Nat) (left top : Int)
    {x y : Int} (hr : inRange c.width c.height x y = true) :
    (c.paint (clearVisits cols rows left top)).getPixel x y =
      if 0 ≤ x - left ∧ x - left < cols ∧ 0 ≤ y - top ∧ y - top < rows then false else c.getPixel x y := by
  rw [Canvas.getPixel_paint hc _ hr, clearVisits, foldl_cells (fun _ => .off) (fun _ _ => false) (fun _ _ => rfl)]
  congr 1
  simp only [mem_gridCells, eq_iff_iff]
  omega

/-! ## Filling -/

@[simp] theorem Canvas.fillBytes_width (c : Canvas) (v : Byte) : (c.fillBytes v).width = c.width := rfl
@[simp] theorem Canvas.fillBytes_height (c : Canvas) (v : Byte) : (c.fillBytes v).height = c.height := rfl

theorem Canvas.fillBytes_ok (c : Canvas) (v : Byte) : (c.fillBytes v).Ok :=
  ⟨Memory.wf_filled _ _, Memory.below_filled _ _⟩

/-- Every byte of the bitmap is written (R184). -/
theorem Canvas.mem_fillBytes_ws (c : Canvas) (v : Byte) (o : Nat) :
    o ∈ (c.fillBytes v).ws ↔ o < bitmapSize c.width c.height ∨ o ∈ c.ws := by simp [Canvas.fillBytes]

/-- A filled frame is lit everywhere for `0x00`, dark everywhere for `0xFF` (R184, R185). -/
theorem Canvas.getPixel_fillBytes (c : Canvas) (lit : Bool) {x y : Int} (hr : inRange c.width c.height x y = true) :
    (c.fillBytes (if lit then 0x00 else 0xFF)).getPixel x y = lit := by
  have hb := inRange_toNat hr
  rw [Canvas.getPixel_eq, Canvas.fillBytes_width, Canvas.fillBytes_height, hr, Canvas.bit, Canvas.fillBytes,
    Memory.read_filled (pixelOffset_lt hb.1 hb.2)]
  have := pixelBit_lt c.width x.toNat y.toNat
  generalize pixelBit c.width x.toNat y.toNat = k at this
  cases lit <;> interval_cases k <;> rfl

end Sys2Proof.Machine
end

