-- ==== Sys2Proof/Laws/Encoding.lean ====
section
/-!
SUPPORT. The fields of the words the encoder writes (spec/30_encoding.md R111, R112), read back.
-/

namespace Sys2Proof

/-! ## The header word -/

/-- The bits of a header word, field by field. -/
theorem headerWord_bit (op : Op) (m : Mode) (fa fb : Handle) (i : Nat) :
    (headerWord op m fa fb).getLsbD i =
      if i < 8 then fb.getLsbD i else if i - 8 < 8 then fa.getLsbD (i - 8)
      else if i - 8 - 8 < 4 then false else if i - 8 - 8 - 4 < 4 then m.bits.getLsbD (i - 8 - 8 - 4)
      else op.code.getLsbD (i - 8 - 8 - 4 - 4) := by
  change BitVec.getLsbD (w := 8 + 4 + 4 + 8 + 8) ((((op.code ++ m.bits) ++ (0 : BitVec 4)) ++ fa) ++ fb) i = _
  simp only [BitVec.getLsbD_append, BitVec.ofNat_eq_ofNat, BitVec.getLsbD_zero]

@[simp] theorem headerWord_opc (op : Op) (m : Mode) (fa fb : Handle) : (headerWord op m fa fb).opc = op.code := by
  apply BitVec.eq_of_getLsbD_eq
  intro i hi
  rw [Word.opc, BitVec.getLsbD_extractLsb', headerWord_bit, if_neg (show ¬24 + i < 8 by omega), if_neg (show ¬24 + i - 8 < 8 by omega),
    if_neg (show ¬24 + i - 8 - 8 < 4 by omega), if_neg (show ¬24 + i - 8 - 8 - 4 < 4 by omega),
    show 24 + i - 8 - 8 - 4 - 4 = i by omega]
  simp [hi]

@[simp] theorem headerWord_modeField (op : Op) (m : Mode) (fa fb : Handle) : (headerWord op m fa fb).modeField = m.bits := by
  apply BitVec.eq_of_getLsbD_eq
  intro i hi
  rw [Word.modeField, BitVec.getLsbD_extractLsb', headerWord_bit, if_neg (show ¬20 + i < 8 by omega), if_neg (show ¬20 + i - 8 < 8 by omega),
    if_neg (show ¬20 + i - 8 - 8 < 4 by omega), if_pos (show 20 + i - 8 - 8 - 4 < 4 by omega),
    show 20 + i - 8 - 8 - 4 = i by omega]
  simp [hi]

@[simp] theorem headerWord_rsv (op : Op) (m : Mode) (fa fb : Handle) : (headerWord op m fa fb).rsv = 0 := by
  apply BitVec.eq_of_getLsbD_eq
  intro i hi
  rw [Word.rsv, BitVec.getLsbD_extractLsb', headerWord_bit, if_neg (show ¬16 + i < 8 by omega), if_neg (show ¬16 + i - 8 < 8 by omega),
    if_pos (show 16 + i - 8 - 8 < 4 by omega)]
  simp [hi]

@[simp] theorem headerWord_fa (op : Op) (m : Mode) (fa fb : Handle) : (headerWord op m fa fb).fa = fa := by
  apply BitVec.eq_of_getLsbD_eq
  intro i hi
  rw [Word.fa, BitVec.getLsbD_extractLsb', headerWord_bit, if_neg (show ¬8 + i < 8 by omega), if_pos (show 8 + i - 8 < 8 by omega),
    show 8 + i - 8 = i by omega]
  simp [hi]

@[simp] theorem headerWord_fb (op : Op) (m : Mode) (fa fb : Handle) : (headerWord op m fa fb).fb = fb := by
  apply BitVec.eq_of_getLsbD_eq
  intro i hi
  rw [Word.fb, BitVec.getLsbD_extractLsb', headerWord_bit, if_pos (show 0 + i < 8 by omega), Nat.zero_add]
  simp [hi]

/-- A header word is made of its fields (R111). -/
theorem Word.eq_headerWord {hdr : Word} {op : Op} {m : Mode} (opc : hdr.opc = op.code) (mode : hdr.modeField = m.bits)
    (rsv : hdr.rsv = 0) : hdr = headerWord op m hdr.fa hdr.fb := by
  apply BitVec.eq_of_getLsbD_eq
  intro i hi
  have hr : ∀ j < 4, hdr.getLsbD (16 + j) = false := by
    intro j hj
    have := congrArg (fun v => v.getLsbD j) rsv
    simpa [Word.rsv, hj] using this
  rw [headerWord_bit, ← opc, ← mode]
  simp only [Word.fa, Word.fb, Word.opc, Word.modeField, BitVec.getLsbD_extractLsb']
  by_cases h1 : i < 8
  · simp [h1]
  by_cases h2 : i - 8 < 8
  · simp [h1, h2, show 8 + (i - 8) = i by omega]
  by_cases h3 : i - 8 - 8 < 4
  · have := hr _ h3
    rw [show 16 + (i - 8 - 8) = i by omega] at this
    simp [h1, h2, h3, this]
  by_cases h4 : i - 8 - 8 - 4 < 4
  · simp [h1, h2, h3, h4, show 20 + (i - 8 - 8 - 4) = i by omega]
  · simp [h1, h2, h3, h4, show 24 + (i - 8 - 8 - 4 - 4) = i by omega, show i - 8 - 8 - 4 - 4 < 8 by omega]

/-! ## Operand words -/

/-- The bits of an operand word. -/
theorem operandWord_bit (v : Operand) (i : Nat) : (operandWord v).getLsbD i = if i < 16 then v.getLsbD i else false := by
  change BitVec.getLsbD (w := 16 + 16) ((0 : BitVec 16) ++ v) i = _
  simp only [BitVec.getLsbD_append, BitVec.ofNat_eq_ofNat, BitVec.getLsbD_zero]

@[simp] theorem operandWord_operand (v : Operand) : (operandWord v).operand = v := by
  apply BitVec.eq_of_getLsbD_eq
  intro i hi
  simp [Word.operand, operandWord_bit, hi]

@[simp] theorem operandWord_upper (v : Operand) : (operandWord v).upper = 0 := by
  apply BitVec.eq_of_getLsbD_eq
  intro i hi
  simp [Word.upper, operandWord_bit]

/-- An operand word with a clear upper half is made of its value field (R112). -/
theorem Word.eq_operandWord {w : Word} (h : w.upper = 0) : w = operandWord w.operand := by
  apply BitVec.eq_of_getLsbD_eq
  intro i hi
  rw [operandWord_bit]
  by_cases h16 : i < 16
  · simp [Word.operand, h16]
  · have := congrArg (fun v => v.getLsbD (i - 16)) h
    simpa [Word.upper, show i - 16 < 16 by omega, show 16 + (i - 16) = i by omega, h16] using this

/-! ## The tables -/

@[simp] theorem Op.ofCode_code (op : Op) : Op.ofCode op.code = some op := by cases op <;> rfl

theorem Op.ofCode_eq_some {c : BitVec 8} {op : Op} (h : Op.ofCode c = some op) : c = op.code := by
  have := List.find?_some (show Op.all.find? (fun op => op.code == c) = some op from h)
  simpa using (beq_iff_eq.1 this).symm

theorem Op.ofCode_eq_none {c : BitVec 8} (h : ∀ op : Op, op.code ≠ c) : Op.ofCode c = none := by
  rw [Op.ofCode, List.find?_eq_none]
  intro op _
  simpa using h op

@[simp] theorem Mode.ofBits_bits (m : Mode) : Mode.ofBits m.bits = some m := by cases m <;> rfl

theorem Mode.ofBits_eq_some {b : BitVec 4} {m : Mode} (h : Mode.ofBits b = some m) : b = m.bits := by
  revert b m; decide

end Sys2Proof
end

