-- ==== Sys2Proof/Laws/State.lean ====
section
/-!
SUPPORT. One lemma per field per update of State, so that no later proof unfolds a record update.
-/

namespace Sys2Proof.Machine

/-! ## Writing a slot -/

@[simp] theorem Block.slot_setSlot_self (b : Block) (h : Handle) (f : Slot) : (b.setSlot h f).slot h = f := by
  simp [Block.setSlot, Block.slot]

theorem Block.slot_setSlot_of_ne (b : Block) {h k : Handle} (f : Slot) (hk : k ≠ h) :
    (b.setSlot h f).slot k = b.slot k := by
  have : h.toNat ≠ k.toNat := fun e => hk (BitVec.eq_of_toNat_eq e.symm)
  simp [Block.setSlot, Block.slot, Vector.getElem_set_ne, this]

theorem Block.slot_setSlot (b : Block) (h k : Handle) (f : Slot) :
    (b.setSlot h f).slot k = if k = h then f else b.slot k := by
  split
  · subst_vars; simp
  · exact Block.slot_setSlot_of_ne b f ‹_›

@[simp] theorem Block.setSlot_registry (b : Block) (h : Handle) (f : Slot) : (b.setSlot h f).registry = b.registry := rfl
@[simp] theorem Block.setSlot_timerArmed (b : Block) (h : Handle) (f : Slot) :
    (b.setSlot h f).timerArmed = b.timerArmed := rfl
@[simp] theorem Block.setSlot_responses (b : Block) (h : Handle) (f : Slot) :
    (b.setSlot h f).responses = b.responses := rfl

@[simp] theorem Block.running_setSlot (b : Block) (h d : Handle) (f : Slot) : (b.setSlot h f).running d = b.running d := rfl

@[simp] theorem State.slot_setSlot_self (s : State) (h : Handle) (f : Slot) : (s.setSlot h f).slot h = f :=
  Block.slot_setSlot_self _ _ _

theorem State.slot_setSlot_of_ne (s : State) {h k : Handle} (f : Slot) (hk : k ≠ h) :
    (s.setSlot h f).slot k = s.slot k := Block.slot_setSlot_of_ne _ _ hk

theorem State.slot_setSlot (s : State) (h k : Handle) (f : Slot) :
    (s.setSlot h f).slot k = if k = h then f else s.slot k := Block.slot_setSlot _ _ _ _

@[simp] theorem State.setSlot_params (s : State) (h : Handle) (f : Slot) : (s.setSlot h f).params = s.params := rfl
@[simp] theorem State.setSlot_port (s : State) (h : Handle) (f : Slot) : (s.setSlot h f).port = s.port := rfl
@[simp] theorem State.setSlot_ws (s : State) (h : Handle) (f : Slot) : (s.setSlot h f).ws = s.ws := rfl
@[simp] theorem State.setSlot_input (s : State) (h : Handle) (f : Slot) : (s.setSlot h f).input = s.input := rfl
@[simp] theorem State.setSlot_env (s : State) (h : Handle) (f : Slot) : (s.setSlot h f).env = s.env := rfl
@[simp] theorem State.setSlot_registry (s : State) (h : Handle) (f : Slot) :
    (s.setSlot h f).blk.registry = s.blk.registry := rfl
@[simp] theorem State.setSlot_timerArmed (s : State) (h : Handle) (f : Slot) :
    (s.setSlot h f).blk.timerArmed = s.blk.timerArmed := rfl
@[simp] theorem State.setSlot_responses (s : State) (h : Handle) (f : Slot) :
    (s.setSlot h f).blk.responses = s.blk.responses := rfl

/-- Two blocks with the same slots, registry, arm bit and responses are the same. -/
theorem Block.ext_slots {a b : Block} (slots : ∀ h, a.slot h = b.slot h) (registry : a.registry = b.registry)
    (armed : a.timerArmed = b.timerArmed) (responses : a.responses = b.responses) : a = b := by
  obtain ⟨fa, ra, ta, oa⟩ := a
  obtain ⟨fb, rb, tb, ob⟩ := b
  simp only at registry armed responses
  subst registry armed responses
  have : fa = fb := by
    apply Vector.ext
    intro i hi
    have := slots (BitVec.ofNat 8 i)
    simpa [Block.slot, Nat.mod_eq_of_lt hi] using this
  rw [this]

/-! ## Ending a command -/

@[simp] theorem State.reply_params (s : State) (ws) (st : Status) (v) : (s.reply ws st v).params = s.params := rfl
@[simp] theorem State.reply_port (s : State) (ws) (st : Status) (v) : (s.reply ws st v).port = s.port := rfl
@[simp] theorem State.reply_input (s : State) (ws) (st : Status) (v) : (s.reply ws st v).input = s.input := rfl
@[simp] theorem State.reply_env (s : State) (ws) (st : Status) (v) : (s.reply ws st v).env = s.env := rfl
@[simp] theorem State.reply_ws (s : State) (ws) (st : Status) (v) : (s.reply ws st v).ws = ws := rfl
@[simp] theorem State.reply_slot (s : State) (ws) (st : Status) (v) (h : Handle) :
    (s.reply ws st v).slot h = s.slot h := rfl
@[simp] theorem State.reply_frames (s : State) (ws) (st : Status) (v) :
    (s.reply ws st v).blk.frames = s.blk.frames := rfl
@[simp] theorem State.reply_registry (s : State) (ws) (st : Status) (v) :
    (s.reply ws st v).blk.registry = s.blk.registry := rfl
@[simp] theorem State.reply_timerArmed (s : State) (ws) (st : Status) (v) :
    (s.reply ws st v).blk.timerArmed = s.blk.timerArmed := rfl
@[simp] theorem State.reply_responses (s : State) (ws) (st : Status) (v) :
    (s.reply ws st v).blk.responses = s.blk.responses ++ [⟨st, v⟩] := rfl

@[simp] theorem State.fail_params (s : State) (st : Status) : (s.fail st).params = s.params := rfl
@[simp] theorem State.fail_port (s : State) (st : Status) : (s.fail st).port = s.port := rfl
@[simp] theorem State.fail_input (s : State) (st : Status) : (s.fail st).input = s.input := rfl
@[simp] theorem State.fail_env (s : State) (st : Status) : (s.fail st).env = s.env := rfl
@[simp] theorem State.fail_ws (s : State) (st : Status) : (s.fail st).ws = [] := rfl
@[simp] theorem State.fail_slot (s : State) (st : Status) (h : Handle) : (s.fail st).slot h = s.slot h := rfl
@[simp] theorem State.fail_frames (s : State) (st : Status) : (s.fail st).blk.frames = s.blk.frames := rfl
@[simp] theorem State.fail_registry (s : State) (st : Status) : (s.fail st).blk.registry = s.blk.registry := rfl
@[simp] theorem State.fail_timerArmed (s : State) (st : Status) : (s.fail st).blk.timerArmed = s.blk.timerArmed := rfl
@[simp] theorem State.fail_responses (s : State) (st : Status) :
    (s.fail st).blk.responses = s.blk.responses ++ [⟨st, 0⟩] := rfl

/-! ## Drawing on a frame -/

@[simp] theorem State.drawn_params (s : State) (h : Handle) (c : Canvas) : (s.drawn h c).params = s.params := rfl
@[simp] theorem State.drawn_port (s : State) (h : Handle) (c : Canvas) : (s.drawn h c).port = s.port := rfl
@[simp] theorem State.drawn_input (s : State) (h : Handle) (c : Canvas) : (s.drawn h c).input = s.input := rfl
@[simp] theorem State.drawn_env (s : State) (h : Handle) (c : Canvas) : (s.drawn h c).env = s.env := rfl
@[simp] theorem State.drawn_ws (s : State) (h : Handle) (c : Canvas) :
    (s.drawn h c).ws = c.ws.map fun o => (h, o) := rfl
@[simp] theorem State.drawn_registry (s : State) (h : Handle) (c : Canvas) :
    (s.drawn h c).blk.registry = s.blk.registry := rfl
@[simp] theorem State.drawn_timerArmed (s : State) (h : Handle) (c : Canvas) :
    (s.drawn h c).blk.timerArmed = s.blk.timerArmed := rfl
@[simp] theorem State.drawn_responses (s : State) (h : Handle) (c : Canvas) :
    (s.drawn h c).blk.responses = s.blk.responses ++ [⟨.ok, 0⟩] := rfl

theorem State.drawn_slot (s : State) (h k : Handle) (c : Canvas) :
    (s.drawn h c).slot k = if k = h then { s.slot h with buf := c.buf } else s.slot k := by
  rw [State.drawn, State.reply_slot, State.slot_setSlot]

@[simp] theorem State.drawn_slot_self (s : State) (h : Handle) (c : Canvas) :
    (s.drawn h c).slot h = { s.slot h with buf := c.buf } := by simp [State.drawn_slot]

theorem State.drawn_slot_of_ne (s : State) {h k : Handle} (c : Canvas) (hk : k ≠ h) :
    (s.drawn h c).slot k = s.slot k := by simp [State.drawn_slot, hk]

/-! ## Freeing, the registry's slots -/

@[simp] theorem State.free_slot_self (s : State) (h : Handle) :
    (s.free h).slot h = { s.slot h with live := false, buf := [] } := by simp [State.free]

theorem State.free_slot_of_ne (s : State) {h k : Handle} (hk : k ≠ h) : (s.free h).slot k = s.slot k := by
  simp [State.free, State.slot_setSlot_of_ne s _ hk]

@[simp] theorem State.unregister_slot (s : State) (d h : Handle) : (s.unregister d).slot h = s.slot h := rfl
@[simp] theorem State.unregister_params (s : State) (d : Handle) : (s.unregister d).params = s.params := rfl
@[simp] theorem State.unregister_port (s : State) (d : Handle) : (s.unregister d).port = s.port := rfl
@[simp] theorem State.unregister_input (s : State) (d : Handle) : (s.unregister d).input = s.input := rfl
@[simp] theorem State.unregister_env (s : State) (d : Handle) : (s.unregister d).env = s.env := rfl
@[simp] theorem State.unregister_ws (s : State) (d : Handle) : (s.unregister d).ws = s.ws := rfl
@[simp] theorem State.unregister_registry (s : State) (d : Handle) :
    (s.unregister d).blk.registry = unregisterSlots d s.blk.registry := rfl
@[simp] theorem State.unregister_timerArmed (s : State) (d : Handle) :
    (s.unregister d).blk.timerArmed = (s.blk.timerArmed && anyOccupied (unregisterSlots d s.blk.registry)) := rfl
@[simp] theorem State.unregister_responses (s : State) (d : Handle) :
    (s.unregister d).blk.responses = s.blk.responses := rfl

/-! ## The queue and the port -/

@[simp] theorem State.beginCommand_blk (s : State) (cmd : List Word) (s0 : Block) : (s.beginCommand cmd s0).blk = s0 := rfl
@[simp] theorem State.beginCommand_port (s : State) (cmd : List Word) (s0 : Block) :
    (s.beginCommand cmd s0).port = .inFlight cmd s0 s.blk := rfl
@[simp] theorem State.beginCommand_ws (s : State) (cmd : List Word) (s0 : Block) : (s.beginCommand cmd s0).ws = s.ws := rfl
@[simp] theorem State.beginCommand_input (s : State) (cmd : List Word) (s0 : Block) :
    (s.beginCommand cmd s0).input = s.input := rfl
@[simp] theorem State.beginCommand_params (s : State) (cmd : List Word) (s0 : Block) :
    (s.beginCommand cmd s0).params = s.params := rfl
@[simp] theorem State.endCommand_blk (s : State) (s0 s1 : Block) : (s.endCommand s0 s1).blk = s.blk.install s0 s1 := rfl
@[simp] theorem State.endCommand_port (s : State) (s0 s1 : Block) : (s.endCommand s0 s1).port = .idle := rfl
@[simp] theorem State.endCommand_input (s : State) (s0 s1 : Block) : (s.endCommand s0 s1).input = s.input := rfl
@[simp] theorem State.endCommand_ws (s : State) (s0 s1 : Block) : (s.endCommand s0 s1).ws = s.ws := rfl
@[simp] theorem State.endCommand_env (s : State) (s0 s1 : Block) : (s.endCommand s0 s1).env = s.env := rfl
@[simp] theorem State.endCommand_params (s : State) (s0 s1 : Block) : (s.endCommand s0 s1).params = s.params := rfl

/-- What `END` installs in each slot (R85). -/
theorem Block.install_slot (now s0 s1 : Block) (h : Handle) :
    (now.install s0 s1).slot h = if s0.running h then (s1.slot h).withScanOf (now.slot h) else s1.slot h := by
  have key : ∀ (ds : List Handle) (b : Block),
      (ds.foldl (fun b d => b.setSlot d ((b.slot d).withScanOf (now.slot d))) b).slot h
        = if h ∈ ds then (b.slot h).withScanOf (now.slot h) else b.slot h := by
    intro ds
    induction ds with
    | nil => simp
    | cons d ds ih =>
      intro b
      rw [List.foldl_cons, ih, Block.slot_setSlot]
      by_cases hd : h = d
      · subst hd; simp [Slot.withScanOf]
      · simp [hd]
  rw [Block.install, key]
  simp [Block.running]

theorem Block.install_rest (now s0 s1 : Block) :
    (now.install s0 s1).registry = s1.registry ∧ (now.install s0 s1).timerArmed = s1.timerArmed
      ∧ (now.install s0 s1).responses = s1.responses := by
  have key : ∀ (ds : List Handle) (b : Block),
      let r := ds.foldl (fun b d => b.setSlot d ((b.slot d).withScanOf (now.slot d))) b
      r.registry = b.registry ∧ r.timerArmed = b.timerArmed ∧ r.responses = b.responses := by
    intro ds
    induction ds with
    | nil => simp
    | cons d ds ih => exact fun b => by simpa using ih (b.setSlot d ((b.slot d).withScanOf (now.slot d)))
  exact key _ s1

@[simp] theorem Block.install_registry (now s0 s1 : Block) : (now.install s0 s1).registry = s1.registry :=
  (Block.install_rest now s0 s1).1
@[simp] theorem Block.install_timerArmed (now s0 s1 : Block) : (now.install s0 s1).timerArmed = s1.timerArmed :=
  (Block.install_rest now s0 s1).2.1
@[simp] theorem Block.install_responses (now s0 s1 : Block) : (now.install s0 s1).responses = s1.responses :=
  (Block.install_rest now s0 s1).2.2

/-! ## Slots -/

@[simp] theorem Slot.canvas_width (f : Slot) : f.canvas.width = f.width := rfl
@[simp] theorem Slot.canvas_height (f : Slot) : f.canvas.height = f.height := rfl
@[simp] theorem Slot.canvas_buf (f : Slot) : f.canvas.buf = f.buf := rfl
@[simp] theorem Slot.canvas_ws (f : Slot) : f.canvas.ws = [] := rfl

@[simp] theorem Slot.withScanOf_live (f now : Slot) : (f.withScanOf now).live = f.live := rfl
@[simp] theorem Slot.withScanOf_width (f now : Slot) : (f.withScanOf now).width = f.width := rfl
@[simp] theorem Slot.withScanOf_height (f now : Slot) : (f.withScanOf now).height = f.height := rfl
@[simp] theorem Slot.withScanOf_isDisplay (f now : Slot) : (f.withScanOf now).isDisplay = f.isDisplay := rfl
@[simp] theorem Slot.withScanOf_buf (f now : Slot) : (f.withScanOf now).buf = f.buf := rfl
@[simp] theorem Slot.withScanOf_brightness (f now : Slot) : (f.withScanOf now).brightness = f.brightness := rfl
@[simp] theorem Slot.withScanOf_guardEn (f now : Slot) : (f.withScanOf now).guardEn = f.guardEn := rfl
@[simp] theorem Slot.withScanOf_oe (f now : Slot) : (f.withScanOf now).oe = now.oe := rfl

@[simp] theorem Slot.reset_live : Slot.reset.live = false := rfl
@[simp] theorem Slot.reset_buf : Slot.reset.buf = [] := rfl

@[simp] theorem Block.reset_slot (h : Handle) : Block.reset.slot h = Slot.reset := by simp [Block.reset, Block.slot]

end Sys2Proof.Machine
end

