-- ==== Sys2Proof/Laws/Ops.lean ====
section
/-!
SUPPORT. One law per shared operation of Machine/Ops.lean, saying once everything it can do.
-/

namespace Sys2Proof.Machine

/-! ## Drawing on a frame -/

theorem State.drawOn_frame {s : State} {h : Handle} (hf : s.isFrame h = true) (action : Canvas → Canvas) :
    s.drawOn h action = s.drawn h (action (s.slot h).canvas) := by simp [State.drawOn, hf]

theorem State.drawOn_bad {s : State} {h : Handle} (hf : s.isFrame h = false) (action : Canvas → Canvas) :
    s.drawOn h action = s.fail .badHandle := by simp [State.drawOn, hf]

/-- A frame's handle names a live slot that is neither 0 nor above `MAX_FRAMES` (R34). -/
theorem State.isFrame_iff (s : State) (h : Handle) :
    s.isFrame h = true ↔ (s.slot h).live = true ∧ h ≠ 0 ∧ h.toNat ≤ s.params.maxFrames := by
  simp [State.isFrame, and_assoc]

theorem State.isDisplay_iff (s : State) (h : Handle) :
    s.isDisplay h = true ↔ s.isFrame h = true ∧ (s.slot h).isDisplay = true := by simp [State.isDisplay]

/-- In a safe state every live frame's bitmap is canonical and inside its size (R53 a). -/
theorem State.Inv.canvas {s : State} (hs : s.Inv) {h : Handle} (hf : s.isFrame h = true) : (s.slot h).canvas.Ok :=
  ((hs.blk.slots h).live ((s.isFrame_iff h).1 hf).1).canvas

/-- Drawing on a frame changes its bitmap alone. -/
theorem State.drawn_onlyBitmap (s : State) (h : Handle) (c : Canvas) : s.OnlyBitmap (s.drawn h c) h where
  outside := ⟨rfl, rfl, rfl⟩
  env := rfl
  scheduler := ⟨rfl, rfl⟩
  others := fun _ hk => State.drawn_slot_of_ne s c hk
  itself := by simp

theorem State.drawn_canvas (s : State) (h : Handle) (c : Canvas) :
    ((s.drawn h c).slot h).canvas = { (s.slot h).canvas with buf := c.buf } := by simp [Slot.canvas]

/-- What drawing points in a mode on a frame does (R180 to R182). -/
theorem State.drawn_draws {s : State} {h : Handle} (hc : (s.slot h).canvas.Ok) (mode : Mode) (points : List Point) :
    s.Draws (s.drawn h ((s.slot h).canvas.paint (visitsOf mode points))) h mode points where
  frame := s.drawn_onlyBitmap h _
  answer := rfl
  pixels := by
    intro x y hr
    rw [State.pixel, State.drawn_canvas, ← foldl_visitsOf]
    exact Canvas.getPixel_paint (c := (s.slot h).canvas) hc _ hr ▸ by
      rw [Canvas.getPixel_eq, Canvas.getPixel_eq]; simp [Canvas.bit]
  written := by
    intro k o
    rw [State.drawn_ws, List.mem_map]
    constructor
    · rintro ⟨o', ho', e⟩
      obtain ⟨rfl, rfl⟩ := Prod.mk.inj e
      rcases (Canvas.mem_paint_ws _ _ _).1 ho' with ho' | ⟨v, hv, hr, hw, ho'⟩
      · simp at ho'
      · obtain ⟨p, hp, rfl⟩ := List.mem_map.1 hv
        exact ⟨rfl, hw, p, hp, hr, ho'⟩
    · rintro ⟨rfl, hw, p, hp, hr, rfl⟩
      exact ⟨_, (Canvas.mem_paint_ws _ _ _).2 (.inr ⟨⟨p.1, p.2, mode⟩, List.mem_map_of_mem hp, hr, hw, rfl⟩), rfl⟩
  bytes := by
    intro o ho
    rw [State.byte, State.drawn_slot_self]
    refine Canvas.read_paint hc _ fun h' => ho ?_
    rw [State.drawn_ws]
    exact List.mem_map_of_mem h'

/-- What replacing a frame's picture does, from what the new canvas shows. -/
theorem State.drawn_redraws {s : State} {h : Handle} {c : Canvas} {picture : Int → Int → Bool} {stores : Nat → Prop}
    (width : c.width = (s.slot h).width) (height : c.height = (s.slot h).height)
    (pixels : ∀ x y, s.inRange h x y = true → c.getPixel x y = picture x y)
    (written : ∀ o, o ∈ c.ws ↔ stores o)
    (bytes : ∀ o, o ∉ c.ws → c.buf.read o = (s.slot h).buf.read o) : s.Redraws (s.drawn h c) h picture stores where
  frame := s.drawn_onlyBitmap h _
  answer := rfl
  pixels := by
    intro x y hr
    rw [← pixels x y hr, State.pixel, State.drawn_canvas, Canvas.getPixel_eq, Canvas.getPixel_eq, width, height]
    rfl
  written := by
    intro k o
    rw [State.drawn_ws, List.mem_map, ← written]
    constructor
    · rintro ⟨o', ho', e⟩
      obtain ⟨rfl, rfl⟩ := Prod.mk.inj e
      exact ⟨rfl, ho'⟩
    · rintro ⟨rfl, ho⟩
      exact ⟨o, ho, rfl⟩
  bytes := by
    intro o ho
    rw [State.byte, State.drawn_slot_self]
    exact bytes o fun h' => ho ((written o).1 h')

/-- Replacing a frame's picture by visits in modes that write. -/
theorem State.drawn_redraws_paint {s : State} {h : Handle} (hc : (s.slot h).canvas.Ok) {visits : List PixelOp}
    {picture : Int → Int → Bool} {region : Int → Int → Prop}
    (pixels : ∀ x y, s.inRange h x y = true → ((s.slot h).canvas.paint visits).getPixel x y = picture x y)
    (writes : ∀ v ∈ visits, modeWrites v.mode = true)
    (visited : ∀ x y, s.inRange h x y = true → ((∃ v ∈ visits, v.x = x ∧ v.y = y) ↔ region x y)) :
    s.Redraws (s.drawn h ((s.slot h).canvas.paint visits)) h picture (s.bytesOf h region) := by
  refine State.drawn_redraws (by simp) (by simp) pixels (fun o => ?_) fun _ ho => Canvas.read_paint hc _ ho
  rw [Canvas.mem_paint_ws]
  constructor
  · rintro (h' | ⟨v, hv, hr, -, ho⟩)
    · simp at h'
    · exact ⟨v.x, v.y, hr, (visited _ _ hr).1 ⟨v, hv, rfl, rfl⟩, ho⟩
  · rintro ⟨x, y, hr, hreg, ho⟩
    obtain ⟨v, hv, rfl, rfl⟩ := (visited x y hr).2 hreg
    exact .inr ⟨v, hv, hr, writes v hv, ho⟩

/-! ## The pool -/

theorem sum_map_set {α : Type*} (f : α → Nat) (l : List α) (i : Nat) (a : α) (hi : i < l.length) :
    ((l.set i a).map f).sum + f l[i] = (l.map f).sum + f a := by
  induction l generalizing i with
  | nil => simp at hi
  | cons b l ih =>
    cases i with
    | zero => simp only [List.set_cons_zero, List.map_cons, List.sum_cons, List.getElem_cons_zero]; omega
    | succ i =>
      have := ih i (by simpa using hi)
      simp only [List.set_cons_succ, List.map_cons, List.sum_cons, List.getElem_cons_succ]
      omega

/-- `POOL_USED` when one slot changes (R47). -/
theorem Block.poolUsed_setSlot (b : Block) (h : Handle) (f : Slot) :
    (b.setSlot h f).poolUsed + (b.slot h).poolBytes = b.poolUsed + f.poolBytes := by
  have hlt : h.toNat < b.frames.toList.length := by simpa using h.isLt
  have := sum_map_set Slot.poolBytes b.frames.toList h.toNat f hlt
  simpa [Block.poolUsed, Block.setSlot, Block.slot, Vector.toList_set] using this

theorem Block.poolUsed_congr {a b : Block} (h : ∀ k, (a.slot k).poolBytes = (b.slot k).poolBytes) :
    a.poolUsed = b.poolUsed := by
  have : a.frames.toList.map Slot.poolBytes = b.frames.toList.map Slot.poolBytes := by
    apply List.ext_getElem (by simp)
    intro i hi hi'
    have := h (BitVec.ofNat 8 i)
    have hi : i < 256 := by simpa using hi
    simpa [Block.slot, Nat.mod_eq_of_lt hi] using this
  rw [Block.poolUsed, this, Block.poolUsed]

theorem mem_allHandles (h : Handle) : h ∈ allHandles ↔ h ≠ 0 := by
  simp only [allHandles, List.mem_map, List.mem_range]
  constructor
  · rintro ⟨k, hk, rfl⟩ e
    have := congrArg BitVec.toNat e
    simp at this
    omega
  · intro hne
    have h0 : h.toNat ≠ 0 := fun e => hne (BitVec.eq_of_toNat_eq (by simpa using e))
    have := h.isLt
    refine ⟨h.toNat - 1, by omega, BitVec.eq_of_toNat_eq ?_⟩
    simp; omega

theorem allHandles_sorted : allHandles.Pairwise fun a b => a.toNat < b.toNat := by
  rw [allHandles, List.pairwise_map]
  refine List.Pairwise.imp_of_mem ?_ List.pairwise_lt_range
  intro a b ha hb hab
  simp only [List.mem_range] at ha hb
  simp only [BitVec.toNat_ofNat]
  omega

/-- The handle `Alloc` gives is the lowest free one (R95). -/
theorem State.freeHandle_eq_some {s : State} {h : Handle} (hf : s.freeHandle = some h) :
    h ≠ 0 ∧ h.toNat ≤ s.params.maxFrames ∧ (s.slot h).live = false
      ∧ ∀ k, k ≠ 0 → k.toNat < h.toNat → (s.slot k).live = true := by
  have hs := allHandles_sorted
  rw [State.freeHandle, List.find?_eq_some_iff_append] at hf
  obtain ⟨hp, as, bs, hl, has⟩ := hf
  simp only [Bool.and_eq_true, decide_eq_true_eq, Bool.not_eq_true'] at hp
  refine ⟨(mem_allHandles h).1 (by simp [hl]), hp.1, hp.2, fun k hk hlt => ?_⟩
  have hmem : k ∈ as := by
    have : k ∈ allHandles := (mem_allHandles k).2 hk
    rw [hl, List.mem_append, List.mem_cons] at this
    rcases this with h1 | rfl | h1
    · exact h1
    · omega
    · rw [hl, List.pairwise_append] at hs
      have := (List.pairwise_cons.1 hs.2.1).1 k h1
      omega
  have := has k hmem
  have hle : k.toNat ≤ s.params.maxFrames := by omega
  simpa [hle] using this

/-- Every handle is in use when `Alloc` finds none (R95). -/
theorem State.freeHandle_eq_none {s : State} (hf : s.freeHandle = none) (k : Handle) (hk : k ≠ 0)
    (hle : k.toNat ≤ s.params.maxFrames) : (s.slot k).live = true := by
  rw [State.freeHandle, List.find?_eq_none] at hf
  simpa [hle] using hf k ((mem_allHandles k).2 hk)

/-- What a creating command does: either `Alloc` gives a handle, the environment has let it, and the new slot stands there; or
nothing is created and the answer is NO_MEMORY (R95, R150). -/
theorem State.create_cases (s : State) (n : Nat) (make : Slot → Slot) (ws : List Nat) :
    (∃ h, s.freeHandle = some h ∧ s.blk.poolUsed + n ≤ s.params.poolBytes ∧ (s.env.alloc.next Config.allocOk).1 = true ∧
      s.create n make ws =
        ((({ s with env := { s.env with alloc := (s.env.alloc.next Config.allocOk).2 } } : State).setSlot h
          (make (s.slot h))).reply (ws.map fun o => (h, o)) .ok (handleValue h))) ∨
    (∃ env, s.create n make ws = ({ s with env := env } : State).fail .noMemory ∧
      (s.freeHandle = none ∨ s.params.poolBytes < s.blk.poolUsed + n
        ∨ (s.env.alloc.next Config.allocOk).1 = false)) := by
  unfold State.create State.allocate
  cases hf : s.freeHandle with
  | none => exact .inr ⟨s.env, rfl, .inl rfl⟩
  | some h =>
    by_cases hp : s.params.poolBytes < s.blk.poolUsed + n
    · exact .inr ⟨s.env, by simp [hp], .inr (.inl hp)⟩
    · by_cases hd : (s.env.alloc.next Config.allocOk).1 = true
      · exact .inl ⟨h, rfl, by omega, hd, by simp [hp, hd]; rfl⟩
      · have hd : (s.env.alloc.next Config.allocOk).1 = false := by simpa using hd
        exact .inr ⟨{ s.env with alloc := (s.env.alloc.next Config.allocOk).2 }, by simp [hp, hd], .inr (.inr hd)⟩

/-- `Alloc` gives the lowest free handle (R95). -/
theorem State.LowestFree.freeHandle {s : State} {h : Handle} (hl : s.LowestFree h) : s.freeHandle = some h := by
  cases hf : s.freeHandle with
  | none => simpa [hl.free] using State.freeHandle_eq_none hf h hl.pos hl.max
  | some k =>
    obtain ⟨k0, _, kf, klow⟩ := State.freeHandle_eq_some hf
    have h1 : ¬ k.toNat < h.toNat := fun hlt => by simpa [kf] using hl.lowest k k0 hlt
    have h2 : ¬ h.toNat < k.toNat := fun hlt => by simpa [hl.free] using klow h hl.pos hlt
    rw [BitVec.eq_of_toNat_eq (show k.toNat = h.toNat by omega)]

/-- What a creating command does when `Alloc` gives a handle (R95, R150). -/
theorem State.CanAlloc.create {s : State} {n : Nat} {h : Handle} (ha : s.CanAlloc n h) (make : Slot → Slot) (ws : List Nat) :
    s.create n make ws =
      ((({ s with env := { s.env with alloc := (s.env.alloc.next Config.allocOk).2 } } : State).setSlot h
        (make (s.slot h))).reply (ws.map fun o => (h, o)) .ok (handleValue h)) := by
  have hf := ha.handle.freeHandle
  rcases s.create_cases n make ws with ⟨k, hk, _, _, e⟩ | ⟨_, _, hn | hn | hn⟩
  · rw [hf] at hk; cases hk; exact e
  · simp [hf] at hn
  · exact absurd ha.pool (by omega)
  · simp [ha.drawn] at hn

/-- What a creating command does when `Alloc` fails (R95, R150). -/
theorem State.CannotAlloc.create {s : State} {n : Nat} (ha : s.CannotAlloc n) (make : Slot → Slot) (ws : List Nat) :
    ∃ env, s.create n make ws = ({ s with env := env } : State).fail .noMemory := by
  rcases s.create_cases n make ws with ⟨k, hk, hp, hd, _⟩ | ⟨env, e, _⟩
  · obtain ⟨k0, kmax, kf, _⟩ := State.freeHandle_eq_some hk
    rcases ha with ha | ha | ha
    · simpa [kf] using ha k k0 kmax
    · omega
    · simp [hd] at ha
  · exact ⟨env, e⟩

/-! ## The registry -/

theorem State.running_iff (s : State) (d : Handle) : s.running d = true ↔ some d ∈ s.blk.registry := by
  simp [State.running, Block.running]

theorem Block.running_iff (b : Block) (d : Handle) : b.running d = true ↔ some d ∈ b.registry := by
  simp [Block.running]

/-- The lowest empty slot, filled (R300). -/
theorem fillLowestEmpty_eq_some {d : Handle} {l l' : List (Option Handle)} (h : fillLowestEmpty d l = some l') :
    ∃ before after, none ∉ before ∧ l = before ++ none :: after ∧ l' = before ++ some d :: after := by
  induction l generalizing l' with
  | nil => simp [fillLowestEmpty] at h
  | cons e l ih =>
    cases e with
    | none =>
      simp only [fillLowestEmpty, Option.some.injEq] at h
      exact ⟨[], l, by simp, rfl, h.symm⟩
    | some e =>
      simp only [fillLowestEmpty, Option.map_eq_some_iff] at h
      obtain ⟨l'', h1, rfl⟩ := h
      obtain ⟨before, after, h2, rfl, rfl⟩ := ih h1
      exact ⟨some e :: before, after, by simpa using h2, rfl, rfl⟩

theorem fillLowestEmpty_eq_none {d : Handle} {l : List (Option Handle)} (h : fillLowestEmpty d l = none) : none ∉ l := by
  induction l with
  | nil => simp
  | cons e l ih =>
    cases e with
    | none => simp [fillLowestEmpty] at h
    | some e =>
      simp only [fillLowestEmpty, Option.map_eq_none_iff] at h
      simpa using ih h

/-- What `Register` does to the slot list: nothing for a display that runs; the lowest empty slot; an append that the capacity
and the growth allow; or, skipped, nothing (R300). -/
theorem State.register_cases (s : State) (d : Handle) :
    (s.running d = true ∧ s.register d = s) ∨
    (s.running d = false ∧ ∃ before after, none ∉ before ∧ s.blk.registry = before ++ none :: after
      ∧ s.register d = { s with blk := { s.blk with registry := before ++ some d :: after } }) ∨
    (s.running d = false ∧ none ∉ s.blk.registry ∧ s.blk.registry.length < s.params.registryCapacity
      ∧ (s.env.grow.next Config.growOk).1 = true
      ∧ s.register d = { s with env := { s.env with grow := (s.env.grow.next Config.growOk).2 },
                                blk := { s.blk with registry := s.blk.registry ++ [some d] } }) ∨
    (s.running d = false ∧ none ∉ s.blk.registry
      ∧ (s.params.registryCapacity ≤ s.blk.registry.length ∨ (s.env.grow.next Config.growOk).1 = false)
      ∧ ∃ env, s.register d = { s with env := env }) := by
  unfold State.register
  by_cases hr : s.running d = true
  · exact .inl ⟨hr, by simp [hr]⟩
  · have hr : s.running d = false := by simpa using hr
    rw [hr]
    cases hl : fillLowestEmpty d s.blk.registry with
    | some l =>
      obtain ⟨before, after, h1, h2, rfl⟩ := fillLowestEmpty_eq_some hl
      exact .inr (.inl ⟨rfl, before, after, h1, h2, by simp⟩)
    | none =>
      have h1 := fillLowestEmpty_eq_none hl
      by_cases hc : s.params.registryCapacity ≤ s.blk.registry.length
      · exact .inr (.inr (.inr ⟨rfl, h1, .inl hc, s.env, by simp [hc]⟩))
      · by_cases hg : (s.env.grow.next Config.growOk).1 = true
        · exact .inr (.inr (.inl ⟨rfl, h1, by omega, hg, by simp [hc, hg]⟩))
        · have hg : (s.env.grow.next Config.growOk).1 = false := by simpa using hg
          exact .inr (.inr (.inr ⟨rfl, h1, .inr hg, _, by simp [hc, hg]; rfl⟩))

/-- A registration touches no slot of the frame table. -/
@[simp] theorem State.register_slot (s : State) (d h : Handle) : (s.register d).slot h = s.slot h := by
  rcases s.register_cases d with ⟨_, e⟩ | ⟨_, _, _, _, _, e⟩ | ⟨_, _, _, _, e⟩ | ⟨_, _, _, _, e⟩ <;> rw [e] <;> rfl

@[simp] theorem State.register_rest (s : State) (d : Handle) :
    (s.register d).params = s.params ∧ (s.register d).port = s.port ∧ (s.register d).input = s.input
      ∧ (s.register d).ws = s.ws ∧ (s.register d).blk.timerArmed = s.blk.timerArmed
      ∧ (s.register d).blk.responses = s.blk.responses ∧ (s.register d).blk.frames = s.blk.frames := by
  rcases s.register_cases d with ⟨_, e⟩ | ⟨_, _, _, _, _, e⟩ | ⟨_, _, _, _, e⟩ | ⟨_, _, _, _, e⟩ <;> rw [e] <;>
    exact ⟨rfl, rfl, rfl, rfl, rfl, rfl, rfl⟩

theorem mem_unregisterSlots {d e : Handle} {l : List (Option Handle)} :
    some e ∈ unregisterSlots d l ↔ some e ∈ l ∧ e ≠ d := by
  simp only [unregisterSlots, List.mem_map]
  constructor
  · rintro ⟨x, hx, h⟩
    split at h
    · simp at h
    · subst h; exact ⟨hx, fun h' => ‹¬some e = some d› (by rw [h'])⟩
  · rintro ⟨h, hne⟩
    exact ⟨some e, h, by simp [hne]⟩

@[simp] theorem unregisterSlots_length (d : Handle) (l : List (Option Handle)) :
    (unregisterSlots d l).length = l.length := by simp [unregisterSlots]

/-- Some slot is occupied when some display runs (R301). -/
theorem anyOccupied_iff (l : List (Option Handle)) : anyOccupied l = true ↔ ∃ d, some d ∈ l := by
  simp only [anyOccupied, List.any_eq_true, Option.isSome_iff_exists]
  constructor
  · rintro ⟨x, hx, d, rfl⟩; exact ⟨d, hx⟩
  · rintro ⟨d, hd⟩; exact ⟨_, hd, d, rfl⟩

/-! ## Output events -/

/-- Emitting events changes only the trace and the output registers, and appends the events to the trace (R50). -/
theorem Slot.emitAll_rest (f : Slot) (es : List OutEvent) :
    f.emitAll es = { f with oe := (f.emitAll es).oe, latch := (f.emitAll es).latch, rs0 := (f.emitAll es).rs0,
                            rs1 := (f.emitAll es).rs1, trace := f.trace ++ es } := by
  induction es generalizing f with
  | nil => simp [Slot.emitAll]
  | cons e es ih =>
    have h : f.emitAll (e :: es) = (f.emit e).emitAll es := rfl
    rw [h, ih (f.emit e)]
    cases e <;> simp [Slot.emit]

theorem Slot.emitAll_append (f : Slot) (es es' : List OutEvent) : f.emitAll (es ++ es') = (f.emitAll es).emitAll es' := by
  simp [Slot.emitAll]

/-- Row data changes no line (R50). -/
theorem Slot.emitAll_sends (f : Slot) (bs : List Byte) :
    f.emitAll (bs.map .send) = { f with trace := f.trace ++ bs.map .send } := by
  induction bs generalizing f with
  | nil => simp [Slot.emitAll]
  | cons b bs ih =>
    have h : f.emitAll ((b :: bs).map .send) = (f.emit (.send b)).emitAll (bs.map .send) := rfl
    rw [h, ih]
    simp [Slot.emit]

theorem sendEvents_eq_map (read : Nat → Byte) (rb : Nat) (sr : BitVec 2) :
    sendEvents read rb sr = ((List.range rb).flatMap fun i =>
      [3, 2, 1, 0].map fun j => read (rowOffset rb (sr.toNat + Config.groupRows * j) i)).map .send := by
  simp [sendEvents, List.map_flatMap]

/-- What a scan step that is not skipped makes of the display (R275 to R279). -/
theorem Slot.scan_eq (f : Slot) (read : Nat → Byte) :
    f.scan read =
      { f with scanRow := f.scanRow + 1, oe := .driven (brightnessLevel f.brightness), latch := .driven false,
               rs0 := .driven (f.scanRow.getLsbD 0), rs1 := .driven (f.scanRow.getLsbD 1),
               trace := f.trace ++ scanEvents read (rowBytes f.width f.height) f.scanRow f.brightness } := by
  rw [Slot.scan, scanEvents, Slot.emitAll_append, sendEvents_eq_map, Slot.emitAll_sends]
  simp [Slot.emitAll, Slot.emit]

/-- A scan step writes only the fields a tick may write (R85). -/
theorem Slot.scan_withScanOf (f : Slot) (read : Nat → Byte) : f.scan read = f.withScanOf (f.scan read) := by
  rw [Slot.scan_eq]; rfl

theorem sendEvents_eq (read : Nat → Byte) (rb : Nat) (sr : BitVec 2) :
    sendEvents read rb sr = (sentOffsets rb sr.toNat).map fun o => .send (read o) := by
  simp [sendEvents, sentOffsets, List.map_flatMap, rowOffset, Config.groupRows]

/-- A scan step is what R275 says it is. -/
theorem Slot.scan_eq_afterStep (f : Slot) (read : Nat → Byte) : f.scan read = f.afterStep read := by
  rw [Slot.scan_eq, scanEvents, sendEvents_eq, Slot.afterStep, controlEvents, ← List.append_assoc]
  rfl

/-! ## The scan step and the tick -/

/-- What a scan step of display `d` does: skipped, it changes nothing but the draw of the guard sample; else the display is
scanned (R271, R275). -/
theorem State.scanStep_cases (s : State) (view : View) (d : Handle) :
    ((s.slot d).guardEn = true ∧ (s.env.guard.next Config.guardSample).1 = true ∧
      s.scanStep view d = { s with env := { s.env with guard := (s.env.guard.next Config.guardSample).2 } }) ∨
    (((s.slot d).guardEn = false ∨ (s.env.guard.next Config.guardSample).1 = false) ∧ ∃ guard,
      s.scanStep view d =
        ({ s with env := { s.env with guard := guard } } : State).setSlot d ((s.slot d).scan (view d))) := by
  unfold State.scanStep
  by_cases hg : (s.slot d).guardEn = true
  · by_cases hs : (s.env.guard.next Config.guardSample).1 = true
    · exact .inl ⟨hg, hs, by simp [hg, hs]⟩
    · exact .inr ⟨.inr (by simpa using hs), _, by simp [hg, hs]; rfl⟩
  · exact .inr ⟨.inl (by simpa using hg), s.env.guard, by simp [hg]⟩

/-- A scan step of one display leaves every other slot as it was. -/
theorem State.scanStep_slot_of_ne (s : State) (view : View) {d k : Handle} (hk : k ≠ d) :
    (s.scanStep view d).slot k = s.slot k := by
  rcases s.scanStep_cases view d with ⟨_, _, e⟩ | ⟨_, g, e⟩ <;> rw [e]
  · rfl
  · exact State.slot_setSlot_of_ne _ _ hk

/-- A scan step leaves the display as it was or scans it. -/
theorem State.scanStep_slot_self (s : State) (view : View) (d : Handle) :
    (s.scanStep view d).slot d = s.slot d ∧ (s.slot d).guardEn = true
      ∨ (s.scanStep view d).slot d = (s.slot d).scan (view d) := by
  rcases s.scanStep_cases view d with ⟨h, _, e⟩ | ⟨_, g, e⟩ <;> rw [e]
  · exact .inl ⟨rfl, h⟩
  · exact .inr (by simp)

/-- A scan step changes no field but one slot and the draws of the guard. -/
@[simp] theorem State.scanStep_rest (s : State) (view : View) (d : Handle) :
    (s.scanStep view d).params = s.params ∧ (s.scanStep view d).port = s.port ∧ (s.scanStep view d).input = s.input
      ∧ (s.scanStep view d).ws = s.ws ∧ (s.scanStep view d).blk.registry = s.blk.registry
      ∧ (s.scanStep view d).blk.timerArmed = s.blk.timerArmed
      ∧ (s.scanStep view d).blk.responses = s.blk.responses
      ∧ (s.scanStep view d).env.alloc = s.env.alloc ∧ (s.scanStep view d).env.grow = s.env.grow
      ∧ (s.scanStep view d).env.tornTicks = s.env.tornTicks := by
  rcases s.scanStep_cases view d with ⟨_, _, e⟩ | ⟨_, g, e⟩ <;> rw [e] <;>
    exact ⟨rfl, rfl, rfl, rfl, rfl, rfl, rfl, rfl, rfl, rfl⟩

/-- A run of scan steps over distinct displays: each is stepped at most once, every other slot is as it was, and nothing else
changes but the draws of the guard (R305). -/
theorem State.foldl_scanStep (view : View) (ds : List Handle) (hnd : ds.Nodup) (s : State) :
    let t := ds.foldl (fun s d => s.scanStep view d) s
    (∀ d ∈ ds, t.slot d = s.slot d ∧ (s.slot d).guardEn = true ∨ t.slot d = (s.slot d).scan (view d))
      ∧ (∀ k, k ∉ ds → t.slot k = s.slot k)
      ∧ t.params = s.params ∧ t.port = s.port ∧ t.input = s.input ∧ t.ws = s.ws
      ∧ t.blk.registry = s.blk.registry ∧ t.blk.timerArmed = s.blk.timerArmed ∧ t.blk.responses = s.blk.responses
      ∧ t.env.alloc = s.env.alloc ∧ t.env.grow = s.env.grow ∧ t.env.tornTicks = s.env.tornTicks := by
  induction ds generalizing s with
  | nil => simp
  | cons d ds ih =>
    obtain ⟨hd, hnd⟩ := List.nodup_cons.1 hnd
    obtain ⟨h1, h2, h3⟩ := ih hnd (s.scanStep view d)
    have hr := s.scanStep_rest view d
    refine ⟨?_, ?_, ?_⟩
    · intro e he
      by_cases hed : e = d
      · subst hed
        rw [List.foldl_cons, h2 e hd]
        exact s.scanStep_slot_self view e
      · have := h1 e ((List.mem_cons.1 he).resolve_left hed)
        rwa [State.scanStep_slot_of_ne s view hed] at this
    · intro k hk
      rw [List.mem_cons, not_or] at hk
      rw [List.foldl_cons, h2 k hk.2, State.scanStep_slot_of_ne s view hk.1]
    · obtain ⟨r1, r2, r3, r4, r5, r6, r7, r8, r9, r10⟩ := hr
      obtain ⟨g1, g2, g3, g4, g5, g6, g7, g8, g9, g10⟩ := h3
      simp only [List.foldl_cons]
      exact ⟨g1.trans r1, g2.trans r2, g3.trans r3, g4.trans r4, g5.trans r5, g6.trans r6, g7.trans r7, g8.trans r8,
        g9.trans r9, g10.trans r10⟩

theorem mem_registered (l : List (Option Handle)) (d : Handle) : d ∈ l.filterMap id ↔ some d ∈ l := by simp

end Sys2Proof.Machine
end

