-- ==== Sys2Proof/Laws/PerInstr.lean ====
section
/-!
SUPPORT. One lemma per command, for statements about every command as a term.
-/

namespace Sys2Proof.Laws

/-- A command's encoding is a header and as many operand words as its opcode takes (R110, R115). -/
def EncodeLength.Statement (i : Instr) : Prop := (encode i).length = 1 + i.op.nops

theorem EncodeLength.fnew w h : EncodeLength.Statement (.fnew w h) := rfl
theorem EncodeLength.fcopy fa : EncodeLength.Statement (.fcopy fa) := rfl
theorem EncodeLength.fassign fa fb : EncodeLength.Statement (.fassign fa fb) := rfl
theorem EncodeLength.ffree fa : EncodeLength.Statement (.ffree fa) := rfl
theorem EncodeLength.dnew pw ph g : EncodeLength.Statement (.dnew pw ph g) := rfl
theorem EncodeLength.setpix m fa x y : EncodeLength.Statement (.setpix m fa x y) := rfl
theorem EncodeLength.getpix fa x y : EncodeLength.Statement (.getpix fa x y) := rfl
theorem EncodeLength.fill fa on : EncodeLength.Statement (.fill fa on) := rfl
theorem EncodeLength.line m fa x1 y1 x2 y2 : EncodeLength.Statement (.line m fa x1 y1 x2 y2) := rfl
theorem EncodeLength.circle m fa xc yc r : EncodeLength.Statement (.circle m fa xc yc r) := rfl
theorem EncodeLength.box m fa x1 y1 x2 y2 : EncodeLength.Statement (.box m fa x1 y1 x2 y2) := rfl
theorem EncodeLength.fbox m fa x1 y1 x2 y2 : EncodeLength.Statement (.fbox m fa x1 y1 x2 y2) := rfl
theorem EncodeLength.move fa fx fy tx ty w h : EncodeLength.Statement (.move fa fx fy tx ty w h) := rfl
theorem EncodeLength.subf fa l t w h : EncodeLength.Statement (.subf fa l t w h) := rfl
theorem EncodeLength.copyin fa fb l t : EncodeLength.Statement (.copyin fa fb l t) := rfl
theorem EncodeLength.scrx fa d : EncodeLength.Statement (.scrx fa d) := rfl
theorem EncodeLength.scry fa d : EncodeLength.Statement (.scry fa d) := rfl
theorem EncodeLength.marqx fa d : EncodeLength.Statement (.marqx fa d) := rfl
theorem EncodeLength.marqy fa d : EncodeLength.Statement (.marqy fa d) := rfl
theorem EncodeLength.swap fa fb : EncodeLength.Statement (.swap fa fb) := rfl
theorem EncodeLength.bright fa l : EncodeLength.Statement (.bright fa l) := rfl
theorem EncodeLength.start fa : EncodeLength.Statement (.start fa) := rfl
theorem EncodeLength.stop fa : EncodeLength.Statement (.stop fa) := rfl
theorem EncodeLength.scan fa : EncodeLength.Statement (.scan fa) := rfl

end Sys2Proof.Laws
end

