-- ==== Sys2Proof/Laws/Shapes.lean ====
section
/-!
SUPPORT. The shapes of Machine/Shapes.lean: the circle's loop ends within its fuel and visits the points of its arc, none
skipped (spec/42_drawing.md R210), and a line's loop in its straight cases (R200).
-/

namespace Sys2Proof.Machine

/-! ## Circles -/

/-- What the loop of R210 keeps true: the error is the one Bresenham's circle defines, and the arc stays in its quarter. -/
structure CircleInv (r x y err : Int) : Prop where
  xLow : -r ≤ x
  xHigh : x ≤ 0
  yLow : 0 ≤ y
  yHigh : y ≤ r
  error : err = (x + 1) * (x + 1) + (y + 1) * (y + 1) - r * r

theorem CircleInv.start {r : Int} (hr : 0 ≤ r) : CircleInv r (-r) 0 (2 - 2 * r) :=
  ⟨le_refl _, by omega, le_refl _, hr, by ring⟩

/-- `y` is raised only below the radius. -/
theorem CircleInv.raise_y {r x y err : Int} (h : CircleInv r x y err) (he : err ≤ y) : y + 1 ≤ r := by
  have h1 := h.error
  have h2 := h.yLow
  have h3 := h.yHigh
  have h4 := mul_self_nonneg (x + 1)
  by_contra hn
  have : y = r := by omega
  subst this
  nlinarith

/-- One iteration keeps the invariant. -/
theorem CircleInv.iterate {r x y err : Int} (h : CircleInv r x y err) (hx : x < 0) :
    let y' := if err ≤ y then y + 1 else y
    let err' := if err ≤ y then err + 2 * (y + 1) + 1 else err
    CircleInv r (if x < err ∨ y' < err' then x + 1 else x) y'
      (if x < err ∨ y' < err' then err' + 2 * (x + 1) + 1 else err') := by
  have h0 := h.xLow
  have h1 := h.error
  have h2 := h.yLow
  have h3 := h.yHigh
  dsimp only
  have hy : CircleInv r x (if err ≤ y then y + 1 else y) (if err ≤ y then err + 2 * (y + 1) + 1 else err) := by
    split
    · exact ⟨h0, by omega, by omega, h.raise_y ‹_›, by rw [h1]; ring⟩
    · exact h
  generalize (if err ≤ y then y + 1 else y) = y' at hy ⊢
  generalize (if err ≤ y then err + 2 * (y + 1) + 1 else err) = err' at hy ⊢
  by_cases hc : x < err ∨ y' < err'
  · simp only [hc, if_true]
    exact ⟨by omega, by omega, hy.yLow, hy.yHigh, by rw [hy.error]; ring⟩
  · simpa only [hc, if_false] using hy

/-- One iteration moves: it raises `y`, or it leaves `y` and raises `x`. -/
theorem circle_moves {x y err : Int} (hx : x < 0) (hy : 0 ≤ y) :
    let y' := if err ≤ y then y + 1 else y
    let err' := if err ≤ y then err + 2 * (y + 1) + 1 else err
    x + y + 1 ≤ (if x < err ∨ y' < err' then x + 1 else x) + y' := by
  dsimp only
  by_cases he : err ≤ y
  · simp only [he, if_true]; split <;> omega
  · have : x < err := by omega
    simp only [he, if_false, this, true_or, if_true]; omega

/-- The loop has ended once its fuel covers what `x` and `y` still have to go. -/
theorem circleLoop_fuel {xc yc r : Int} (n m : Nat) {x y err : Int} (h : CircleInv r x y err)
    (hm : r - x - y ≤ m) (hn : m ≤ n) : circleLoop xc yc n x y err = circleLoop xc yc m x y err := by
  induction m generalizing n x y err with
  | zero =>
    have h1 := h.xHigh
    have h2 := h.yHigh
    have hx : x = 0 := by omega
    subst hx
    cases n with
    | zero => rfl
    | succ n => simp [circleLoop]
  | succ m ih =>
    obtain ⟨n, rfl⟩ : ∃ k, n = k + 1 := ⟨n - 1, by omega⟩
    unfold circleLoop
    by_cases hx : x < 0
    · have hk := circle_moves (err := err) hx h.yLow
      simp only [hx, if_true]
      rw [ih n (h.iterate hx) (by push_cast at hm; dsimp only at hk ⊢; omega) (by omega)]
    · simp [hx]

/-- The circle's points are those of the loop run to its end: more fuel than `2 * r` adds nothing (R210; log 17). -/
theorem circleLoop_enough (xc yc r : Int) {fuel : Nat} (hf : (2 * r).toNat ≤ fuel) :
    circleLoop xc yc fuel (-r) 0 (2 - 2 * r) = circlePoints xc yc r := by
  by_cases hr : 0 ≤ r
  · exact circleLoop_fuel fuel _ (CircleInv.start hr) (by omega) hf
  · have h0 : (2 * r).toNat = 0 := by omega
    rw [circlePoints, h0]
    cases fuel with
    | zero => rfl
    | succ f =>
      have : ¬ -r < 0 := by omega
      simp only [circleLoop, this, if_false]

/-- A radius of 0 or less visits no pixel (R210, R211). -/
theorem circlePoints_of_nonpos (xc yc : Int) {r : Int} (hr : r ≤ 0) : circlePoints xc yc r = [] := by
  have : (2 * r).toNat = 0 := by omega
  rw [circlePoints, this, circleLoop]

/-- The points `(a, y)` of the quarter `0 < a`, `0 ≤ y` that the circle of radius `r` about the origin visits: those the circle
passes nearest to along the axis of their larger side, a point on the diagonal only where it is needed (R210). -/
structure OnArc (r a y : Int) : Prop where
  outerA : y ≤ a → r * r ≤ a * a + a + y * y
  innerA : y < a → a * a - a + y * y < r * r
  outerY : a ≤ y → r * r ≤ y * y + y + a * a
  innerY : a < y → y * y - y + a * a < r * r
  diagonal : a = y → a * a - a + y * y + 1 < r * r

theorem OnArc.start {r : Int} (hr : 0 < r) : OnArc r r 0 :=
  ⟨fun _ => by nlinarith, fun _ => by nlinarith, fun h => by omega, fun h => by omega, fun h => by omega⟩

/-- A point of the arc stands no further out than the radius. -/
theorem OnArc.le_radius {r a y : Int} (h : OnArc r a y) (hr : 0 < r) (ha : 0 < a) (hy : 0 ≤ y) : a ≤ r := by
  by_contra hn
  have h1 : r * r + 2 * r + 1 ≤ a * a := by nlinarith
  rcases lt_trichotomy y a with hlt | heq | hgt
  · have := h.innerA hlt; nlinarith
  · have := h.diagonal heq.symm; nlinarith
  · have := h.innerY hgt; nlinarith

/-- One iteration goes on to a point of the arc, until the quarter is done (R210). -/
theorem OnArc.iterate {r x y err : Int} (h : OnArc r (-x) y) (inv : CircleInv r x y err) (hx : x < 0) :
    let y' := if err ≤ y then y + 1 else y
    let err' := if err ≤ y then err + 2 * (y + 1) + 1 else err
    let x' := if x < err ∨ y' < err' then x + 1 else x
    x' < 0 → OnArc r (-x') y' := by
  obtain ⟨h1, h2, h3, h4, h5⟩ := h
  have he := inv.error
  have hy := inv.yLow
  obtain ⟨a, rfl⟩ : ∃ a, x = -a := ⟨-x, by ring⟩
  have he' : err = a * a - 2 * a + 1 + (y * y + 2 * y + 1) - r * r := by rw [he]; ring
  clear he inv
  dsimp only
  have e1 : (a - 1) * (a - 1) = a * a - 2 * a + 1 := by ring
  have e2 : (y + 1) * (y + 1) = y * y + 2 * y + 1 := by ring
  rw [neg_neg] at h1 h2 h3 h4 h5
  by_cases hs : err ≤ y
  · simp only [hs, if_true]
    by_cases hc : -a < err ∨ y + 1 < err + 2 * (y + 1) + 1
    · simp only [hc, if_true]
      rw [show -(-a + 1) = a - 1 by ring]
      intro ha
      constructor <;> intro hh <;> (try rw [e1]) <;> (try rw [e2]) <;> generalize a * a = A at * <;> generalize y * y = Y at * <;>
        generalize r * r = R at * <;> omega
    · simp only [hc, if_false]
      obtain ⟨n1, n2⟩ := not_or.1 hc
      clear hc
      rw [neg_neg]
      intro ha
      constructor <;> intro hh <;> (try rw [e2]) <;> generalize a * a = A at * <;> generalize y * y = Y at * <;>
        generalize r * r = R at * <;> omega
  · have hc : -a < err ∨ y < err := .inr (by omega)
    simp only [hs, if_false, hc, if_true]
    rw [show -(-a + 1) = a - 1 by ring]
    intro ha
    constructor <;> intro hh <;> (try rw [e1]) <;> generalize a * a = A at * <;> generalize y * y = Y at * <;>
        generalize r * r = R at * <;> omega

/-- One iteration skips no point of the arc (R210). -/
theorem OnArc.skips_none {r x y err a b : Int} (h : OnArc r (-x) y) (inv : CircleInv r x y err) (hx : x < 0)
    (hab : OnArc r a b) (ha : 0 < a) (hax : a ≤ -x) (hyb : y ≤ b) (hne : a ≠ -x ∨ b ≠ y) :
    let y' := if err ≤ y then y + 1 else y
    let err' := if err ≤ y then err + 2 * (y + 1) + 1 else err
    a ≤ -(if x < err ∨ y' < err' then x + 1 else x) ∧ y' ≤ b := by
  obtain ⟨h1, h2, h3, h4, h5⟩ := h
  obtain ⟨g1, g2, g3, g4, g5⟩ := hab
  have he := inv.error
  have hy := inv.yLow
  obtain ⟨c, rfl⟩ : ∃ c, x = -c := ⟨-x, by ring⟩
  have he' : err = c * c - 2 * c + 1 + (y * y + 2 * y + 1) - r * r := by rw [he]; ring
  clear he inv
  dsimp only
  rw [neg_neg] at h1 h2 h3 h4 h5 hax hne
  -- a point further along the arc in the same row: its square is at most that of the next column
  have rowBelow : b = y → a < c → (err ≤ y → False) := by
    rintro rfl hlt hs
    have q : a * a + a ≤ c * c - c := by nlinarith
    have q2 : a * a ≤ c * c - 2 * c + 1 := by nlinarith
    rcases le_total b a with hba | hba
    · have := g1 hba
      have hbc : b < c := by omega
      have := h2 hbc
      omega
    · have := g3 hba
      omega
  -- a point further up in the same column: its square is at least that of the next row
  have colAbove : a = c → y < b →
      (-c < err ∨ (if err ≤ y then y + 1 else y) < (if err ≤ y then err + 2 * (y + 1) + 1 else err)) → False := by
    rintro rfl hlt hc
    have q : y * y + y ≤ b * b - b := by nlinarith
    have q2 : y * y + 2 * y + 1 ≤ b * b := by nlinarith
    rcases lt_trichotomy b a with hba | hba | hba
    · have := g2 hba
      split at hc <;> omega
    · have := g5 hba.symm
      subst hba
      rcases lt_or_ge (y + 1) b with hb | hb
      · have q3 : y * y + 4 * y + 4 ≤ b * b := by nlinarith
        split at hc <;> omega
      · have : b = y + 1 := by omega
        subst this
        have ex : (y + 1) * (y + 1) = y * y + 2 * y + 1 := by ring
        simp only [ex] at this he'
        split at hc <;> omega
    · have := g4 hba
      rcases le_total a y with hay | hay
      · have := h3 hay
        omega
      · by_cases hay' : y = a
        · subst hay'
          have := h3 le_rfl
          omega
        · have q4 : a * a + a ≤ b * b - b := by nlinarith
          have q5 : y * y ≤ (a - 1) * (a - 1) := mul_self_le_mul_self hy (by omega)
          rw [show (a - 1) * (a - 1) = a * a - 2 * a + 1 by ring] at q5
          have := h1 (by omega)
          omega
  constructor
  · by_cases hc : -c < err ∨ (if err ≤ y then y + 1 else y) < (if err ≤ y then err + 2 * (y + 1) + 1 else err)
    · simp only [hc, if_true]
      by_contra hn
      have hac : a = c := by omega
      have : y < b := by omega
      exact colAbove hac this hc
    · simp only [hc, if_false]; omega
  · by_cases hs : err ≤ y
    · simp only [hs, if_true]
      by_contra hn
      have hby : b = y := by omega
      exact rowBelow hby (by omega) hs
    · simp only [hs, if_false]; omega

/-! ## Lines -/

@[simp] theorem lineLoop_length (da db sa sb : Int) (n : Nat) (a b frac : Int) :
    (lineLoop da db sa sb n a b frac).length = n := by
  induction n generalizing a b frac with
  | zero => rfl
  | succ n ih => simp [lineLoop, ih]

/-- A loop whose minor axis never moves visits one straight run of pixels. -/
theorem lineLoop_straight (da sa sb : Int) (n : Nat) (a b frac : Int) (hf : frac < 0) :
    lineLoop da 0 sa sb n a b frac = (List.range n).map fun (k : Nat) => (a + sa * ((k : Int) + 1), b) := by
  induction n generalizing a with
  | zero => rfl
  | succ n ih =>
    have : ¬ 0 ≤ frac := by omega
    rw [lineLoop]
    simp only [this, if_false, add_zero, ih, List.range_succ_eq_map, List.map_cons, List.map_map]
    congr 1
    · simp
    · apply List.map_congr_left
      intro k _
      simp only [Function.comp, Prod.mk.injEq, and_true]
      push_cast
      ring

end Sys2Proof.Machine
end

