-- ==== Sys2Proof/Laws/Tick.lean ====
section
/-!
SUPPORT. One law per transition: the tick (spec/45_registry.md R305), the two transitions of a command (spec/20_memory.md R85)
and the step.
-/

namespace Sys2Proof.Machine

/-! ## The tick -/

/-- What a tick changes: nothing but the slots of the displays that run, of those only the fields a tick writes, and the draws
of the guard (R85, R307 d). -/
structure State.OnlyTicked (s t : State) : Prop where
  running : ∀ d, s.running d = true →
    t.slot d = s.slot d ∧ (s.slot d).guardEn = true ∨ ∃ read, t.slot d = (s.slot d).scan read
  stopped : ∀ k, s.running k = false → t.slot k = s.slot k
  outside : s.SameOutside t
  ws : t.ws = s.ws
  scheduler : s.SameScheduler t
  responses : t.blk.responses = s.blk.responses
  alloc : t.env.alloc = s.env.alloc
  grow : t.env.grow = s.env.grow

theorem State.OnlyTicked.refl_of_stopped {s : State} (h : ∀ d, s.running d = false) : s.OnlyTicked s :=
  ⟨fun d hd => by simp [h d] at hd, fun _ _ => rfl, ⟨rfl, rfl, rfl⟩, rfl, ⟨rfl, rfl⟩, rfl, rfl, rfl⟩

/-- A tick while displays run in distinct slots steps each of them at most once and touches nothing else (R305). -/
theorem State.runTick_only {s : State} (hnd : (s.blk.registry.filterMap id).Nodup) (view : View) :
    s.OnlyTicked (s.runTick view) ∧ (s.runTick view).env.tornTicks = s.env.tornTicks := by
  obtain ⟨h1, h2, h3, h4, h5, h6, h7, h8, h9, h10, h11, h12⟩ := State.foldl_scanStep view _ hnd s
  refine ⟨⟨fun d hd => ?_, fun k hk => ?_, ⟨h3, h4, h5⟩, h6, ⟨h7, h8⟩, h9, h10, h11⟩, h12⟩
  · exact (h1 d ((mem_registered _ _).2 ((s.running_iff d).1 hd))).imp id fun h => ⟨_, h⟩
  · refine h2 k fun hm => ?_
    rw [mem_registered, ← State.running_iff, hk] at hm
    exact Bool.false_ne_true hm

/-- A display a tick steps exactly once, by the view the tick has (R305). -/
theorem State.runTick_running {s : State} (hnd : (s.blk.registry.filterMap id).Nodup) (view : View) {d : Handle}
    (hd : s.running d = true) :
    (s.runTick view).slot d = s.slot d ∧ (s.slot d).guardEn = true
      ∨ (s.runTick view).slot d = (s.slot d).scan (view d) :=
  (State.foldl_scanStep view _ hnd s).1 d ((mem_registered _ _).2 ((s.running_iff d).1 hd))

theorem State.takeTick_armed {s : State} (h : s.blk.timerArmed = true) (view : View) :
    s.takeTick view = s.runTick view := by simp [State.takeTick, h]

/-- A tick that falls while the timer is disarmed is lost (R336). -/
theorem State.takeTick_disarmed {s : State} (h : s.blk.timerArmed = false) (view : View) : s.takeTick view = s := by
  simp [State.takeTick, h]

@[simp] theorem State.returnFromTick_eq (s : State) : s.returnFromTick = s := rfl

theorem State.tickBetween_eq (s : State) : s.tickBetween = s.takeTick s.exactView := rfl

@[simp] theorem State.tickInside_blk (s : State) (s0 : Block) :
    (s.tickInside s0).blk = (s.takeTick (s.tornView s0)).blk := rfl

/-! ## The step -/

/-- What a step while the port is idle can be: a command taken, a tick, or waiting (R93, R110). -/
theorem stepIdle_cases (s : State) :
    (∃ cmd rest, takeCommand (leadingWords s.input) = some (cmd, rest)
      ∧ stepIdle s = takeAndRun cmd (s.input.drop cmd.length) s) ∨
    (takeCommand (leadingWords s.input) = none ∧ ∃ rest, withoutFirstTick s.input = some rest
      ∧ stepIdle s = .next ({ s with input := rest }).tickBetween) ∨
    (takeCommand (leadingWords s.input) = none ∧ withoutFirstTick s.input = none ∧ stepIdle s = .next s) := by
  unfold stepIdle
  cases h : takeCommand (leadingWords s.input) with
  | some p => exact .inl ⟨p.1, p.2, rfl, rfl⟩
  | none =>
    cases h' : withoutFirstTick s.input with
    | some rest => exact .inr (.inl ⟨rfl, rest, rfl, rfl⟩)
    | none => exact .inr (.inr ⟨rfl, rfl, rfl⟩)

/-- What a step while a command is in flight can be: a tick inside it, or its `END` (R85, R87). -/
theorem stepInFlight_cases (s0 s1 : Block) (s : State) :
    (∃ rest, s.input = .tickInCommand :: rest
      ∧ stepInFlight s0 s1 s = .next (({ s with input := rest }).tickInside s0)) ∨
    (tickComesInside s.input = false ∧ stepInFlight s0 s1 s = .next (s.endCommand s0 s1)) := by
  unfold stepInFlight
  cases h : s.input with
  | nil => exact .inr ⟨rfl, rfl⟩
  | cons i rest => cases i <;> first | exact .inl ⟨rest, rfl, rfl⟩ | exact .inr ⟨rfl, rfl⟩

end Sys2Proof.Machine
end

