-- ==== Sys2Proof/Tests/Slice0.lean ====
section
/-!
SUPPORT. Checks of the model against words and results written out from spec/, and for each obligation with hypotheses a concrete
case that meets them (`witness_<name of the obligation>`). Expected results are those of spec/95_test_vectors.md, or are counted
out by hand from the rule a test names.
-/

open Sys2Proof Sys2Proof.Machine

namespace Sys2Proof.Tests

-- One test after the other: checked all at once, the tests' threads would pass the memory limit.
set_option Elab.async false

/-! ## Well-formedness: R116, the ILLEGAL rows -/

theorem test_wellFormed_fill : (Instr.fill 1 2).wellFormed = false ∧ (Instr.fill 1 1).wellFormed = true := by decide
theorem test_wellFormed_dnew : (Instr.dnew 1 1 2).wellFormed = false ∧ (Instr.dnew 0 0 1).wellFormed = true := by decide
theorem test_wellFormed_bright : (Instr.bright 1 256).wellFormed = false ∧ (Instr.bright 1 (-1)).wellFormed = false
    ∧ (Instr.bright 1 255).wellFormed = true := by decide

/-! ## Decoding: the words of spec/95_test_vectors.md section 2 -/

theorem test_decode_lifecycle :
    decode [0x01000000, 0x0000000A, 0x00000005] = .ok (.fnew 10 5) ∧
    decode [0x02000100] = .ok (.fcopy 1) ∧
    decode [0x03000201] = .ok (.fassign 2 1) ∧
    decode [0x04000200] = .ok (.ffree 2) ∧
    decode [0x05000000, 0x00000002, 0x00000001, 0x00000001] = .ok (.dnew 2 1 1) := by decide +kernel

theorem test_decode_pixel :
    decode [0x10300100, 0x00000004, 0x00000003] = .ok (.setpix .nor 1 4 3) ∧
    decode [0x11000100, 0x00000004, 0x00000003] = .ok (.getpix 1 4 3) ∧
    decode [0x12000100, 0x00000001] = .ok (.fill 1 1) := by decide +kernel

theorem test_decode_drawing :
    decode [0x13400100, 0x00000000, 0x00000000, 0x00000009, 0x00000004] = .ok (.line .xor 1 0 0 9 4) ∧
    decode [0x14100100, 0x00000005, 0x00000002, 0x00000002] = .ok (.circle .off 1 5 2 2) ∧
    decode [0x15200100, 0x00000000, 0x00000000, 0x00000009, 0x00000004] = .ok (.box .or 1 0 0 9 4) ∧
    decode [0x16500100, 0x00000001, 0x00000001, 0x00000002, 0x00000002] = .ok (.fbox .inverse 1 1 1 2 2) := by
  decide +kernel

theorem test_decode_region :
    decode [0x20000100, 0x00000000, 0x00000000, 0x00000001, 0x00000001, 0x00000003, 0x00000002]
      = .ok (.move 1 0 0 1 1 3 2) ∧
    decode [0x21000100, 0x00000002, 0x00000001, 0x00000004, 0x00000003] = .ok (.subf 1 2 1 4 3) ∧
    decode [0x22000201, 0x0000FFFF, 0x0000FFFF] = .ok (.copyin 2 1 (-1) (-1)) ∧
    decode [0x23000100, 0x00000002] = .ok (.scrx 1 2) ∧
    decode [0x24000100, 0x0000FFFD] = .ok (.scry 1 (-3)) ∧
    decode [0x25000100, 0x00000005] = .ok (.marqx 1 5) ∧
    decode [0x26000100, 0x0000FFFF] = .ok (.marqy 1 (-1)) ∧
    decode [0x27000101] = .ok (.swap 1 1) := by decide +kernel

theorem test_decode_display :
    decode [0x30000100, 0x000000C8] = .ok (.bright 1 200) ∧
    decode [0x31000100] = .ok (.start 1) ∧
    decode [0x32000100] = .ok (.stop 1) ∧
    decode [0x33000100] = .ok (.scan 1) := by decide +kernel

/-- The illegal words of section 2, each with the check of R120 it fails. -/
theorem test_decode_illegal :
    decode [0x06000000] = .error .unassignedOpcode ∧
    decode [0xFF000000] = .error .unassignedOpcode ∧
    decode [0x05010000, 1, 1, 0] = .error .reservedField ∧
    decode [0x02100100] = .error .reservedField ∧
    decode [0x01000100, 1, 1] = .error .reservedField ∧
    decode [0x31000102] = .error .reservedField ∧
    decode [0x10700100, 0, 0] = .error .reservedMode ∧
    decode [0x10F00100, 0, 0] = .error .reservedMode ∧
    decode [0x30000100, 0x00010001] = .error .operandUpperHalf ∧
    decode [0x30000100, 0x00000100] = .error .enumeratedOperand ∧
    decode [0x12000100, 0x00000002] = .error .enumeratedOperand ∧
    decode [0x05000000, 1, 1, 2] = .error .enumeratedOperand := by decide +kernel

/-- The opcode table's numbering: the first word in bits 31..0, the next above it. -/
theorem test_decodeTableWord :
    decodeTableWord 32 0x01000000 = some (.fnew 0 0) ∧
    decodeTableWord 96 0x000000050000000A01000000 = some (.fnew 10 5) ∧
    decodeTableWord 32 0x06000000 = none := by decide +kernel

/-! ## The transform: spec/95_test_vectors.md section 3 -/

theorem test_transform :
    (pixelOffset 32 16 5 9, pixelMask 32 5 9) = (36, 0x04) ∧
    (pixelOffset 32 16 31 15, pixelMask 32 31 15) = (63, 0x01) ∧
    (pixelOffset 64 16 40 3, pixelMask 64 40 3) = (29, 0x80) ∧
    (pixelOffset 32 32 3 20, pixelMask 32 3 20) = (36, 0x10) ∧
    (pixelOffset 64 32 33 17, pixelMask 64 33 17) = (28, 0x40) ∧
    (pixelOffset 64 32 63 31, pixelMask 64 63 31) = (255, 0x01) ∧
    (pixelOffset 10 5 9 4, pixelMask 10 9 4) = (17, 0x40) ∧
    (pixelOffset 33 17 32 16, pixelMask 33 32 16) = (12, 0x80) ∧ bitmapSize 33 17 = 256 := by decide

/-! ## Small states -/

/-- Parameters inside the ranges of R8. -/
def params : Params :=
  { maxFrames := 7, poolBytes := 5000000, registryCapacity := 3, oeEnableLevel := true, latchActiveLevel := true,
    guardAssertedLevel := true, pwmPeriod := 255, tickPeriod := 4 }

/-- The machine after reset, with those parameters and known answers to the first draws. -/
def base : State :=
  { params := params, blk := Block.reset, port := .idle, ws := [], input := [],
    env := { alloc := ⟨[true, true], 0⟩, grow := ⟨[true, true], 0⟩, guard := ⟨[false], 0⟩, tornTicks := 0 } }

def plain (w h : Nat) (buf : Memory) : Slot := { Slot.reset with live := true, width := w, height := h, buf := buf }

def panel (guardEn : Bool) (buf : Memory) : Slot :=
  { plain 32 16 buf with isDisplay := true, brightness := 255, guardEn := guardEn }

/-- A machine whose frame 1 is this slot. -/
def holding (f : Slot) : State := base.setSlot 1 f

/-- A machine with a blank frame 1 of one panel. -/
def blank : State := holding (plain 32 16 [])

/-- The machine after the words of one command. -/
def after (cmd : List Word) (s : State) : State :=
  match runCommand cmd s with
  | .next t => t
  | .fault _ => s
  | .refused _ => s

/-- Frame 1's bitmap after the words of one command. -/
def drawn (cmd : List Word) (s : State) : Memory := ((after cmd s).slot 1).buf

/-- The response words of one command. -/
def answers (cmd : List Word) (s : State) : List Word := (after cmd s).responseWords

/-! ## One step per command: spec/95_test_vectors.md sections 4 to 18 -/

theorem test_fnew : answers [0x01000000, 10, 5] base = [0x00000001] ∧
    ((after [0x01000000, 10, 5] base).slot 1).width = 10 ∧ (after [0x01000000, 10, 5] base).blk.poolUsed = 64 := by
  decide +kernel
theorem test_fnew_geometry : answers [0x01000000, 0, 5] base = [0x03000000] := by decide +kernel

theorem test_fcopy : answers [0x02000100] (holding (plain 32 16 [(0, 0x7F)])) = [0x00000002] ∧
    ((after [0x02000100] (holding (plain 32 16 [(0, 0x7F)]))).slot 2).buf = [(0, 0x7F)] := by decide +kernel

theorem test_fassign :
    drawn [0x03000102] ((holding (plain 32 16 [(9, 0)])).setSlot 2 (plain 32 16 [(0, 0x7F)])) = [(0, 0x7F)] := by
  decide +kernel

theorem test_ffree : (after [0x04000100] blank).blk.poolUsed = 0 ∧ ((after [0x04000100] blank).slot 1).live = false := by
  decide +kernel
theorem test_ffree_running :
    let s := holding (panel false [])
    let t := after [0x04000100] { s with blk := { s.blk with registry := [some 1], timerArmed := true } }
    t.blk.registry = [none] ∧ t.blk.timerArmed = false := by decide +kernel

theorem test_dnew : answers [0x05000000, 2, 1, 1] base = [0x00000001] ∧
    ((after [0x05000000, 2, 1, 1] base).slot 1).width = 64 ∧ ((after [0x05000000, 2, 1, 1] base).slot 1).guardEn = true ∧
    ((after [0x05000000, 2, 1, 1] base).slot 1).brightness = 255 := by decide +kernel
/-- ILLEGAL comes before BAD_GEOMETRY (section 2, priority). -/
theorem test_dnew_priority : answers [0x05000000, 0, 1, 2] base = [0x01000000] := by decide +kernel

/-- Section 4: pixel (3,0), each mode from dark and from lit. -/
theorem test_setpix :
    (List.map (fun hdr => drawn [hdr, 3, 0] blank)
      [0x10000100, 0x10100100, 0x10200100, 0x10300100, 0x10400100, 0x10500100, 0x10600100])
      = [[(0, 0xEF)], [], [(0, 0xEF)], [], [(0, 0xEF)], [], []] ∧
    (List.map (fun hdr => drawn [hdr, 3, 0] (holding (plain 32 16 [(0, 0xEF)])))
      [0x10000100, 0x10100100, 0x10200100, 0x10300100, 0x10400100, 0x10500100, 0x10600100])
      = [[(0, 0xEF)], [], [(0, 0xEF)], [], [], [(0, 0xEF)], [(0, 0xEF)]] := by decide +kernel
theorem test_setpix_out : drawn [0x10000100, 32, 0] blank = [] ∧ (after [0x10000100, 32, 0] blank).ws = [] ∧
    answers [0x10000100, 0xFFFF, 3] blank = [0x00000000] := by decide +kernel

theorem test_getpix : answers [0x11000100, 5, 9] (holding (plain 32 16 [(36, 0xFB)])) = [0x00000001] ∧
    answers [0x11000100, 5, 9] blank = [0x00000000] := by decide +kernel
/-- Lit padding stays invisible (section 5). -/
theorem test_getpix_padding : answers [0x11000100, 10, 0] (holding (plain 10 5 [(1, 0)])) = [0x00000000] := by decide +kernel

theorem test_fill : ((after [0x12000100, 1] blank).ws.length = 64) ∧ (after [0x12000100, 1] blank).byte 1 63 = 0 ∧
    drawn [0x12000100, 0] (holding (plain 32 16 [(5, 0)])) = [] := by decide +kernel

theorem test_line : drawn [0x13000100, 0, 0, 5, 2] blank = [(0, 0x3F), (4, 0xCF), (8, 0xF3)] ∧
    drawn [0x13000100, 0, 0, 1, 5] blank = [(0, 0x7F), (4, 0x7F), (8, 0x7F), (12, 0xBF), (16, 0xBF), (20, 0xBF)] := by
  decide +kernel
/-- A line and its reverse differ where the true line is halfway (section 6). -/
theorem test_line_reverse : drawn [0x13000100, 0, 0, 4, 1] blank = [(0, 0x3F), (4, 0xC7)] ∧
    drawn [0x13000100, 4, 1, 0, 0] blank = [(0, 0x1F), (4, 0xE7)] := by decide +kernel

/-- The visit order of S10. -/
theorem test_circle_order : circlePoints 10 10 3 =
    [(13, 10), (10, 13), (7, 10), (10, 7), (13, 11), (9, 13), (7, 9), (11, 7), (12, 12), (8, 12), (8, 8), (12, 8),
     (11, 13), (7, 11), (9, 7), (13, 9)] := by decide +kernel
theorem test_circle : drawn [0x14000100, 10, 10, 2] blank =
      [(33, 0x8F), (37, 0x77), (41, 0x77), (45, 0x77), (49, 0x8F)] ∧
    drawn [0x14000100, 0, 0, 2] blank = [(0, 0xDF), (4, 0xDF), (8, 0x3F)] := by decide +kernel

theorem test_box : drawn [0x15000100, 4, 3, 1, 1] blank = [(4, 0x87), (8, 0xB7), (12, 0x87)] := by decide +kernel
theorem test_box_xor : drawn [0x15400100, 1, 1, 4, 3] blank = [(4, 0xCF), (8, 0xB7), (12, 0xCF)] ∧
    drawn [0x15400100, 1, 1, 4, 1] blank = [(4, 0xB7)] := by decide +kernel

theorem test_fbox : drawn [0x16400100, 3, 2, 1, 1] blank = [(4, 0x8F), (8, 0x8F)] ∧
    drawn [0x16000100, 0xFFFB, 0xFFFB, 1, 1] blank = [(0, 0x3F), (4, 0x3F)] := by decide +kernel

theorem test_move :
    drawn [0x20000100, 0, 0, 2, 2, 2, 2] (holding (plain 32 16 [(0, 0x1F), (4, 0x9F)]))
      = [(0, 0xDF), (4, 0xDF), (8, 0xCF), (12, 0xEF)] := by decide +kernel
theorem test_move_overlap :
    drawn [0x20000100, 1, 1, 0, 0, 2, 2] (holding (plain 32 16 [(0, 0x1F), (4, 0x9F)])) = [(0, 0x1F)] := by decide +kernel

theorem test_subf :
    answers [0x21000100, 32, 0, 8, 4] (holding (plain 64 16 [(20, 0xBF)])) = [0x00000002] ∧
    ((after [0x21000100, 32, 0, 8, 4] (holding (plain 64 16 [(20, 0xBF)]))).slot 2).buf = [(8, 0xBF)] := by decide +kernel
theorem test_subf_outside :
    ((after [0x21000100, 0xFFFE, 0xFFFE, 4, 4] (holding (plain 32 16 [(0, 0x7F), (4, 0xBF)]))).slot 2).buf
      = [(8, 0xDF), (12, 0xEF)] := by decide +kernel

/-- The snapshot is taken first, and column 0 is not covered (section 10). -/
theorem test_copyin_self :
    drawn [0x22000101, 1, 0] (holding (plain 6 4 [(0, 0x7F)])) = [(0, 0x3F)] := by decide +kernel
theorem test_copyin :
    drawn [0x22000102, 32, 0] ((holding (plain 64 16 [])).setSlot 2 (plain 8 4 [(8, 0xBF)])) = [(20, 0xBF)] := by
  decide +kernel

/-- A frame of 6 by 4 with (0,0), (5,0), (2,1) and (0,3) lit: sections 12 and 13, on a frame small enough for the kernel. -/
def corners : State := holding (plain 6 4 [(0, 0x7B), (4, 0xDF), (12, 0x7F)])

/-- By 1: (1,0), (3,1), (1,3). By the full width: nothing (R235). -/
theorem test_scrx : drawn [0x23000100, 1] corners = [(0, 0xBF), (4, 0xEF), (12, 0xBF)] ∧
    drawn [0x23000100, 0xFFFA] corners = [] := by decide +kernel
/-- By 3: (0,3), (5,3). By the full height: nothing (R236). -/
theorem test_scry : drawn [0x24000100, 3] corners = [(12, 0x7B)] ∧ drawn [0x24000100, 4] corners = [] := by decide +kernel
/-- By -7, which is -1 modulo 6: (5,0), (4,0), (1,1), (5,3) (R237). -/
theorem test_marqx : drawn [0x25000100, 0xFFF9] corners = [(0, 0xF3), (4, 0xBF), (12, 0xFB)] := by decide +kernel
/-- By 5, which is 1 modulo 4: (0,1), (5,1), (2,2), (0,0) (R238). -/
theorem test_marqy : drawn [0x26000100, 5] corners = [(0, 0x7F), (4, 0x7B), (8, 0xDF)] := by decide +kernel

theorem test_swap :
    let t := after [0x27000102] ((holding (panel true [(0, 0)])).setSlot 2 (plain 32 16 [(1, 1)]))
    (t.slot 1).buf = [(1, 1)] ∧ (t.slot 2).buf = [(0, 0)] ∧ (t.slot 1).isDisplay = true ∧ t.ws = [] := by decide +kernel

theorem test_bright : ((after [0x30000100, 254] (holding (panel false []))).slot 1).brightness = 254 ∧
    ((after [0x30000100, 254] (holding (panel false []))).slot 1).trace = [] := by decide +kernel
theorem test_bright_plain : answers [0x30000100, 10] blank = [0x02000000] := by decide +kernel

/-- The trace of P1, START: four events for the lines, 16 blank bytes, the six control events. -/
theorem test_start : ((after [0x31000100] (holding (panel false [(0, 0)]))).slot 1).trace =
    [.oe .off, .latch false, .rs0 false, .rs1 false,
     .send 0xFF, .send 0xFF, .send 0xFF, .send 0xFF, .send 0xFF, .send 0xFF, .send 0xFF, .send 0xFF,
     .send 0xFF, .send 0xFF, .send 0xFF, .send 0xFF, .send 0xFF, .send 0xFF, .send 0xFF, .send 0xFF,
     .oe .off, .latch true, .latch false, .rs0 false, .rs1 false, .oe .on] := by decide +kernel
theorem test_start_registers :
    let t := after [0x31000100] (holding (panel false [(0, 0)]))
    t.blk.registry = [some 1] ∧ t.blk.timerArmed = true ∧ (t.slot 1).scanRow = 1 := by decide +kernel

theorem test_stop :
    let s := (holding (panel false [])).setSlot 2 (panel false [])
    let t := after [0x32000100] { s with blk := { s.blk with registry := [some 1, some 2], timerArmed := true } }
    t.blk.registry = [none, some 2] ∧ t.blk.timerArmed = true ∧ t.responseWords = [0x00000001] := by decide +kernel
theorem test_stop_last :
    let s := holding (panel false [])
    let t := after [0x32000100] { s with blk := { s.blk with registry := [some 1], timerArmed := true } }
    t.blk.registry = [none] ∧ t.blk.timerArmed = false ∧ t.responseWords = [0x00000000] := by decide +kernel

/-- The stream of section 15: rows 12, 8, 4, 0 interleaved by byte column. -/
theorem test_scan :
    let t := after [0x33000100]
      (holding { panel true [(0, 0x7F), (4, 0x7F), (33, 0x7F), (37, 0xBF), (99, 0xFE)] with height := 32 })
    (t.slot 1).trace =
      [.send 0xFF, .send 0xFF, .send 0xFF, .send 0x7F, .send 0xFF, .send 0xFF, .send 0x7F, .send 0xFF,
       .send 0xFF, .send 0xFF, .send 0xFF, .send 0xFF, .send 0xFE, .send 0xFF, .send 0xFF, .send 0xFF,
       .send 0xFF, .send 0xFF, .send 0xFF, .send 0x7F, .send 0xFF, .send 0xFF, .send 0xBF, .send 0xFF,
       .send 0xFF, .send 0xFF, .send 0xFF, .send 0xFF, .send 0xFF, .send 0xFF, .send 0xFF, .send 0xFF,
       .oe .off, .latch true, .latch false, .rs0 false, .rs1 false, .oe .on] ∧ (t.slot 1).scanRow = 1 := by decide +kernel
/-- An asserted guard skips the step (section 16). -/
theorem test_scan_guard :
    let s := holding (panel true [])
    let t := after [0x33000100] { s with env := { s.env with guard := ⟨[true], 0⟩ } }
    (t.slot 1).trace = [] ∧ (t.slot 1).scanRow = 0 ∧ t.responseWords = [0x00000000] := by decide +kernel

/-! ## The port and the tick -/

/-- Reset, an instruction placed, one step: the host's way in runs it. -/
theorem test_withFetchWord :
    (match step (State.reset.withFetchWord 32 0x01000000) with
      | .next t => t.responseWords
      | .fault _ => []
      | .refused _ => []) = [0x03000000] := by decide +kernel

/-! ## A safe state for the witnesses -/

/-- `Slot.Inv`, computed. -/
def slotOk (p : Params) (h : Handle) (f : Slot) : Bool :=
  (if f.live then
    h != 0 && decide (h.toNat ≤ p.maxFrames) && decide (1 ≤ f.width) && decide (f.width ≤ 32767) && decide (1 ≤ f.height)
      && decide (f.height ≤ 32767) && f.buf.wf && f.buf.below (bitmapSize f.width f.height)
      && (!f.isDisplay || (f.width % 32 == 0 && f.height % 16 == 0))
   else f.buf == []) && f.oe != .driven (.pwm 255)

theorem slotOk_sound {p : Params} {h : Handle} {f : Slot} (ok : slotOk p h f = true) : f.Inv p h := by
  rw [slotOk, Bool.and_eq_true] at ok
  obtain ⟨ok, duty⟩ := ok
  refine ⟨fun hl => ?_, fun hl => ?_, by simpa [Config.brightnessFull] using duty⟩
  · rw [if_pos hl] at ok
    simp only [Bool.and_eq_true, decide_eq_true_eq, bne_iff_ne] at ok
    obtain ⟨⟨⟨⟨⟨⟨⟨⟨a, b⟩, c⟩, d⟩, e⟩, g⟩, i⟩, j⟩, k⟩ := ok
    refine ⟨a, b, c, d, e, g, i, j, fun hd => ?_⟩
    rw [hd] at k
    simpa [Config.panelWidth, Config.panelHeight] using k
  · rw [if_neg (by simp [hl])] at ok
    simpa using ok

/-- Frames of every kind: 1 a plain frame of one panel, 2 a plain frame with padding, 3 a stopped display with a guard line,
4 and 5 running displays without and with one; handles 6 and 7 are free. -/
def house : State :=
  let s := ((((base.setSlot 1 (plain 32 16 [(0, 0x7F)])).setSlot 2 (plain 10 5 [(4, 0xBF)])).setSlot 3
    (panel true [(9, 0)])).setSlot 4 (panel false [(60, 0xF0)])).setSlot 5 (panel true [])
  { s with blk := { s.blk with registry := [some 4, none, some 5], timerArmed := true } }

theorem params_legal : params.Legal := ⟨by decide, by decide, by decide, by decide⟩

theorem house_slots (h : Handle) : slotOk params h (house.blk.slot h) = true := by
  show slotOk params h (State.slot (State.setSlot _ _ _) h) = true
  rw [State.slot_setSlot]; split; · subst h; decide
  rw [State.slot_setSlot]; split; · subst h; decide
  rw [State.slot_setSlot]; split; · subst h; decide
  rw [State.slot_setSlot]; split; · subst h; decide
  rw [State.slot_setSlot]; split; · subst h; decide
  rw [show base.slot h = Slot.reset from Block.reset_slot h]
  rfl

theorem house_blk : house.blk.Inv params where
  slots h := slotOk_sound (house_slots h)
  pool := by decide +kernel
  capacity := by decide
  registered d hd := by
    have : d = 4 ∨ d = 5 := by simpa [house] using hd
    rcases this with rfl | rfl <;> decide +kernel
  once := by decide
  armed _ := rfl

theorem house_inv : house.Inv := ⟨params_legal, house_blk, trivial⟩

/-- The same machine with a tick to come, with a command in flight, and with no display running. -/
def ticking : State := { house with input := [.tick] }
def inFlight : State := { house with port := .inFlight [0x12000400, 1] house.blk house.blk, input := [.tickInCommand],
                                     ws := [(4, 0)] }
def quiet : State := { house with blk := { house.blk with registry := [none], timerArmed := false } }

theorem ticking_inv : ticking.Inv := ⟨params_legal, house_blk, trivial⟩
theorem inFlight_inv : inFlight.Inv :=
  ⟨params_legal, house_blk, house_blk, house_blk, ⟨fun _ _ => rfl, fun _ _ => rfl, rfl, rfl, rfl⟩⟩

/-! ## The tick, on those states -/

/-- The machine after one step. -/
def stepped (s : State) : State :=
  match step s with
  | .next t => t
  | .fault _ => s
  | .refused _ => s

/-- With the guard asserted, only the display without a guard line emits and advances (section 16, last item). -/
theorem test_tick_guard :
    let t := stepped { ticking with env := { ticking.env with guard := ⟨[true], 0⟩ } }
    (t.slot 4).scanRow = 1 ∧ (t.slot 4).trace.length = 22 ∧ (t.slot 5).scanRow = 0 ∧ (t.slot 5).trace = [] ∧
    (t.slot 3).trace = [] := by decide +kernel

/-- A tick inside a command whose write set is byte 0 sends the old bytes but for the 4th (P6). -/
theorem test_tick_torn : ((stepped inFlight).slot 4).trace.take 3 = [.send 0xFF, .send 0xFF, .send 0xFF] ∧
    (stepped inFlight).env.tornTicks = 1 := by decide +kernel

/-! ## Witnesses: encoding, the port, reset -/

theorem witness_DecodeEncode : (Instr.dnew 1 1 1).wellFormed = true ∧ (Instr.fill 255 0).wellFormed = true
    ∧ (Instr.bright 1 0).wellFormed = true ∧ (Instr.bright 1 255).wellFormed = true := by decide

theorem witness_DecodeOnlyEncodings : decode [0x33000100] = .ok (.scan 1) := by decide +kernel

theorem witness_HeaderDecidesLength :
    (∀ op : Op, op.code ≠ Word.opc 0x06000000) ∧
    (Word.opc 0x20000100 = Op.code .move ∧ [(0 : Word), 0, 0, 0, 0].length < Op.nops .move) ∧
    (Word.opc 0x20000100 = Op.code .move ∧ Op.nops .move ≤ [(0 : Word), 0, 0, 0, 0, 0].length) :=
  ⟨fun op => by cases op <;> decide, by decide, by decide⟩

theorem witness_ReservedBitsRefused : (Word.rsv 0x00010000 ≠ 0) ∧ (Word.rsv 0x000F0000 ≠ 0)
    ∧ (∃ w ∈ [(0 : Word), 0x00010000], w.upper ≠ 0) ∧ (∃ w ∈ [(0x80000000 : Word)], w.upper ≠ 0) :=
  ⟨by decide, by decide, ⟨0x00010000, by decide, by decide⟩, 0x80000000, by decide, by decide⟩

/-- A command with nothing after it, and one with a tick inside it. -/
theorem witness_StepRunsDecodedCommand :
    (house.port = .idle ∧ ({ house with input := [.word 0x33000300] } : State).input = [0x33000300].map Input.word ++ []
      ∧ decode [0x33000300] = .ok (.scan 3) ∧ tickComesInside [] = false) ∧
    (tickComesInside [.tickInCommand] = true ∧ ∃ t, exec (.scan 3) { house with input := [.tickInCommand] } = .next t) :=
  ⟨⟨rfl, rfl, by decide +kernel, rfl⟩, rfl, _, rfl⟩

theorem witness_IllegalWordsAnswered : house.port = .idle ∧
    ({ house with input := [.word 0x06000000] } : State).input = [0x06000000].map Input.word ++ [] ∧
    takeCommand [0x06000000] = some ([0x06000000], []) ∧ decode [0x06000000] = .error .unassignedOpcode ∧
    tickComesInside [] = false := ⟨rfl, rfl, by decide +kernel, by decide +kernel, rfl⟩

theorem witness_WaitsAndLosesDisarmedTicks : (house.port = .idle ∧ house.input = []) ∧
    (({ quiet with input := [.tick] } : State).port = .idle ∧ ({ quiet with input := [.tick] } : State).input = .tick :: []
      ∧ ({ quiet with input := [.tick] } : State).blk.timerArmed = false) := ⟨⟨rfl, rfl⟩, rfl, rfl, rfl⟩

theorem witness_StepKeepsInv : (house.Inv ∧ ∃ t, step house = .next t) ∧ (ticking.Inv ∧ ∃ t, step ticking = .next t)
    ∧ (inFlight.Inv ∧ ∃ t, step inFlight = .next t) :=
  ⟨⟨house_inv, _, rfl⟩, ⟨ticking_inv, _, rfl⟩, inFlight_inv, _, rfl⟩

/-! ## Witnesses: status codes -/

/-- The response whose status is not OK: words that no opcode has. -/
theorem witness_OneResponsePerCommand : runCommand [0x06000000] house = .next (house.fail .illegal)
    ∧ Status.illegal ≠ Status.ok := ⟨by rfl, by decide⟩

/-- Handle 0, a handle just above `MAX_FRAMES`, a free handle, a plain frame where a display is needed. -/
theorem witness_BadHandle :
    ((Instr.fill 0 1).wellFormed = true ∧ (0 : Handle) ∈ (Instr.fill 0 1).handles) ∧
    ((8 : Handle) ∈ (Instr.swap 1 8).handles ∧ house.params.maxFrames < (8 : Handle).toNat) ∧
    ((6 : Handle) ∈ (Instr.copyin 6 1 0 0).handles ∧ (house.slot 6).live = false) ∧
    ((Instr.bright 1 255).wellFormed = true ∧ (1 : Handle) ∈ (Instr.bright 1 255).handles
      ∧ (Instr.bright 1 255).needsDisplay = true ∧ (house.slot 1).isDisplay = false) := by decide +kernel

theorem witness_BadGeometryAndBusy :
    (val 0 < 1 ∧ val 0x8000 < 1) ∧ ((0 : Operand) = 0 ∧ 255 < val 256 ∧ val 0 < 1) ∧
    (house.isFrame 2 = true ∧ val 0xFFFF < 1) ∧
    (house.isFrame 1 = true ∧ house.isFrame 2 = true ∧ (house.slot 1).width ≠ (house.slot 2).width) ∧
    (house.isDisplay 4 = true ∧ house.running 4 = true) := by decide +kernel

/-- A full frame table, a pool one byte too small, an allocator that refuses; the largest display is too large for the pool. -/
theorem witness_NoMemory :
    ({ house with params := { params with maxFrames := 5 } } : State).CannotAlloc (bitmapSize 1 1) ∧
    ({ house with params := { params with poolBytes := 383 } } : State).CannotAlloc (bitmapSize 32 16) ∧
    ({ house with env := { house.env with alloc := ⟨[false], 0⟩ } } : State).CannotAlloc (64 * (1 * 1)) ∧
    ({ house with params := { params with poolBytes := 100000 } } : State).CannotAlloc (64 * (255 * 255)) ∧
    1 ≤ val 1 ∧ val 255 ≤ 255 ∧ house.isFrame 1 = true ∧ bitmapSize (val 1).toNat (val 1).toNat = 64 :=
  ⟨.inl (by decide +kernel), .inr (.inl (by decide +kernel)), .inr (.inr (by decide +kernel)),
    .inr (.inl (by decide +kernel)), by decide, by decide, by decide +kernel, by decide⟩

/-! ## Witnesses: rules about every command -/

theorem witness_UnnamedFramesUntouched : (∃ t, exec (.fill 1 1) house = .next t) ∧ (house.slot 4).live = true
    ∧ (4 : Handle) ∉ (Instr.fill 1 1).handles := ⟨⟨_, rfl⟩, by decide +kernel, by decide⟩

theorem witness_GeometryFixed : (∃ t, exec (.ffree 3) house = .next t) ∧ (house.slot 3).live = true :=
  ⟨⟨_, rfl⟩, by decide +kernel⟩

theorem witness_ScanStateWriters : (∃ t, exec (.fill 3 1) house = .next t) ∧ (house.slot 3).live = true
    ∧ Instr.fill 3 1 ≠ .start 3 ∧ Instr.fill 3 1 ≠ .scan 3 ∧ ∀ level, Instr.fill 3 1 ≠ .bright 3 level :=
  ⟨⟨_, rfl⟩, by decide +kernel, by decide, by decide, fun _ => by simp⟩

/-- The timer armed by START, disarmed by the STOP of the last running display; both write the registry. -/
theorem witness_SchedulerWriters :
    (quiet.blk.timerArmed = false ∧ (after [0x31000300] quiet).blk.timerArmed = true
      ∧ (after [0x31000300] quiet).blk.registry ≠ quiet.blk.registry) ∧
    (let s : State := { house with blk := { house.blk with registry := [some 4] } }
     s.blk.timerArmed = true ∧ (after [0x32000400] s).blk.timerArmed = false) := by decide +kernel

/-! ## Witnesses: the bitmap and the pixel commands -/

theorem witness_TransformBijection : (63 < 64 ∧ 31 < 32) ∧
    (9 < 10 ∧ 4 < 5 ∧ pixelOffset 10 5 9 4 = pixelOffset 10 5 9 4 ∧ pixelMask 10 9 4 = pixelMask 10 9 4) ∧
    (31 < 32 * panelsAcross 10 ∧ 15 < 16 * panelsDown 5) ∧ (255 < bitmapSize 33 17 ∧ 7 < 8) := by decide

theorem witness_UnifiedLayout : 1 < panelsAcross 33 ∧ 31 < 32 ∧ 15 < 16 ∧ 1 < panelsDown 17 := by decide

/-- Pixel (10, 0) of a frame 10 wide is padding; every kind of command of the statement runs. -/
theorem witness_PaddingBitsKept : house.Inv ∧
    (∀ x y, house.inRange 2 x y = true → ¬(1 = house.offsetOf 2 x y ∧ 2 = x.toNat % 8)) ∧
    (∀ i ∈ [Instr.setpix .xor 2 1 1, .line .on 2 0 0 9 4, .circle .on 2 4 2 2, .box .on 2 0 0 9 4, .fbox .on 2 0 0 9 4,
      .move 2 0 0 1 1 2 2, .copyin 2 1 0 0, .marqx 2 1, .marqy 2 1, .scrx 2 9, .scry 2 0xFFFC], ∃ t, exec i house = .next t) ∧
    |val 9| < ((house.slot 2).width : Int) ∧ |val 0xFFFC| < ((house.slot 2).height : Int) := by
  refine ⟨house_inv, fun x y h => ?_, fun i _ => by cases i <;> exact ⟨_, rfl⟩, by decide +kernel, by decide +kernel⟩
  rw [State.inRange, State.offsetOf, show (house.slot 2).width = 10 by decide +kernel,
    show (house.slot 2).height = 5 by decide +kernel] at *
  simp only [inRange, Bool.and_eq_true, decide_eq_true_eq] at h
  obtain ⟨⟨⟨h1, h2⟩, h3⟩, h4⟩ := h
  obtain ⟨a, rfl⟩ := Int.eq_ofNat_of_zero_le h1
  obtain ⟨b, rfl⟩ := Int.eq_ofNat_of_zero_le h3
  have key : ∀ a < 10, ∀ b < 5, ¬(1 = pixelOffset 10 5 a b ∧ 2 = a % 8) := by decide
  exact key a (by omega) b (by omega)

theorem witness_SetPixelDraws : house.Inv ∧ house.isFrame 2 = true := ⟨house_inv, by decide +kernel⟩

/-- A lit pixel, a dark one at the corner, and one just outside. -/
theorem witness_GetPixelAnswers : house.isFrame 1 = true ∧ house.pixel 1 0 0 = true ∧
    (house.inRange 1 (val 31) (val 15) = true ∧ house.pixel 1 31 15 = false) ∧
    house.inRange 1 (val 32) (val 15) = false ∧ house.inRange 1 (val 0xFFFF) (val 0) = false := by decide +kernel

theorem witness_FillWritesEveryByte : house.isFrame 2 = true ∧ ((0 : Operand) = 0 ∨ (0 : Operand) = 1)
    ∧ ((1 : Operand) = 0 ∨ (1 : Operand) = 1) ∧ house.inRange 2 9 4 = true := by decide +kernel

theorem witness_PixelLaws : house.Inv ∧ house.isFrame 1 = true ∧
    (house.inRange 1 (val 31) (val 15) = true ∧ (∃ t, exec (.setpix .on 1 31 15) house = .next t)
      ∧ (∃ t, exec (.setpix .off 1 31 15) house = .next t) ∧ (∃ t, exec (.fill 1 1) house = .next t)
      ∧ (∃ t, exec (.fill 1 0) house = .next t)) ∧
    house.inRange 1 (val 31) (val 16) = false ∧ ¬((30 : Int) = val 31 ∧ (15 : Int) = val 15) :=
  ⟨house_inv, by decide +kernel, ⟨by decide +kernel, ⟨_, rfl⟩, ⟨_, rfl⟩, ⟨_, rfl⟩, _, rfl⟩, by decide +kernel, by decide⟩

theorem witness_InverseAndNoopDrawNothing : house.isFrame 1 = true ∧ (Mode.inverse = .inverse ∨ Mode.inverse = .noop)
    ∧ (Mode.noop = .inverse ∨ Mode.noop = .noop)
    ∧ (Instr.setpix .noop 1 0 0 = .setpix .noop 1 0 0 ∧ Instr.fbox .inverse 1 0 0 1 1 = .fbox .inverse 1 0 0 1 1) := by
  decide +kernel

/-! ## Witnesses: drawing -/

theorem witness_LineCircleBoxDraw : house.Inv ∧ house.isFrame 3 = true := ⟨house_inv, by decide +kernel⟩

theorem witness_LineShape : (linePoints 0 5 9 5).length = 10 ∧ (linePoints 5 3 5 0).length = 4
    ∧ |((2 : Int) - 0)| < |(5 - 0 : Int)| ∧ |((3 : Int) - 0)| ≤ |(3 - 0 : Int)| := by decide

/-- Each clause at its last point, the second with both differences equal. -/
theorem witness_LineRounding : (|((1 : Int) - 0)| < |(4 - 0 : Int)| ∧ ((4 : Nat) : Int) ≤ |(4 - 0 : Int)|) ∧
    (|((3 : Int) - 0)| ≤ |(3 - 0 : Int)| ∧ 0 < |(3 - 0 : Int)| ∧ ((3 : Nat) : Int) ≤ |(3 - 0 : Int)|) := by decide

theorem witness_BoxVisits : ((1 : Int) ≠ 4 ∧ (1 : Int) ≠ 3) ∧ ((2 : Int) = 2 ∧ (1 : Int) ≠ 3) ∧
    ((1 : Int) ≠ 4 ∧ (1 : Int) = 1) ∧ ((2 : Int) = 2 ∧ (2 : Int) = 2) := by decide

theorem witness_FilledBoxDraws : house.Inv ∧ house.isFrame 5 = true := ⟨house_inv, by decide +kernel⟩

/-- Radius 1 at one of its points and its reflections; radius 4, where the diagonal point (3, 3) meets all but the extra 1. -/
theorem witness_CircleShape : (0 : Int) ≤ 0 ∧ ((10 : Int) + 1, (10 : Int) + 0) ∈ circlePoints 10 10 1 ∧ (0 : Int) < 1 ∧
    ((|(0 : Int)| = |(1 : Int)| ∧ |(-1 : Int)| = |(0 : Int)|) ∨ (|(0 : Int)| = |(0 : Int)| ∧ |(-1 : Int)| = |(1 : Int)|)) ∧
    ((10 : Int) + 3, (10 : Int) + 3) ∉ circlePoints 10 10 4 ∧ ((10 : Int) + 2, (10 : Int) - 3) ∈ circlePoints 10 10 4 := by
  decide +kernel

/-! ## Witnesses: region commands -/

theorem witness_MoveRegion : house.Inv ∧ house.isFrame 1 = true ∧ (1 ≤ val 1 ∧ 1 ≤ val 0x7FFF) ∧ (val 0 < 1 ∨ val 1 < 1) :=
  ⟨house_inv, by decide +kernel, by decide, by decide⟩

theorem house_allocates (n : Nat) (hn : n ≤ 4999616) : house.CanAlloc n 6 :=
  ⟨⟨by decide, by decide, by decide +kernel, by decide +kernel⟩,
    by rw [show house.blk.poolUsed = 320 by decide +kernel]; show 320 + n ≤ 5000000; omega, rfl⟩

theorem witness_SubFrame : house.Inv ∧ house.isFrame 1 = true ∧ 1 ≤ val 1 ∧
    house.CanAlloc (bitmapSize (val 1).toNat (val 1).toNat) 6 :=
  ⟨house_inv, by decide +kernel, by decide, house_allocates _ (by decide)⟩

theorem witness_CopyInto : house.Inv ∧ house.isFrame 2 = true ∧ house.isFrame 1 = true :=
  ⟨house_inv, by decide +kernel, by decide +kernel⟩

/-- Just below a full width, and a full width. -/
theorem witness_Scroll : house.Inv ∧ house.isFrame 1 = true ∧
    (¬((house.slot 1).width : Int) ≤ |val 31| ∧ ((house.slot 1).width : Int) ≤ |val 32| ∧
      ((house.slot 1).height : Int) ≤ |val 0xFFF0| ∧ house.allBytes 1 63) :=
  ⟨house_inv, by decide +kernel, by decide +kernel, by decide +kernel, by decide +kernel,
    by show 63 < _; decide +kernel⟩

theorem witness_Marquee : house.Inv ∧ house.isFrame 2 = true := ⟨house_inv, by decide +kernel⟩

/-- Two frames of one size, and a frame with itself. -/
theorem witness_SwapBuffers : house.isFrame 1 = true ∧ house.isFrame 4 = true ∧
    (house.slot 1).width = (house.slot 4).width ∧ (house.slot 1).height = (house.slot 4).height := by decide +kernel

theorem witness_SubFrameCopyIntoRoundTrip : house.Inv ∧ house.isFrame 2 = true ∧ ∃ t u,
    exec (.subf 2 1 1 2 2) house = .next t ∧ house.Answers t .ok (handleValue 6) ∧ exec (.copyin 2 6 1 1) t = .next u := by
  refine ⟨house_inv, by decide +kernel, after [0x21000200, 1, 1, 2, 2] house, _, rfl, ?_, rfl⟩
  show State.Answers _ _ _ _
  unfold State.Answers; decide +kernel

theorem witness_MarqueesAdd : house.Inv ∧ house.isFrame 2 = true ∧ val 5 = val 7 + val 0xFFFE ∧
    (∃ t u v, exec (.marqx 2 7) house = .next t ∧ exec (.marqx 2 0xFFFE) t = .next u ∧ exec (.marqx 2 5) house = .next v) ∧
    (∃ t u v, exec (.marqy 2 7) house = .next t ∧ exec (.marqy 2 0xFFFE) t = .next u ∧ exec (.marqy 2 5) house = .next v) :=
  ⟨house_inv, by decide +kernel, by decide, ⟨_, _, _, rfl, rfl, rfl⟩, _, _, _, rfl, rfl, rfl⟩

theorem witness_ScrollThereAndBack : house.Inv ∧ house.isFrame 2 = true ∧ |val 9| < ((house.slot 2).width : Int) ∧
    val 0xFFF7 = -val 9 ∧ (∃ t u, exec (.scrx 2 9) house = .next t ∧ exec (.scrx 2 0xFFF7) t = .next u) ∧
    house.inRange 2 0 0 = true :=
  ⟨house_inv, by decide +kernel, by decide +kernel, by decide, ⟨_, _, rfl, rfl⟩, by decide +kernel⟩

/-! ## Witnesses: lifecycle, displays, the tick -/

theorem witness_FrameNew : 1 ≤ val 1 ∧ 1 ≤ val 0x7FFF ∧
    house.CanAlloc (bitmapSize (val 0x7FFF).toNat (val 1).toNat) 6 := ⟨by decide, by decide, house_allocates _ (by decide)⟩

theorem witness_FrameCopy : house.isFrame 1 = true ∧
    house.CanAlloc (bitmapSize (house.slot 1).width (house.slot 1).height) 6 :=
  ⟨by decide +kernel, house_allocates _ (by decide +kernel)⟩

theorem witness_FrameAssign : house.isFrame 1 = true ∧ house.isFrame 4 = true ∧
    (house.slot 1).width = (house.slot 4).width ∧ (house.slot 1).height = (house.slot 4).height := by decide +kernel

/-- A plain frame, and a display that runs. -/
theorem witness_FrameFree : house.Inv ∧ house.isFrame 2 = true ∧ (house.isFrame 4 = true ∧ house.running 4 = true) :=
  ⟨house_inv, by decide +kernel, by decide +kernel⟩

theorem witness_DisplayNew : house.Inv ∧ 1 ≤ val 1 ∧ val 255 ≤ 255 ∧
    ((0 : Operand) = 0 ∨ (0 : Operand) = 1) ∧ ((1 : Operand) = 0 ∨ (1 : Operand) = 1) ∧
    house.CanAlloc (64 * ((val 255).toNat * (val 255).toNat)) 6 ∧ house.CanAlloc (64 * ((val 1).toNat * (val 1).toNat)) 6 :=
  ⟨house_inv, by decide, by decide, by decide, by decide, house_allocates _ (by decide), house_allocates _ (by decide)⟩

theorem witness_SetBrightness : house.isDisplay 4 = true ∧ 0 ≤ val 0 ∧ val 255 ≤ 255 := by decide +kernel

/-- A sample of 0, and an asserted one. -/
theorem witness_ScanStepCommand : house.isDisplay 3 = true ∧ house.running 3 = false ∧ house.StepRuns 3 ∧
    ¬({ house with env := { house.env with guard := ⟨[true], 0⟩ } } : State).StepRuns 3 := by
  refine ⟨by decide +kernel, by decide +kernel, .inr rfl, ?_⟩
  rintro (h | h)
  · exact absurd h (by decide +kernel)
  · exact absurd h (by decide)

/-- A slot to reuse, room to append, a full list, a list that cannot grow. -/
theorem witness_StartDisplay : house.isDisplay 3 = true ∧ house.running 3 = false ∧ house.StepRuns 3 ∧
    (none ∉ [some (4 : Handle)] ∧ house.blk.registry = [some 4] ++ none :: [some 5]) ∧
    (let s : State := { house with blk := { house.blk with registry := [some 4, some 5] } }
     none ∉ s.blk.registry ∧ s.blk.registry.length < s.params.registryCapacity ∧
      (s.env.grow.next Config.growOk).1 = true) ∧
    (let s : State := { house with blk := { house.blk with registry := [some 4, some 5, some 1] } }
     none ∉ s.blk.registry ∧ s.params.registryCapacity ≤ s.blk.registry.length) ∧
    (let s : State := { house with blk := { house.blk with registry := [some 4, some 5] },
                                   env := { house.env with grow := ⟨[false], 0⟩ } }
     none ∉ s.blk.registry ∧ (s.env.grow.next Config.growOk).1 = false) :=
  ⟨by decide +kernel, by decide +kernel, .inr rfl, ⟨by decide, rfl⟩, ⟨by decide, by decide, rfl⟩, ⟨by decide, by decide⟩,
    by decide, rfl⟩

/-- Another display still runs, and none does. -/
theorem witness_StopDisplay : house.isDisplay 4 = true ∧ (∃ d, some d ∈ house.registryWithout 4) ∧
    (∀ d, some d ∉ ({ house with blk := { house.blk with registry := [some 4] } } : State).registryWithout 4) := by
  refine ⟨by decide +kernel, ⟨5, by decide⟩, fun d => ?_⟩
  have : ({ house with blk := { house.blk with registry := [some 4] } } : State).registryWithout 4 = [none] := by decide
  rw [this]; simp

/-- A display without a guard line, and one whose next four samples are not asserted. -/
theorem witness_FourStepsSendEveryByteOnce :
    (quiet.isDisplay 4 = true ∧ quiet.running 4 = false ∧ (quiet.slot 4).guardEn = false) ∧
    (let s : State := { house with env := { house.env with guard := ⟨[false, false, false, false], 0⟩ } }
     s.isDisplay 3 = true ∧ s.running 3 = false ∧ (s.slot 3).guardEn = true ∧ ∀ m < 4, s.guardAt m = false) := by
  decide +kernel

/-- A display without a guard line, one with its line not asserted, one with it asserted, one that does not run. -/
theorem witness_TickStepsRunningDisplays : ticking.Inv ∧ ticking.port = .idle ∧ ticking.input = .tick :: [] ∧
    ticking.blk.timerArmed = true ∧
    (ticking.blk.registry = [] ++ some 4 :: [none, some 5] ∧ (ticking.slot 4).guardEn = false) ∧
    (ticking.blk.registry = [some 4, none] ++ some 5 :: [] ∧ (ticking.slot 5).guardEn = true
      ∧ ticking.guardAt (ticking.guarded [some 4, none]) = false) ∧
    ({ ticking with env := { ticking.env with guard := ⟨[true], 0⟩ } } : State).guardAt
      (ticking.guarded [some 4, none]) = true ∧ ticking.running 3 = false :=
  ⟨ticking_inv, rfl, rfl, rfl, ⟨rfl, by decide +kernel⟩, ⟨rfl, by decide +kernel, by decide +kernel⟩, by decide +kernel,
    by decide⟩

/-- Of a running display, a byte in the write set and one outside it; one with a guard line, its sample not asserted and
asserted. -/
theorem witness_TornTick : inFlight.Inv ∧ inFlight.port = .inFlight [0x12000400, 1] house.blk house.blk ∧
    inFlight.input = .tickInCommand :: [] ∧ inFlight.blk.timerArmed = true ∧
    inFlight.running 1 = false ∧ ((4, 0) ∈ inFlight.ws) ∧ ((4, 1) ∉ inFlight.ws) ∧
    (inFlight.blk.registry = [] ++ some 4 :: [none, some 5] ∧ (inFlight.slot 4).guardEn = false) ∧
    (inFlight.blk.registry = [some 4, none] ++ some 5 :: [] ∧ (inFlight.slot 5).guardEn = true
      ∧ inFlight.guardAt (inFlight.guarded [some 4, none]) = false) ∧
    ({ inFlight with env := { inFlight.env with guard := ⟨[true], 0⟩ } } : State).guardAt
      (inFlight.guarded [some 4, none]) = true :=
  ⟨inFlight_inv, rfl, rfl, rfl, by decide, by decide, by decide, ⟨rfl, by decide +kernel⟩,
    ⟨rfl, by decide +kernel, by decide +kernel⟩, by decide +kernel⟩

theorem witness_TicksInsideChangeNoResult :
    let s : State := { house with input := [.word 0x32000400, .tickInCommand] }
    s.port = .idle ∧ takeCommand [0x32000400] = some ([0x32000400], []) ∧
    s.input = [0x32000400].map Input.word ++ (List.replicate (0 + 1) Input.tickInCommand ++ []) ∧
    tickComesInside [] = false ∧
    (∃ u, runCommand [0x32000400] { s with input := List.replicate (0 + 1) Input.tickInCommand ++ [] } = .next u) ∧
    s.running 4 = true ∧ s.running 3 = false := by
  refine ⟨rfl, by decide +kernel, rfl, rfl, ⟨_, by rfl⟩, by decide, by decide⟩

theorem witness_DutyIsProportional : (0 : BitVec 8).toNat < (254 : BitVec 8).toNat ∧ 0 < 1 := by decide

end Sys2Proof.Tests
end

section
/-!
SUPPORT. The bitmap (spec/20_memory.md R71 to R77). The transform reads a frame's size only through its panel counts, so what
holds of the pixels in range holds of the whole panel grid, the pixels of a frame of `32 * PW` by `16 * PH`. The unified order of
R77 is the transform in panel coordinates; the inverse of R74 names a pixel by them, so R77 takes it back to its bit.
-/

namespace Sys2Proof.Machine

/-! ## The panel grid as a frame (R36) -/

@[simp] theorem panelsAcross_grid (width : Nat) : panelsAcross (32 * panelsAcross width) = panelsAcross width := by
  rw [panelsAcross, Config.panelWidth]; omega

@[simp] theorem panelsDown_grid (height : Nat) : panelsDown (16 * panelsDown height) = panelsDown height := by
  rw [panelsDown, Config.panelHeight]; omega

@[simp] theorem rowBytes_grid (width height : Nat) :
    rowBytes (32 * panelsAcross width) (16 * panelsDown height) = rowBytes width height := by
  simp [rowBytes, panelCount]

@[simp] theorem bitmapSize_grid (width height : Nat) :
    bitmapSize (32 * panelsAcross width) (16 * panelsDown height) = bitmapSize width height := by
  simp [bitmapSize]

@[simp] theorem unifiedX_grid (width x y : Nat) : unifiedX (32 * panelsAcross width) x y = unifiedX width x y := by
  simp [unifiedX, panelOf]

@[simp] theorem pixelOffset_grid (width height x y : Nat) :
    pixelOffset (32 * panelsAcross width) (16 * panelsDown height) x y = pixelOffset width height x y := by
  simp [pixelOffset]

@[simp] theorem pixelBit_grid (width x y : Nat) : pixelBit (32 * panelsAcross width) x y = pixelBit width x y := by
  simp [pixelBit]

@[simp] theorem pixelX_grid (width height o k : Nat) :
    pixelX (32 * panelsAcross width) (16 * panelsDown height) o k = pixelX width height o k := by
  simp [pixelX]

@[simp] theorem pixelY_grid (width height o k : Nat) :
    pixelY (32 * panelsAcross width) (16 * panelsDown height) o k = pixelY width height o k := by
  simp [pixelY]

/-! ## The unified order (R77) -/

/-- Column `c` of panel column `px` and row `r` of panel row `py` is a pixel of the panel grid. -/
theorem panelPixel_mem_grid {n p m i : Nat} (hp : p < n) (hi : i < m) : m * p + i < m * n :=
  calc m * p + i < m * p + m := Nat.add_lt_add_left hi _
    _ = m * (p + 1) := (Nat.mul_succ m p).symm
    _ ≤ m * n := Nat.mul_le_mul_left m hp

theorem unifiedX_panel (width px py : Nat) {c r : Nat} (hc : c < 32) (hr : r < 16) :
    unifiedX width (32 * px + c) (16 * py + r) = 32 * (px + panelsAcross width * py) + c := by
  have hx : (32 * px + c) / 32 = px := by omega
  have hy : (16 * py + r) / 16 = py := by omega
  rw [unifiedX, panelOf, Config.panelWidth, Config.panelHeight, hx, hy]
  omega

theorem unifiedY_panel (py : Nat) {r : Nat} (hr : r < 16) : unifiedY (16 * py + r) = r := by
  rw [unifiedY, Config.panelHeight]; omega

theorem pixelOffset_panel (width height px py : Nat) {c r : Nat} (hc : c < 32) (hr : r < 16) :
    pixelOffset width height (32 * px + c) (16 * py + r)
      = r * rowBytes width height + (4 * (px + panelsAcross width * py) + c / 8) := by
  rw [pixelOffset, unifiedX_panel width px py hc hr, unifiedY_panel py hr]
  omega

theorem pixelMask_panel (width px y c : Nat) : pixelMask width (32 * px + c) y = (1 : Byte) <<< (7 - c % 8) := by
  have hk : (32 * px + c) % 8 = c % 8 := by omega
  rw [pixelMask, pixelBit_eq, hk, leftMask]

/-- A panel's four bytes lie inside the unified row. -/
theorem panelByte_lt_rowBytes {width height px py c : Nat} (hpx : px < panelsAcross width) (hc : c < 32)
    (hpy : py < panelsDown height) : 4 * (px + panelsAcross width * py) + c / 8 < rowBytes width height := by
  have hb := unifiedX_div_lt (panelPixel_mem_grid hpx hc) (panelPixel_mem_grid hpy (show 0 < 16 by decide))
  rw [unifiedX_grid, unifiedX_panel width px py hc (by decide), rowBytes_grid] at hb
  omega

/-! ## Every bit is a grid pixel's (R75) -/

/-- `x'` of a bitmap bit is below `UW` (R71). -/
theorem unifiedColumn_lt {width height o k : Nat} (ho : o < bitmapSize width height) (hk : k < 8) :
    o % rowBytes width height * 8 + k < 32 * panelCount width height := by
  have hSize := bitmapSize_eq width height
  have hRow := rowBytes_eq width height
  have : o % rowBytes width height < rowBytes width height := Nat.mod_lt _ (by omega)
  omega

/-- `y'` of a bitmap bit is one of the sixteen unified rows (R71). -/
theorem unifiedRow_lt {width height o : Nat} (ho : o < bitmapSize width height) : o / rowBytes width height < 16 :=
  Nat.div_lt_of_lt_mul ho

/-- The pixel of a bitmap bit, by its panel and its place in the panel: what the inverse answers (R74). -/
theorem index_inverse_panel (width height o k : Nat) :
    ∃ u, u = o % rowBytes width height * 8 + k ∧
      pixelX width height o k = 32 * (u / 32 % panelsAcross width) + u % 32 ∧
      pixelY width height o k = 16 * (u / 32 / panelsAcross width) + o / rowBytes width height :=
  ⟨_, rfl, Nat.add_comm _ _, Nat.add_comm _ _⟩

theorem index_inverse_mem_grid {width height o k : Nat} (ho : o < bitmapSize width height) (hk : k < 8) :
    pixelX width height o k < 32 * panelsAcross width ∧ pixelY width height o k < 16 * panelsDown height := by
  obtain ⟨u, hu, hx, hy⟩ := index_inverse_panel width height o k
  have hPanel : u / 32 < panelsAcross width * panelsDown height :=
    Nat.div_lt_of_lt_mul (hu ▸ unifiedColumn_lt ho hk)
  have hAcross : 0 < panelsAcross width := Nat.pos_of_mul_pos_right (Nat.zero_lt_of_lt hPanel)
  rw [hx, hy]
  exact ⟨panelPixel_mem_grid (Nat.mod_lt _ hAcross) (Nat.mod_lt _ (by decide)),
    panelPixel_mem_grid (Nat.div_lt_of_lt_mul hPanel) (unifiedRow_lt ho)⟩

/-- The transform takes the pixel of a bitmap bit back to that bit. -/
theorem index_of_inverse {width height o k : Nat} (ho : o < bitmapSize width height) (hk : k < 8) :
    pixelOffset width height (pixelX width height o k) (pixelY width height o k) = o ∧
    pixelBit width (pixelX width height o k) (pixelY width height o k) = k := by
  obtain ⟨u, hu, hx, hy⟩ := index_inverse_panel width height o k
  rw [hx, hy]
  constructor
  · rw [pixelOffset_panel width height _ _ (Nat.mod_lt u (by decide)) (unifiedRow_lt ho), Nat.mod_add_div]
    calc o / rowBytes width height * rowBytes width height + (4 * (u / 32) + u % 32 / 8)
        = o / rowBytes width height * rowBytes width height + o % rowBytes width height := by omega
      _ = o := Nat.div_add_mod' o _
  · rw [pixelBit_eq]
    omega

end Sys2Proof.Machine

namespace Sys2Proof

open Sys2Proof.Machine

/-- Settles O22. The pixels in range are R74's own lemmas; the grid is a frame of its own size; every bit's pixel goes through the
unified order. -/
theorem transformBijection : Obligations.TransformBijection := by
  intro width height
  refine ⟨fun x y hx hy => ⟨pixelX_of_index hx hy, pixelY_of_index hx hy⟩, ?injective, ?grid, ?bits⟩
  case injective =>
    intro x y x' y' hx hy hx' hy' hOffset hMask
    exact index_injective hx hy hx' hy' hOffset
      (leftMask_injective (pixelBit_lt width x y) (pixelBit_lt width x' y') hMask)
  case grid =>
    intro x y hx hy
    simpa using And.intro (pixelOffset_lt hx hy) (And.intro (pixelX_of_index hx hy) (pixelY_of_index hx hy))
  case bits =>
    intro o k ho hk
    obtain ⟨hx, hy⟩ := index_inverse_mem_grid ho hk
    exact ⟨hx, hy, index_of_inverse ho hk⟩

/-- Settles O23, by the transform in panel coordinates. -/
theorem unifiedLayout : Obligations.UnifiedLayout := by
  intro width height px py c r hpx hc hr
  exact ⟨pixelOffset_panel width height px py hc hr, pixelMask_panel width px (16 * py + r) c,
    panelByte_lt_rowBytes hpx hc⟩

end Sys2Proof
end

section
/-!
SUPPORT. The decoder and the port's command boundary (spec/30_encoding.md R110 to R120). `decode` answers a command exactly when
the five checks of R120 pass; every encoding is one header word and the operand words of its opcode, so both the decoder's answer
on it and its length follow from the fields alone.
-/

namespace Sys2Proof

/-! ## The length of a command (R113) -/

theorem commandLength_of_opcode {hdr : Word} {op : Op} (h : hdr.opc = op.code) : commandLength hdr = 1 + op.nops := by
  simp [commandLength, h]

theorem commandLength_of_unassigned {hdr : Word} (h : ∀ op : Op, op.code ≠ hdr.opc) : commandLength hdr = 1 := by
  simp [commandLength, Op.ofCode_eq_none h]

theorem takeCommand_cons (hdr : Word) (rest : List Word) :
    takeCommand (hdr :: rest) =
      if commandLength hdr ≤ 1 + rest.length then
        some (hdr :: rest.take (commandLength hdr - 1), rest.drop (commandLength hdr - 1))
      else none := rfl

theorem takeCommand_of_unassigned {hdr : Word} (h : ∀ op : Op, op.code ≠ hdr.opc) (rest : List Word) :
    takeCommand (hdr :: rest) = some ([hdr], rest) := by
  simp [takeCommand_cons, commandLength_of_unassigned h]

/-- The port waits for the operand words that are still to come (R110). -/
theorem takeCommand_incomplete {op : Op} {hdr : Word} {rest : List Word} (h : hdr.opc = op.code)
    (hlen : rest.length < op.nops) : takeCommand (hdr :: rest) = none := by
  rw [takeCommand_cons, commandLength_of_opcode h, if_neg (by omega)]

theorem takeCommand_complete {op : Op} {hdr : Word} {rest : List Word} (h : hdr.opc = op.code)
    (hlen : op.nops ≤ rest.length) :
    takeCommand (hdr :: rest) = some (hdr :: rest.take op.nops, rest.drop op.nops) := by
  rw [takeCommand_cons, commandLength_of_opcode h, if_pos (by omega), Nat.add_sub_cancel_left]

/-! ## The checks of R120 -/

/-- Checks 1 to 5 of R120, all at once: what the words of a legal command are. -/
theorem decode_cons_eq_ok_iff {hdr : Word} {operands : List Word} {i : Instr} :
    decode (hdr :: operands) = .ok i ↔ ∃ op m, Op.ofCode hdr.opc = some op ∧ operands.length = op.nops ∧
      op.reservedClear hdr = true ∧ Mode.ofBits hdr.modeField = some m ∧ (∀ w ∈ operands, w.upper = 0) ∧
      op.build m hdr.fa hdr.fb (operands.map Word.operand) = some i ∧ i.wellFormed = true := by
  constructor
  · intro h
    simp only [decode] at h
    split at h
    · contradiction
    rename_i op hop
    split at h
    · contradiction
    rename_i hlen
    split at h
    · contradiction
    rename_i hres
    split at h
    · contradiction
    rename_i m hm
    split at h
    · contradiction
    rename_i hup
    split at h
    · contradiction
    rename_i hbuild
    split at h
    · cases h
      exact ⟨op, m, hop, by simpa using hlen, by simpa using hres, hm, by simpa using hup, hbuild, ‹_›⟩
    · contradiction
  · rintro ⟨op, m, hop, hlen, hres, hm, hup, hbuild, hwf⟩
    simpa [decode, hop, hlen, hres, hm, hbuild, hwf] using hup

theorem Op.rsv_of_reservedClear {op : Op} {hdr : Word} (h : op.reservedClear hdr = true) : hdr.rsv = 0 := by
  simp only [Op.reservedClear, Bool.and_eq_true, beq_iff_eq] at h
  exact h.1.1.1

theorem decode_reserved_ne_ok {hdr : Word} {operands : List Word}
    (h : hdr.rsv ≠ 0 ∨ ∃ w ∈ operands, w.upper ≠ 0) (i : Instr) : decode (hdr :: operands) ≠ .ok i := by
  intro hok
  obtain ⟨op, m, -, -, hres, -, hup, -, -⟩ := decode_cons_eq_ok_iff.1 hok
  rcases h with hrsv | ⟨w, hw, hne⟩
  · exact hrsv (Op.rsv_of_reservedClear hres)
  · exact hne (hup w hw)

/-! ## The words of an encoding (R111, R112, R115) -/

/-- Check 2 of R120 on a header the encoder writes: `RSV` is clear, so what is left are the columns MODE, FA and FB. -/
theorem Op.reservedClear_headerWord (op : Op) (m : Mode) (fa fb : Handle) :
    op.reservedClear (headerWord op m fa fb) =
      ((op.usesMode || m.bits == 0) && (op.usesFa || fa == 0) && (op.usesFb || fb == 0)) := by
  simp [Op.reservedClear]

/-- Every encoding is a header and `NOPS` operand words; the header's fields and the operands are those the command is built of,
and a field its opcode does not use is 0. -/
theorem Instr.encode_fields (i : Instr) : ∃ m fa fb vs,
    encode i = headerWord i.op m fa fb :: vs.map operandWord ∧ vs.length = i.op.nops ∧
    i.op.build m fa fb vs = some i ∧
    ((i.op.usesMode || m.bits == 0) && (i.op.usesFa || fa == 0) && (i.op.usesFb || fb == 0)) = true := by
  cases i with
  | fnew w h => exact ⟨.on, 0, 0, [w, h], rfl, rfl, rfl, rfl⟩
  | fcopy fa => exact ⟨.on, fa, 0, [], rfl, rfl, rfl, rfl⟩
  | fassign fa fb => exact ⟨.on, fa, fb, [], rfl, rfl, rfl, rfl⟩
  | ffree fa => exact ⟨.on, fa, 0, [], rfl, rfl, rfl, rfl⟩
  | dnew pw ph g => exact ⟨.on, 0, 0, [pw, ph, g], rfl, rfl, rfl, rfl⟩
  | setpix m fa x y => exact ⟨m, fa, 0, [x, y], rfl, rfl, rfl, rfl⟩
  | getpix fa x y => exact ⟨.on, fa, 0, [x, y], rfl, rfl, rfl, rfl⟩
  | fill fa on => exact ⟨.on, fa, 0, [on], rfl, rfl, rfl, rfl⟩
  | line m fa x1 y1 x2 y2 => exact ⟨m, fa, 0, [x1, y1, x2, y2], rfl, rfl, rfl, rfl⟩
  | circle m fa xc yc r => exact ⟨m, fa, 0, [xc, yc, r], rfl, rfl, rfl, rfl⟩
  | box m fa x1 y1 x2 y2 => exact ⟨m, fa, 0, [x1, y1, x2, y2], rfl, rfl, rfl, rfl⟩
  | fbox m fa x1 y1 x2 y2 => exact ⟨m, fa, 0, [x1, y1, x2, y2], rfl, rfl, rfl, rfl⟩
  | move fa fx fy tx ty w h => exact ⟨.on, fa, 0, [fx, fy, tx, ty, w, h], rfl, rfl, rfl, rfl⟩
  | subf fa l t w h => exact ⟨.on, fa, 0, [l, t, w, h], rfl, rfl, rfl, rfl⟩
  | copyin fa fb l t => exact ⟨.on, fa, fb, [l, t], rfl, rfl, rfl, rfl⟩
  | scrx fa d => exact ⟨.on, fa, 0, [d], rfl, rfl, rfl, rfl⟩
  | scry fa d => exact ⟨.on, fa, 0, [d], rfl, rfl, rfl, rfl⟩
  | marqx fa d => exact ⟨.on, fa, 0, [d], rfl, rfl, rfl, rfl⟩
  | marqy fa d => exact ⟨.on, fa, 0, [d], rfl, rfl, rfl, rfl⟩
  | swap fa fb => exact ⟨.on, fa, fb, [], rfl, rfl, rfl, rfl⟩
  | bright fa l => exact ⟨.on, fa, 0, [l], rfl, rfl, rfl, rfl⟩
  | start fa => exact ⟨.on, fa, 0, [], rfl, rfl, rfl, rfl⟩
  | stop fa => exact ⟨.on, fa, 0, [], rfl, rfl, rfl, rfl⟩
  | scan fa => exact ⟨.on, fa, 0, [], rfl, rfl, rfl, rfl⟩

/-- An encoding passes the first four checks of R120, so the fifth alone decides whether it is legal. -/
theorem decode_encode {i : Instr} (hwf : i.wellFormed = true) : decode (encode i) = .ok i := by
  obtain ⟨m, fa, fb, vs, henc, hlen, hbuild, hunused⟩ := i.encode_fields
  have hvalues : (vs.map operandWord).map Word.operand = vs := by simp [Function.comp_def]
  rw [henc, decode_cons_eq_ok_iff]
  refine ⟨i.op, m, by simp, by simpa using hlen, ?_, by simp, by simp, ?_, hwf⟩
  · rwa [Op.reservedClear_headerWord]
  · rwa [headerWord_fa, headerWord_fb, hvalues]

theorem takeCommand_encode_append (i : Instr) (rest : List Word) :
    takeCommand (encode i ++ rest) = some (encode i, rest) := by
  obtain ⟨m, fa, fb, vs, henc, hlen, -, -⟩ := i.encode_fields
  have hops : (vs.map operandWord).length = i.op.nops := by simpa using hlen
  rw [henc, List.cons_append, takeCommand_complete (headerWord_opc _ _ _ _) (by simp [hlen]),
    List.take_left' hops, List.drop_left' hops]

/-- Words that a well-formed command encodes to decode to it. -/
theorem decode_and_encode {i : Instr} {cmd : List Word} (hwf : i.wellFormed = true) (henc : encode i = cmd) :
    decode cmd = .ok i ∧ encode i = cmd := ⟨henc ▸ decode_encode hwf, henc⟩

end Sys2Proof

namespace Sys2Proof.Machine

/-! ## Illegal words and the response word (R114, R120) -/

theorem runCommand_of_ok {cmd : List Word} {i : Instr} (h : decode cmd = .ok i) (s : State) :
    runCommand cmd s = exec i s := by simp [runCommand, h]

theorem runCommand_of_ne_ok {cmd : List Word} (h : ∀ i, decode cmd ≠ .ok i) (s : State) :
    runCommand cmd s = .next (s.fail .illegal) := by
  unfold runCommand
  cases hd : decode cmd with
  | ok i => exact absurd hd (h i)
  | error e => rfl

/-- The bits of a response word, field by field. -/
theorem Response.word_bit (r : Response) (i : Nat) :
    r.word.getLsbD i = if i < 16 then r.value.getLsbD i else if i - 16 < 8 then false
      else r.status.code.getLsbD (i - 16 - 8) := by
  change BitVec.getLsbD (w := 8 + 8 + 16) ((r.status.code ++ (0 : BitVec 8)) ++ r.value) i = _
  simp only [BitVec.getLsbD_append, BitVec.ofNat_eq_ofNat, BitVec.getLsbD_zero]

@[simp] theorem Response.word_reserved (r : Response) : r.word.extractLsb' 16 8 = 0 := by
  apply BitVec.eq_of_getLsbD_eq
  intro i hi
  rw [BitVec.getLsbD_extractLsb', Response.word_bit, if_neg (by omega), if_pos (by omega)]
  simp

end Sys2Proof.Machine
end

section
/-!
SUPPORT. Drawing in a mode that does not write (spec/30_encoding.md R122; spec/41_pixel.md R180 to R182): every visit leaves the
canvas as it is, and putting a frame's own bitmap back changes nothing but the response.
-/

namespace Sys2Proof.Machine

/-! ## What the drawing commands visit -/

theorem exec_setpix (mode : Mode) (fa : Handle) (x y : Operand) (s : State) :
    exec (.setpix mode fa x y) s = .next (s.drawOn fa fun c => c.paint (visitsOf mode [(val x, val y)])) := by
  rfl

theorem exec_line (mode : Mode) (fa : Handle) (x1 y1 x2 y2 : Operand) (s : State) :
    exec (.line mode fa x1 y1 x2 y2) s =
      .next (s.drawOn fa fun c => c.paint (visitsOf mode (linePoints (val x1) (val y1) (val x2) (val y2)))) := by
  rfl

theorem exec_circle (mode : Mode) (fa : Handle) (xc yc r : Operand) (s : State) :
    exec (.circle mode fa xc yc r) s =
      .next (s.drawOn fa fun c => c.paint (visitsOf mode (circlePoints (val xc) (val yc) (val r)))) := by
  rfl

theorem exec_box (mode : Mode) (fa : Handle) (x1 y1 x2 y2 : Operand) (s : State) :
    exec (.box mode fa x1 y1 x2 y2) s =
      .next (s.drawOn fa fun c => c.paint (visitsOf mode (boxPoints (val x1) (val y1) (val x2) (val y2)))) := by
  rfl

theorem exec_fbox (mode : Mode) (fa : Handle) (x1 y1 x2 y2 : Operand) (s : State) :
    exec (.fbox mode fa x1 y1 x2 y2) s =
      .next (s.drawOn fa fun c => c.paint (visitsOf mode (filledBoxPoints (val x1) (val y1) (val x2) (val y2)))) := by
  rfl

/-! ## A mode that does not write -/

theorem Canvas.setPixel_of_not_writes {mode : Mode} (hm : modeWrites mode = false) (c : Canvas) (x y : Int) :
    c.setPixel x y mode = c := by
  rcases c.setPixel_cases x y mode with ⟨-, h⟩ | ⟨-, hw, -⟩
  · exact h
  · simp [hm] at hw

theorem Canvas.paint_visitsOf_of_not_writes {mode : Mode} (hm : modeWrites mode = false) (c : Canvas)
    (points : List Point) : c.paint (visitsOf mode points) = c := by
  induction points with
  | nil => rfl
  | cons p ps ih => rw [visitsOf, List.map_cons, Canvas.paint_cons, Canvas.setPixel_of_not_writes hm]; exact ih

@[simp] theorem State.setSlot_slot (s : State) (h : Handle) : s.setSlot h (s.slot h) = s := by
  simp [State.setSlot, State.slot, Block.setSlot, Block.slot]

theorem State.drawn_own_canvas (s : State) (h : Handle) : s.drawn h (s.slot h).canvas = s.reply [] .ok 0 := by
  rw [State.drawn, Slot.canvas_buf, State.setSlot_slot, Slot.canvas_ws, List.map_nil]

theorem State.drawOn_of_not_writes {s : State} {fa : Handle} {mode : Mode} (hf : s.isFrame fa = true)
    (hm : modeWrites mode = false) (points : List Point) :
    (s.drawOn fa fun c => c.paint (visitsOf mode points)) = s.reply [] .ok 0 := by
  rw [State.drawOn_frame hf, Canvas.paint_visitsOf_of_not_writes hm, State.drawn_own_canvas]

end Sys2Proof.Machine
end

section
namespace Sys2Proof

open Sys2Proof.Machine

/-- Settles O4. The length is the table's `NOPS` for an assigned opcode and 1 for any other; an encoding is a complete command. -/
theorem headerDecidesLength : Obligations.HeaderDecidesLength :=
  ⟨takeCommand_encode_append, fun _ rest h => takeCommand_of_unassigned h rest,
    fun _ _ _ h => ⟨takeCommand_incomplete h, takeCommand_complete h⟩⟩

/-- Settles O5. Checks 2 and 4 of R120 are necessary for the decoder to answer a command. -/
theorem reservedBitsRefused : Obligations.ReservedBitsRefused :=
  ⟨fun s _ _ h => runCommand_of_ne_ok (decode_reserved_ne_ok h) s, Response.word_reserved⟩

/-- Settles O3. Each row's words are its command's encoding, computed; that they decode to it holds of every encoding. -/
theorem workedEncodings : Obligations.WorkedEncodings :=
  ⟨decode_and_encode rfl rfl, decode_and_encode rfl rfl, decode_and_encode rfl rfl, decode_and_encode rfl rfl,
    decode_and_encode rfl rfl, decode_and_encode rfl rfl, decode_and_encode rfl rfl, decode_and_encode rfl rfl,
    decode_and_encode rfl rfl, decode_and_encode rfl rfl⟩

/-- Settles O29. Each drawing command paints its points on the frame, and a mode that does not write paints nothing. -/
theorem inverseAndNoopDrawNothing : Obligations.InverseAndNoopDrawNothing := by
  intro s mode fa a b c d i hf hmode hi
  have hm : modeWrites mode = false := by
    rw [← Bool.not_eq_true, modeWrites_iff, not_not]
    exact hmode
  rcases hi with rfl | rfl | rfl | rfl | rfl <;> refine ⟨decode_encode rfl, ?_⟩
  · rw [exec_setpix, State.drawOn_of_not_writes hf hm]
  · rw [exec_line, State.drawOn_of_not_writes hf hm]
  · rw [exec_circle, State.drawOn_of_not_writes hf hm]
  · rw [exec_box, State.drawOn_of_not_writes hf hm]
  · rw [exec_fbox, State.drawOn_of_not_writes hf hm]

end Sys2Proof
end

section
/-!
SUPPORT. The pixel commands (spec/41_pixel.md R181 to R185): what GET_PIXEL reads of a frame, and what SET_PIXEL and FILL leave
for it to read. A drawing command keeps the frame and its geometry, so a pixel is in range after it when it was before.
-/

namespace Sys2Proof.Machine

/-! ## Reading a pixel -/

theorem State.pixel_out {s : State} {h : Handle} {x y : Int} (hr : s.inRange h x y = false) : s.pixel h x y = false :=
  Canvas.getPixel_out hr

theorem exec_getpix_frame {s : State} {fa : Handle} (hf : s.isFrame fa = true) (x y : Operand) :
    exec (.getpix fa x y) s = .next (s.reply [] .ok (flagValue (s.pixel fa (val x) (val y)))) :=
  congrArg Host.Outcome.next (if_pos hf)

/-! ## What a changed bitmap keeps -/

theorem State.OnlyBitmap.inRange {s t : State} {h : Handle} (hb : s.OnlyBitmap t h) (x y : Int) :
    t.inRange h x y = s.inRange h x y := by
  rw [State.inRange, hb.itself, State.inRange]

theorem State.OnlyBitmap.isFrame {s t : State} {h : Handle} (hb : s.OnlyBitmap t h) : t.isFrame h = s.isFrame h := by
  obtain ⟨hparams, -, -⟩ := hb.outside
  rw [State.isFrame, hb.itself, hparams, State.isFrame]

/-- GET_PIXEL after a command that changed the bitmap answers the pixel the command left. -/
theorem State.OnlyBitmap.getpix_answers {s t : State} {fa : Handle} {x y : Operand} {lit : Bool} (hb : s.OnlyBitmap t fa)
    (hf : s.isFrame fa = true) (hlit : t.pixel fa (val x) (val y) = lit) :
    exec (.getpix fa x y) t = .next (t.reply [] .ok (flagValue lit)) := by
  rw [exec_getpix_frame (hb.isFrame.trans hf), hlit]

/-! ## Drawing points -/

/-- The one point visited has the mode applied once (R180). -/
theorem State.Draws.pixel_singleton {s t : State} {h : Handle} {mode : Mode} {x y : Int} (hd : s.Draws t h mode [(x, y)])
    (hr : s.inRange h x y = true) : t.pixel h x y = modeResult mode (s.pixel h x y) := by
  rw [hd.pixels x y hr, List.count_singleton_self, Function.iterate_one]

/-- A pixel no visit names keeps its value, in range or not (R182, R185). -/
theorem State.Draws.pixel_of_not_mem {s t : State} {h : Handle} {mode : Mode} {points : List Point} {x y : Int}
    (hd : s.Draws t h mode points) (hp : (x, y) ∉ points) : t.pixel h x y = s.pixel h x y := by
  cases hr : s.inRange h x y with
  | true => rw [hd.pixels x y hr, List.count_eq_zero_of_not_mem hp, Function.iterate_zero_apply]
  | false => rw [State.pixel_out hr, State.pixel_out ((hd.frame.inRange x y).trans hr)]

/-! ## SET_PIXEL (R181) -/

theorem setpix_draws {s t : State} {mode : Mode} {fa : Handle} {x y : Operand} (hs : s.Inv) (hf : s.isFrame fa = true)
    (h : exec (.setpix mode fa x y) s = .next t) : s.Draws t fa mode [(val x, val y)] := by
  rw [exec_setpix, State.drawOn_frame hf, Host.Outcome.next.injEq] at h
  exact h ▸ State.drawn_draws (hs.canvas hf) mode _

theorem Canvas.setPixel_out {c : Canvas} {x y : Int} (hr : inRange c.width c.height x y = false) (mode : Mode) :
    c.setPixel x y mode = c := by
  rcases c.setPixel_cases x y mode with ⟨-, h⟩ | ⟨hin, -⟩
  · exact h
  · simp [hr] at hin

/-- SET_PIXEL out of range answers OK and writes nothing, in every mode. -/
theorem exec_setpix_out {s : State} {fa : Handle} {x y : Operand} (hf : s.isFrame fa = true)
    (hr : s.inRange fa (val x) (val y) = false) (mode : Mode) :
    exec (.setpix mode fa x y) s = .next (s.reply [] .ok 0) := by
  have hcanvas : (s.slot fa).canvas.paint (visitsOf mode [(val x, val y)]) = (s.slot fa).canvas :=
    Canvas.setPixel_out (c := (s.slot fa).canvas) hr mode
  rw [exec_setpix, State.drawOn_frame hf, hcanvas, State.drawn_own_canvas]

/-- In a mode that sets a pixel to one value, SET_PIXEL leaves that value for GET_PIXEL to answer (R185). -/
theorem getpix_after_setpix {s t : State} {mode : Mode} {fa : Handle} {x y : Operand} {lit : Bool} (hs : s.Inv)
    (hf : s.isFrame fa = true) (hr : s.inRange fa (val x) (val y) = true) (hmode : ∀ q, modeResult mode q = lit)
    (h : exec (.setpix mode fa x y) s = .next t) : exec (.getpix fa x y) t = .next (t.reply [] .ok (flagValue lit)) :=
  have hd := setpix_draws hs hf h
  hd.frame.getpix_answers hf ((hd.pixel_singleton hr).trans (hmode _))

/-! ## FILL (R184) -/

theorem exec_fill_flag (lit : Bool) (fa : Handle) (s : State) :
    exec (.fill fa (flagValue lit)) s = .next (s.drawOn fa fun c => c.fillBytes (if lit then 0x00 else 0xFF)) := by
  cases lit <;> rfl

/-- What a frame shows after a command drew on it: the new canvas, if it has the frame's geometry. -/
theorem State.drawn_pixel {s : State} {h : Handle} {c : Canvas} (width : c.width = (s.slot h).width)
    (height : c.height = (s.slot h).height) (x y : Int) : (s.drawn h c).pixel h x y = c.getPixel x y := by
  rw [State.pixel, State.drawn_canvas, Canvas.getPixel, Canvas.getPixel, width, height]
  rfl

/-- FILL leaves the same value in every pixel in range for GET_PIXEL to answer (R185). -/
theorem getpix_after_fill {s t : State} {fa : Handle} {x y : Operand} {lit : Bool} (hf : s.isFrame fa = true)
    (hr : s.inRange fa (val x) (val y) = true) (h : exec (.fill fa (flagValue lit)) s = .next t) :
    exec (.getpix fa x y) t = .next (t.reply [] .ok (flagValue lit)) := by
  rw [exec_fill_flag, State.drawOn_frame hf, Host.Outcome.next.injEq] at h
  subst h
  refine (s.drawn_onlyBitmap fa _).getpix_answers hf ?_
  rw [State.drawn_pixel rfl rfl]
  exact Canvas.getPixel_fillBytes (s.slot fa).canvas lit hr

end Sys2Proof.Machine
end

section
namespace Sys2Proof

open Sys2Proof.Machine

/-- Settles O28. In range, the value GET_PIXEL answers is the one SET_PIXEL or FILL left; out of range there is no pixel to write
or read; and SET_PIXEL visits one point only. -/
theorem pixelLaws : Obligations.PixelLaws := by
  intro s fa x y hs hf
  refine ⟨fun hr => ⟨fun t h => ?on, fun t h => ?off, fun t h => ?fillOn, fun t h => ?fillOff⟩,
    fun hr => ⟨exec_setpix_out hf hr, ?outOfRange⟩, fun mode t x' y' h hne => ?otherPixel⟩
  case on => exact getpix_after_setpix (lit := true) hs hf hr (fun _ => rfl) h
  case off => exact getpix_after_setpix (lit := false) hs hf hr (fun _ => rfl) h
  case fillOn => exact getpix_after_fill (lit := true) hf hr h
  case fillOff => exact getpix_after_fill (lit := false) hf hr h
  case outOfRange => rw [exec_getpix_frame hf, State.pixel_out hr]; rfl
  case otherPixel =>
    refine (setpix_draws hs hf h).pixel_of_not_mem ?_
    rwa [List.mem_singleton, Prod.mk.injEq]

end Sys2Proof
end

section
/-!
SUPPORT. The encoder inverts the decoder (spec/30_encoding.md R119, R120): the five checks leave no bit of a legal command's words
free, so the words are the encoding of the command they decode to.
-/

namespace Sys2Proof

theorem Mode.bits_eq_zero_iff (m : Mode) : m.bits = 0#4 ↔ m = .on := by cases m <;> decide

/-- The command built of an opcode's fields has those fields as its encoding, when the unused ones are 0 (R115). -/
theorem Op.encode_of_build {op : Op} {m : Mode} {fa fb : Handle} {vs : List Operand} {i : Instr}
    (unused : ((op.usesMode || m.bits == 0) && (op.usesFa || fa == 0) && (op.usesFb || fb == 0)) = true)
    (hbuild : op.build m fa fb vs = some i) : encode i = headerWord op m fa fb :: vs.map operandWord := by
  cases op <;> simp only [Op.build] at hbuild <;> split at hbuild <;>
    simp only [reduceCtorEq, Option.some.injEq] at hbuild <;> subst hbuild <;>
    simp_all [Op.usesMode, Op.usesFa, Op.usesFb, encode, Mode.bits_eq_zero_iff]

theorem map_operandWord_operand {ws : List Word} (h : ∀ w ∈ ws, w.upper = 0) :
    (ws.map Word.operand).map operandWord = ws := by
  rw [List.map_map]
  exact (List.map_congr_left fun w hw => (Word.eq_operandWord (h w hw)).symm).trans (List.map_id ws)

/-- Words that pass the checks of R120 are the encoding of their command. -/
theorem eq_encode_of_decode {cmd : List Word} {i : Instr} (h : decode cmd = .ok i) :
    cmd = encode i ∧ i.wellFormed = true := by
  cases cmd with
  | nil => contradiction
  | cons hdr operands =>
    obtain ⟨op, m, hop, -, hres, hm, hup, hbuild, hwf⟩ := decode_cons_eq_ok_iff.1 h
    have hhdr : hdr = headerWord op m hdr.fa hdr.fb :=
      Word.eq_headerWord (Op.ofCode_eq_some hop) (Mode.ofBits_eq_some hm) (Op.rsv_of_reservedClear hres)
    refine ⟨?_, hwf⟩
    rw [hhdr, Op.reservedClear_headerWord] at hres
    rw [Op.encode_of_build hres hbuild, map_operandWord_operand hup, ← hhdr]

/-- Settles O1: `decode` reads back what `encode` wrote, row by row of R115. -/
theorem decodeEncode : Obligations.DecodeEncode := fun _ hwf => decode_encode hwf

/-- Settles O2. The header is put together again from its fields, the operand words from their values. -/
theorem decodeOnlyEncodings : Obligations.DecodeOnlyEncodings := fun _ _ h => eq_encode_of_decode h

end Sys2Proof
end

section
/-!
SUPPORT. What a command can do to the machine, said once for all 24 (spec/30_encoding.md R115): `exec` answers a next state, and
that state is one of ten effects of the command on the state before it. Statements about every command go through them.
-/

namespace Sys2Proof.Machine

/-- The machine after `Alloc`'s draw, which a creating command makes even when it then creates nothing (R95). -/
def State.withEnv (s : State) (env : Env) : State := { s with env := env }

/-- A display with its lines set up and its bitmap blank, as START leaves it before the scan step (R286, R287). -/
def Slot.blanked (f : Slot) : Slot := { f.emitAll pinSetupEvents with buf := [] }

/-- The blank display after its scan step, before it is registered (R287). -/
def State.blankStepped (s : State) (fa : Handle) : State :=
  (s.setSlot fa (s.slot fa).blanked).scanStep (s.setSlot fa (s.slot fa).blanked).exactView fa

/-- The timer armed (R287). -/
def State.armTimer (s : State) : State := { s with blk := { s.blk with timerArmed := true } }

/-- The state START leaves before its answer (R287). -/
def State.started (s : State) (fa : Handle) : State := ((s.blankStepped fa).register fa).armTimer

/-- The state FRAME_FREE leaves before its answer (R154). -/
def State.freed (s : State) (fa : Handle) : State :=
  (if (s.slot fa).isDisplay && s.running fa then s.unregister fa else s).free fa

/-- The effects of commands: `Effect s i t` when command `i` may turn `s` into `t`. -/
inductive Effect (s : State) : Instr → State → Prop
  /-- A failed command records its answer; `Alloc` may have drawn (R95, R332). -/
  | failed {i : Instr} (status : Status) (env : Env) (notOk : status ≠ .ok) : Effect s i ((s.withEnv env).fail status)
  /-- Nothing changes but the OK response. -/
  | answered {i : Instr} (value : BitVec 16) : Effect s i (s.reply [] .ok value)
  /-- The bitmap of a named frame changes. -/
  | drew {i : Instr} (fa : Handle) (c : Canvas) (named : fa ∈ i.handles) (frame : s.isFrame fa = true)
      (bitmap : s.Inv → c.Ok) (width : c.width = (s.slot fa).width) (height : c.height = (s.slot fa).height) :
      Effect s i (s.drawn fa c)
  /-- A slot that was not live takes a new frame (R95, R150). -/
  | created {i : Instr} (h : Handle) (f : Slot) (ws : List (Handle × Nat)) (env : Env) (free : s.freeHandle = some h)
      (pool : s.blk.poolUsed + f.poolBytes ≤ s.params.poolBytes) (inv : s.Inv → f.Inv s.params h) :
      Effect s i (((s.withEnv env).setSlot h f).reply ws .ok (handleValue h))
  /-- FRAME_FREE (R154). -/
  | freed (fa : Handle) (frame : s.isFrame fa = true) : Effect s (.ffree fa) ((s.freed fa).reply [] .ok 0)
  /-- SWAP_BUFFERS of two frames (R239). -/
  | swapped (fa fb : Handle) (frames : s.isFrame fa = true ∧ s.isFrame fb = true) (ne : fa ≠ fb)
      (width : (s.slot fa).width = (s.slot fb).width) (height : (s.slot fa).height = (s.slot fb).height) :
      Effect s (.swap fa fb) (((s.setSlot fa { s.slot fa with buf := (s.slot fb).buf }).setSlot fb
        { s.slot fb with buf := (s.slot fa).buf }).reply [] .ok 0)
  /-- SET_BRIGHTNESS (R285). -/
  | brightened (fa : Handle) (level : Operand) (display : s.isDisplay fa = true) :
      Effect s (.bright fa level)
        ((s.setSlot fa { s.slot fa with brightness := BitVec.ofInt 8 (val level) }).reply [] .ok 0)
  /-- START of a stopped display (R287). -/
  | started (fa : Handle) (ws : List (Handle × Nat)) (display : s.isDisplay fa = true) (stopped : s.running fa = false) :
      Effect s (.start fa) ((s.started fa).reply ws .ok 0)
  /-- STOP (R288). -/
  | stopped (fa : Handle) (value : BitVec 16) (display : s.isDisplay fa = true) :
      Effect s (.stop fa) ((s.unregister fa).reply [] .ok value)
  /-- SCAN_STEP of a stopped display (R289). -/
  | scanned (fa : Handle) (display : s.isDisplay fa = true) (stopped : s.running fa = false) :
      Effect s (.scan fa) ((s.scanStep s.exactView fa).reply [] .ok 0)

/-! ## Every command has an effect -/

theorem Effect.fail {s : State} {i : Instr} {status : Status} (h : status ≠ .ok) : Effect s i (s.fail status) :=
  .failed status s.env h

/-- Drawing on a frame by an action that keeps its geometry and a good bitmap (check 6 of R120). -/
theorem Effect.drawOn {s : State} {i : Instr} {fa : Handle} (named : fa ∈ i.handles) (action : Canvas → Canvas)
    (ok : ∀ c : Canvas, c.Ok → (action c).Ok)
    (size : ∀ c : Canvas, (action c).width = c.width ∧ (action c).height = c.height) : Effect s i (s.drawOn fa action) := by
  cases hf : s.isFrame fa with
  | true =>
    rw [State.drawOn_frame hf]
    exact .drew fa _ named hf (fun hs => ok _ (hs.canvas hf)) (size _).1 (size _).2
  | false => rw [State.drawOn_bad hf]; exact .fail (by decide)

theorem Effect.paintOn {s : State} {i : Instr} {fa : Handle} (named : fa ∈ i.handles) (visits : Canvas → List PixelOp) :
    Effect s i (s.drawOn fa fun c => c.paint (visits c)) :=
  .drawOn named _ (fun _ hc => hc.paint _) fun _ => ⟨Canvas.paint_width _ _, Canvas.paint_height _ _⟩

/-- Drawing where a test of the frame's size picks filling or visits (R235, R236). -/
theorem Effect.fillOrPaintOn {s : State} {i : Instr} {fa : Handle} (named : fa ∈ i.handles) (test : Canvas → Prop)
    [∀ c, Decidable (test c)] (v : Byte) (visits : Canvas → List PixelOp) :
    Effect s i (s.drawOn fa fun c => if test c then c.fillBytes v else c.paint (visits c)) := by
  refine .drawOn named _ (fun c hc => ?_) fun c => ?_
  · split
    · exact c.fillBytes_ok v
    · exact hc.paint _
  · split <;> simp

/-- A creating command, from what the new slot is (R95, R150). -/
theorem Effect.create {s : State} {i : Instr} {n : Nat} {make : Slot → Slot} (ws : List Nat)
    (pool : ∀ old, (make old).poolBytes = n)
    (inv : ∀ h, s.Inv → h ≠ 0 → h.toNat ≤ s.params.maxFrames → (make (s.slot h)).Inv s.params h) :
    Effect s i (s.create n make ws) := by
  rcases s.create_cases n make ws with ⟨h, hfree, hpool, -, e⟩ | ⟨env, e, -⟩
  · obtain ⟨h0, hmax, -, -⟩ := State.freeHandle_eq_some hfree
    rw [e]
    exact .created h _ _ _ hfree (by rwa [pool]) fun hs => inv h hs h0 hmax
  · rw [e]; exact .failed _ env (by decide)

theorem sideOk_iff (v : Operand) : sideOk v = true ↔ 1 ≤ val v := by
  have : val v < 2 ^ 15 := BitVec.toInt_lt
  rw [sideOk, Bool.and_eq_true, decide_eq_true_eq, decide_eq_true_eq, Config.maxSide]
  omega

theorem panelsOk_iff (v : Operand) : panelsOk v = true ↔ 1 ≤ val v ∧ val v ≤ 255 := by
  rw [panelsOk, Bool.and_eq_true, decide_eq_true_eq, decide_eq_true_eq, Config.maxPanels]

/-- A new plain frame's slot is legal (R35, R37). -/
theorem Slot.plainFrame_inv {p : Params} {h : Handle} {w ht : Operand} {buf : Memory} {old : Slot} (h0 : h ≠ 0)
    (hmax : h.toNat ≤ p.maxFrames) (hw : 1 ≤ val w) (hh : 1 ≤ val ht) (hwf : buf.wf = true)
    (hbelow : buf.below (bitmapSize (val w).toNat (val ht).toNat) = true) (hold : old.Inv p h) :
    (Slot.plainFrame (val w).toNat (val ht).toNat buf old).Inv p h := by
  have hw' : val w < 2 ^ 15 := BitVec.toInt_lt
  have hh' : val ht < 2 ^ 15 := BitVec.toInt_lt
  refine ⟨fun _ => ⟨h0, hmax, ?_, ?_, ?_, ?_, hwf, hbelow, by simp [Slot.plainFrame]⟩, by simp [Slot.plainFrame], hold.duty⟩ <;>
    simp only [Slot.plainFrame] <;> omega

/-- A copy of a legal frame is legal (R152). -/
theorem Slot.LiveOk.plainFrame_inv {p : Params} {fa h : Handle} {f old : Slot} (hf : f.LiveOk p fa) (h0 : h ≠ 0)
    (hmax : h.toNat ≤ p.maxFrames) (hold : old.Inv p h) : (Slot.plainFrame f.width f.height f.buf old).Inv p h :=
  ⟨fun _ => ⟨h0, hmax, hf.widthPos, hf.widthMax, hf.heightPos, hf.heightMax, hf.bitmap, hf.bitmapSize, by simp [Slot.plainFrame]⟩,
    by simp [Slot.plainFrame], hold.duty⟩

/-- A new display's slot is legal: whole panels, its output enable not driven (R155). -/
theorem Slot.newDisplay_inv {p : Params} {h : Handle} {pw ph : Operand} (h0 : h ≠ 0) (hmax : h.toNat ≤ p.maxFrames)
    (hpw : 1 ≤ val pw ∧ val pw ≤ 255) (hph : 1 ≤ val ph ∧ val ph ≤ 255) (g : Bool) (old : Slot) :
    (Slot.newDisplay (Config.panelWidth * (val pw).toNat) (Config.panelHeight * (val ph).toNat) g old).Inv p h := by
  refine ⟨fun _ => ⟨h0, hmax, ?_, ?_, ?_, ?_, ?_, ?_, fun _ => ?_⟩, by simp [Slot.newDisplay], by simp [Slot.newDisplay]⟩ <;>
    simp only [Slot.newDisplay, Config.panelWidth, Config.panelHeight, Memory.filled_ff, Memory.wf_nil, Memory.below_nil] <;>
    omega

theorem Canvas.blank_ok (w h : Nat) : Canvas.Ok ⟨w, h, Memory.filled (bitmapSize w h) 0xFF, []⟩ :=
  ⟨Memory.wf_filled (bitmapSize w h) 0xFF, Memory.below_filled (bitmapSize w h) 0xFF⟩

/-- A check of R120: the command fails, or goes on. -/
theorem Effect.check {s t : State} {i : Instr} {c : Bool} {status : Status} (hst : status ≠ .ok)
    (h : c = true → Effect s i t) : Effect s i (if c = true then t else s.fail status) := by
  split
  · exact h ‹_›
  · exact .fail hst

/-- The BUSY check (R287, R289). -/
theorem Effect.checkStopped {s t : State} {i : Instr} {c : Bool} (h : c = false → Effect s i t) :
    Effect s i (if c = true then s.fail .busy else t) := by
  cases c with
  | true => exact .fail (by decide)
  | false => exact h rfl

theorem State.sameGeometry_iff (s : State) (a b : Handle) : s.sameGeometry a b = true ↔
    (s.slot a).width = (s.slot b).width ∧ (s.slot a).height = (s.slot b).height := by
  rw [State.sameGeometry, Bool.and_eq_true, decide_eq_true_eq, decide_eq_true_eq]

/-- Every command answers a next state, by one of the effects: each check that fails is a failure, and what is left after the
checks is the command's own effect. -/
theorem exec_effect (i : Instr) (s : State) : ∃ t, exec i s = .next t ∧ Effect s i t := by
  cases i with
  | fnew w h =>
    refine ⟨_, rfl, .check (by decide) fun hside => ?_⟩
    rw [Bool.and_eq_true, sideOk_iff, sideOk_iff] at hside
    exact .create _ (fun _ => by simp [Slot.poolBytes, Slot.plainFrame]) fun _ hs h0 hmax =>
      Slot.plainFrame_inv h0 hmax hside.1 hside.2 (Memory.wf_filled _ _) (Memory.below_filled _ _) (hs.blk.slots _)
  | fcopy fa =>
    exact ⟨_, rfl, .check (by decide) fun hf =>
      .create _ (fun _ => by simp [Slot.poolBytes, Slot.plainFrame]) fun _ hs h0 hmax =>
        ((hs.blk.slots fa).live ((s.isFrame_iff fa).1 hf).1).plainFrame_inv h0 hmax (hs.blk.slots _)⟩
  | fassign fa fb =>
    refine ⟨_, rfl, .check (by decide) fun hf => .check (by decide) fun hsame => ?_⟩
    rw [Bool.and_eq_true] at hf
    rw [State.sameGeometry_iff] at hsame
    refine .drew fa _ (by simp [Instr.handles]) hf.1 (fun hs => ?_) rfl rfl
    have hsize := (hs.canvas hf.2).size
    rw [Slot.canvas_width, Slot.canvas_height, ← hsame.1, ← hsame.2] at hsize
    exact ⟨(hs.canvas hf.2).bitmap, hsize⟩
  | ffree fa => exact ⟨_, rfl, .check (by decide) (.freed fa)⟩
  | dnew pw ph g =>
    refine ⟨_, rfl, .check (by decide) fun _ => .check (by decide) fun hp => ?_⟩
    rw [Bool.and_eq_true, panelsOk_iff, panelsOk_iff] at hp
    exact .create _ (fun _ => by simp [Slot.poolBytes, Slot.newDisplay]) fun _ hs h0 hmax =>
      Slot.newDisplay_inv h0 hmax hp.1 hp.2 _ _
  | setpix mode fa x y => exact ⟨_, rfl, .paintOn (by simp [Instr.handles]) _⟩
  | getpix fa x y => exact ⟨_, rfl, .check (by decide) fun _ => .answered _⟩
  | fill fa on =>
    exact ⟨_, rfl, .check (by decide) fun _ =>
      .drawOn (by simp [Instr.handles]) _ (fun c _ => c.fillBytes_ok _) fun c => ⟨rfl, rfl⟩⟩
  | line mode fa x1 y1 x2 y2 => exact ⟨_, rfl, .paintOn (by simp [Instr.handles]) _⟩
  | circle mode fa xc yc r => exact ⟨_, rfl, .paintOn (by simp [Instr.handles]) _⟩
  | box mode fa x1 y1 x2 y2 => exact ⟨_, rfl, .paintOn (by simp [Instr.handles]) _⟩
  | fbox mode fa x1 y1 x2 y2 => exact ⟨_, rfl, .paintOn (by simp [Instr.handles]) _⟩
  | move fa fx fy tx ty w h =>
    refine ⟨_, rfl, .drawOn (by simp [Instr.handles]) _ (fun c hc => ?_) fun c => ?_⟩
    · split
      · exact hc.paint _
      · exact hc
    · split <;> simp
  | subf fa l t w h =>
    refine ⟨_, rfl, .check (by decide) fun _ => .check (by decide) fun hside => ?_⟩
    rw [Bool.and_eq_true, sideOk_iff, sideOk_iff] at hside
    refine .create _ (fun _ => by simp [Slot.poolBytes, Slot.plainFrame]) fun _ hs h0 hmax => ?_
    have hnew := (Canvas.blank_ok (val w).toNat (val h).toNat).paint
      (pasteVisits ((s.slot fa).canvas.snapshot (val l) (val t)) (val w).toNat (val h).toNat 0 0)
    exact Slot.plainFrame_inv h0 hmax hside.1 hside.2 hnew.bitmap (by simpa using hnew.size) (hs.blk.slots _)
  | copyin fa fb l t =>
    refine ⟨_, rfl, .check (by decide) fun hf => ?_⟩
    rw [Bool.and_eq_true] at hf
    exact .drew fa _ (by simp [Instr.handles]) hf.1 (fun hs => (hs.canvas hf.1).paint _) (Canvas.paint_width _ _)
      (Canvas.paint_height _ _)
  | scrx fa d => exact ⟨_, rfl, .fillOrPaintOn (by simp [Instr.handles]) _ _ _⟩
  | scry fa d => exact ⟨_, rfl, .fillOrPaintOn (by simp [Instr.handles]) _ _ _⟩
  | marqx fa d => exact ⟨_, rfl, .paintOn (by simp [Instr.handles]) _⟩
  | marqy fa d => exact ⟨_, rfl, .paintOn (by simp [Instr.handles]) _⟩
  | swap fa fb =>
    refine ⟨_, rfl, .check (by decide) fun hf => .check (by decide) fun hsame => ?_⟩
    rw [Bool.and_eq_true] at hf
    rw [State.sameGeometry_iff] at hsame
    dsimp only
    split
    case isTrue => exact .answered 0
    case isFalse hne => exact .swapped fa fb hf hne hsame.1 hsame.2
  | bright fa level => exact ⟨_, rfl, .check (by decide) fun _ => .check (by decide) (.brightened fa level)⟩
  | start fa => exact ⟨_, rfl, .check (by decide) fun hd => .checkStopped fun hr => .started fa _ hd hr⟩
  | stop fa => exact ⟨_, rfl, .check (by decide) fun hd => .stopped fa _ hd⟩
  | scan fa => exact ⟨_, rfl, .check (by decide) fun hd => .checkStopped fun hr => .scanned fa hd hr⟩

theorem Effect.of_exec {i : Instr} {s t : State} (h : exec i s = .next t) : Effect s i t := by
  obtain ⟨t', h', he⟩ := exec_effect i s
  rw [h, Host.Outcome.next.injEq] at h'
  exact h' ▸ he

end Sys2Proof.Machine
end

section
/-!
SUPPORT. What the effects leave as it was: the outside, the slots of live frames, the registry and the timer (spec/10_state.md).
-/

namespace Sys2Proof.Machine

/-! ## The state START leaves, field by field -/

theorem Slot.blanked_eq (f : Slot) : f.blanked =
    { f with buf := [], oe := .driven .off, latch := .driven false, rs0 := .driven false, rs1 := .driven false,
             trace := f.trace ++ [.oe .off, .latch false, .rs0 false, .rs1 false] } := by
  simp [Slot.blanked, pinSetupEvents, Slot.emitAll, Slot.emit]

@[simp] theorem State.armTimer_slot (s : State) (h : Handle) : s.armTimer.slot h = s.slot h := rfl
@[simp] theorem State.armTimer_blk (s : State) : s.armTimer.blk = { s.blk with timerArmed := true } := rfl
@[simp] theorem State.armTimer_params (s : State) : s.armTimer.params = s.params := rfl
@[simp] theorem State.armTimer_port (s : State) : s.armTimer.port = s.port := rfl
@[simp] theorem State.armTimer_input (s : State) : s.armTimer.input = s.input := rfl
@[simp] theorem State.armTimer_env (s : State) : s.armTimer.env = s.env := rfl

@[simp] theorem State.withEnv_slot (s : State) (env : Env) (h : Handle) : (s.withEnv env).slot h = s.slot h := rfl
@[simp] theorem State.withEnv_blk (s : State) (env : Env) : (s.withEnv env).blk = s.blk := rfl
@[simp] theorem State.withEnv_params (s : State) (env : Env) : (s.withEnv env).params = s.params := rfl
@[simp] theorem State.withEnv_port (s : State) (env : Env) : (s.withEnv env).port = s.port := rfl
@[simp] theorem State.withEnv_input (s : State) (env : Env) : (s.withEnv env).input = s.input := rfl

/-- A scan step's blank display stands in the slot; the step is skipped only when the guard is asserted (R271, R287). -/
theorem State.blankStepped_slot_self (s : State) (fa : Handle) : (s.blankStepped fa).slot fa = (s.slot fa).blanked ∨
    ∃ read, (s.blankStepped fa).slot fa = (s.slot fa).blanked.scan read := by
  rcases (s.setSlot fa (s.slot fa).blanked).scanStep_slot_self (s.setSlot fa (s.slot fa).blanked).exactView fa with h | h
  · exact .inl (h.1.trans (State.slot_setSlot_self _ _ _))
  · exact .inr ⟨_, h.trans (by rw [State.slot_setSlot_self])⟩

theorem State.blankStepped_slot_of_ne (s : State) {fa h : Handle} (hne : h ≠ fa) :
    (s.blankStepped fa).slot h = s.slot h := by
  rw [State.blankStepped, State.scanStep_slot_of_ne _ _ hne, State.slot_setSlot_of_ne _ _ hne]

/-- What the blank scan step leaves besides the display's slot (R287). -/
theorem State.blankStepped_rest (s : State) (fa : Handle) :
    s.SameOutside (s.blankStepped fa) ∧ s.SameScheduler (s.blankStepped fa)
      ∧ (s.blankStepped fa).blk.responses = s.blk.responses ∧ (s.blankStepped fa).env.alloc = s.env.alloc
      ∧ (s.blankStepped fa).env.grow = s.env.grow := by
  obtain ⟨hp, hport, hin, -, hreg, harm, hresp, halloc, hgrow, -⟩ :=
    (s.setSlot fa (s.slot fa).blanked).scanStep_rest (s.setSlot fa (s.slot fa).blanked).exactView fa
  exact ⟨⟨hp, hport, hin⟩, ⟨hreg, harm⟩, hresp, halloc, hgrow⟩

theorem State.started_slot (s : State) (fa h : Handle) : (s.started fa).slot h = (s.blankStepped fa).slot h := by
  simp [State.started]

theorem State.started_outside (s : State) (fa : Handle) : s.SameOutside (s.started fa) := by
  obtain ⟨⟨hp, hport, hin⟩, -⟩ := s.blankStepped_rest fa
  obtain ⟨rp, rport, rin, -⟩ := (s.blankStepped fa).register_rest fa
  exact ⟨rp.trans hp, rport.trans hport, rin.trans hin⟩

theorem State.started_responses (s : State) (fa : Handle) : (s.started fa).blk.responses = s.blk.responses := by
  obtain ⟨-, -, hresp, -⟩ := s.blankStepped_rest fa
  obtain ⟨-, -, -, -, -, rresp, -⟩ := (s.blankStepped fa).register_rest fa
  exact rresp.trans hresp

theorem State.freed_eq (s : State) (fa : Handle) : s.freed fa = (s.unregister fa).free fa ∧ s.running fa = true ∨
    s.freed fa = s.free fa ∧ ((s.slot fa).isDisplay = false ∨ s.running fa = false) := by
  cases hd : (s.slot fa).isDisplay <;> cases hr : s.running fa <;> simp [State.freed, hd, hr]

@[simp] theorem State.freed_slot_self (s : State) (fa : Handle) :
    (s.freed fa).slot fa = { s.slot fa with live := false, buf := [] } := by
  rcases s.freed_eq fa with ⟨e, -⟩ | ⟨e, -⟩ <;> simp [e]

theorem State.freed_slot_of_ne (s : State) {fa h : Handle} (hne : h ≠ fa) : (s.freed fa).slot h = s.slot h := by
  rcases s.freed_eq fa with ⟨e, -⟩ | ⟨e, -⟩ <;> simp [e, State.free_slot_of_ne _ hne]

/-! ## The outside and the answer -/

/-- No command changes the parameters, the port or the queue (R8, R89). -/
theorem Effect.outside {s t : State} {i : Instr} (he : Effect s i t) : s.SameOutside t := by
  cases he with
  | failed | answered | drew | created | swapped | brightened | stopped => exact ⟨rfl, rfl, rfl⟩
  | freed fa => rcases s.freed_eq fa with ⟨e, -⟩ | ⟨e, -⟩ <;> rw [e] <;> exact ⟨rfl, rfl, rfl⟩
  | started => exact s.started_outside _
  | scanned fa =>
    obtain ⟨hp, hport, hin, -⟩ := s.scanStep_rest s.exactView fa
    exact ⟨hp, hport, hin⟩

/-- Every command answers once, and a failed one records nothing but its answer (R51, R332). -/
theorem Effect.answers {s t : State} {i : Instr} (he : Effect s i t) : ∃ status value, s.Answers t status value ∧
    (status ≠ .ok → value = 0 ∧ s.OnlyAnswers t status) := by
  cases he with
  | failed => exact ⟨_, _, rfl, fun _ => ⟨rfl, ⟨rfl, rfl, rfl⟩, rfl, ⟨rfl, rfl⟩, rfl, rfl⟩⟩
  | answered | drew | created | swapped | brightened | stopped => exact ⟨.ok, _, rfl, fun h => absurd rfl h⟩
  | freed fa =>
    refine ⟨.ok, 0, ?_, fun h => absurd rfl h⟩
    rcases s.freed_eq fa with ⟨e, -⟩ | ⟨e, -⟩ <;> rw [e] <;> rfl
  | started => exact ⟨.ok, 0, by simp [State.Answers, State.started_responses], fun h => absurd rfl h⟩
  | scanned => exact ⟨.ok, 0, by simp [State.Answers], fun h => absurd rfl h⟩

/-! ## The slots of live frames -/

/-- What a command makes of a live frame's slot: it may change the bitmap of a frame it names; FRAME_FREE frees the frame;
SET_BRIGHTNESS sets the brightness; START and SCAN_STEP write what a scan step writes (R35, R39 to R42). -/
theorem Effect.live_slot {s t : State} {i : Instr} {h : Handle} (he : Effect s i t) (hl : (s.slot h).live = true) :
    (∃ buf, t.slot h = { s.slot h with buf := buf } ∧ (h ∈ i.handles ∨ buf = (s.slot h).buf)) ∨
    (i = .ffree h ∧ t.slot h = { s.slot h with live := false, buf := [] }) ∨
    (∃ level b, i = .bright h level ∧ t.slot h = { s.slot h with brightness := b }) ∨
    ((i = .start h ∨ i = .scan h) ∧ ∃ now buf, t.slot h = { (s.slot h).withScanOf now with buf := buf }) := by
  have unchanged : t.slot h = s.slot h →
      ∃ buf, t.slot h = { s.slot h with buf := buf } ∧ (h ∈ i.handles ∨ buf = (s.slot h).buf) :=
    fun e => ⟨_, e, .inr rfl⟩
  cases he with
  | failed | answered | stopped => exact .inl (unchanged rfl)
  | drew fa c named =>
    by_cases hh : h = fa
    · subst hh; exact .inl ⟨c.buf, by simp, .inl named⟩
    · exact .inl (unchanged (s.drawn_slot_of_ne c hh))
  | created k f ws env free =>
    have hh : h ≠ k := by rintro rfl; simp [(State.freeHandle_eq_some free).2.2.1] at hl
    exact .inl (unchanged ((s.withEnv env).slot_setSlot_of_ne f hh))
  | freed fa =>
    by_cases hh : h = fa
    · subst hh; exact .inr (.inl ⟨rfl, by simp⟩)
    · exact .inl (unchanged (s.freed_slot_of_ne hh))
  | swapped fa fb =>
    refine .inl ?_
    by_cases hb : h = fb
    · subst hb; exact ⟨(s.slot fa).buf, by simp, .inl (by simp [Instr.handles])⟩
    · by_cases ha : h = fa
      · subst ha
        exact ⟨(s.slot fb).buf, by rw [State.reply_slot, State.slot_setSlot_of_ne _ _ hb, State.slot_setSlot_self],
          .inl (by simp [Instr.handles])⟩
      · exact unchanged (by rw [State.reply_slot, State.slot_setSlot_of_ne _ _ hb, State.slot_setSlot_of_ne _ _ ha])
  | brightened fa level =>
    by_cases hh : h = fa
    · subst hh; exact .inr (.inr (.inl ⟨level, _, rfl, by simp; rfl⟩))
    · exact .inl (unchanged (s.slot_setSlot_of_ne _ hh))
  | started fa =>
    by_cases hh : h = fa
    · subst hh
      refine .inr (.inr (.inr ⟨.inl rfl, ?_⟩))
      rw [State.reply_slot, State.started_slot]
      rcases s.blankStepped_slot_self h with e | ⟨read, e⟩
      · exact ⟨(s.slot h).blanked, [], by rw [e, Slot.blanked_eq]; rfl⟩
      · exact ⟨(s.slot h).blanked.scan read, [], by rw [e, Slot.scan_eq, Slot.blanked_eq]; rfl⟩
    · exact .inl (unchanged ((s.started_slot fa h).trans (s.blankStepped_slot_of_ne hh)))
  | scanned fa =>
    by_cases hh : h = fa
    · subst hh
      refine .inr (.inr (.inr ⟨.inr rfl, ?_⟩))
      rcases s.scanStep_slot_self s.exactView h with ⟨e, -⟩ | e
      · exact ⟨s.slot h, (s.slot h).buf, e⟩
      · exact ⟨(s.slot h).scan (s.exactView h), (s.slot h).buf, by rw [State.reply_slot, e, Slot.scan_eq]; rfl⟩
    · exact .inl (unchanged (s.scanStep_slot_of_ne _ hh))

/-! ## The registry and the timer -/

theorem State.register_registry (s : State) (d : Handle) :
    (s.register d).blk.registry = s.blk.registry ∨
    (∃ before after, s.blk.registry = before ++ none :: after
      ∧ (s.register d).blk.registry = before ++ some d :: after) ∨
    (s.blk.registry.length < s.params.registryCapacity ∧ (s.register d).blk.registry = s.blk.registry ++ [some d]) := by
  rcases s.register_cases d with ⟨_, e⟩ | ⟨_, before, after, _, hreg, e⟩ | ⟨_, _, hlen, _, e⟩ | ⟨_, _, _, _, e⟩
  · exact .inl (by rw [e])
  · exact .inr (.inl ⟨before, after, hreg, by rw [e]⟩)
  · exact .inr (.inr ⟨hlen, by rw [e]⟩)
  · exact .inl (by rw [e])

/-- What a command makes of the registry and the timer: STOP and FRAME_FREE unregister, START registers and arms; every other
command leaves them (R44, R46). -/
theorem Effect.scheduler {s t : State} {i : Instr} (he : Effect s i t) :
    s.SameScheduler t ∨
    (∃ d, (i = .stop d ∨ i = .ffree d) ∧ t.blk.registry = unregisterSlots d s.blk.registry
      ∧ t.blk.timerArmed = (s.blk.timerArmed && anyOccupied (unregisterSlots d s.blk.registry))) ∨
    (∃ d, i = .start d ∧ t.blk.registry = ((s.blankStepped d).register d).blk.registry ∧ t.blk.timerArmed = true) := by
  cases he with
  | failed | answered | drew | created | swapped | brightened => exact .inl ⟨rfl, rfl⟩
  | freed fa =>
    rcases s.freed_eq fa with ⟨e, -⟩ | ⟨e, -⟩ <;> rw [e]
    · exact .inr (.inl ⟨fa, .inr rfl, rfl, rfl⟩)
    · exact .inl ⟨rfl, rfl⟩
  | started => exact .inr (.inr ⟨_, rfl, rfl, rfl⟩)
  | stopped => exact .inr (.inl ⟨_, .inl rfl, rfl, rfl⟩)
  | scanned fa =>
    obtain ⟨-, -, -, -, hreg, harm, -⟩ := s.scanStep_rest s.exactView fa
    exact .inl ⟨hreg, harm⟩

/-! ## The words on the port -/

/-- The words of a command, legal or not, have an effect: illegal ones that of a failed command (R120). -/
theorem runCommand_effect (cmd : List Word) (s : State) : ∃ t i, runCommand cmd s = .next t ∧ Effect s i t := by
  cases hd : decode cmd with
  | ok i =>
    obtain ⟨t, ht, he⟩ := exec_effect i s
    exact ⟨t, i, (runCommand_of_ok hd s).trans ht, he⟩
  | error e =>
    exact ⟨_, .fnew 0 0, runCommand_of_ne_ok (by simp [hd]) s, .fail (by decide)⟩

/-- Settles O14: every effect of a command appends its one response and, on failure, nothing else. -/
theorem oneResponsePerCommand : Obligations.OneResponsePerCommand := by
  intro cmd s
  obtain ⟨t, i, ht, he⟩ := runCommand_effect cmd s
  obtain ⟨status, value, h⟩ := he.answers
  exact ⟨t, status, value, ht, h⟩

/-- Settles O18. A command that changes a live frame in any way names it. -/
theorem unnamedFramesUntouched : Obligations.UnnamedFramesUntouched := by
  intro i s t h ht hl hn
  rcases (Effect.of_exec ht).live_slot hl with ⟨buf, e, hb⟩ | ⟨rfl, -⟩ | ⟨_, _, rfl, -⟩ | ⟨rfl | rfl, -⟩
  · rw [e, hb.resolve_left hn]
  all_goals simp [Instr.handles] at hn

/-- Settles O19: each effect keeps the geometry of a live slot. -/
theorem geometryFixed : Obligations.GeometryFixed := by
  intro i s t h ht hl
  rcases (Effect.of_exec ht).live_slot hl with ⟨_, e, -⟩ | ⟨hi, e⟩ | ⟨_, _, -, e⟩ | ⟨-, _, _, e⟩ <;> rw [e]
  · exact ⟨rfl, rfl, rfl, rfl, .inl hl⟩
  · exact ⟨rfl, rfl, rfl, rfl, .inr hi⟩
  · exact ⟨rfl, rfl, rfl, rfl, .inl hl⟩
  · exact ⟨rfl, rfl, rfl, rfl, .inl hl⟩

/-- Settles O20: of the effects on a live slot, only the scan and the brightness one touch these fields. -/
theorem scanStateWriters : Obligations.ScanStateWriters := by
  intro i s t h ht hl
  rcases (Effect.of_exec ht).live_slot hl with ⟨_, e, -⟩ | ⟨hi, e⟩ | ⟨level, _, hi, e⟩ | ⟨hi, _, _, e⟩ <;> rw [e]
  · exact ⟨fun _ _ => rfl, fun _ => rfl⟩
  · exact ⟨fun _ _ => rfl, fun _ => rfl⟩
  · exact ⟨fun _ _ => rfl, fun hb => absurd hi (hb level)⟩
  · exact ⟨fun h1 h2 => (hi.elim h1 h2).elim, fun _ => rfl⟩

/-- Settles O21. Unregistering keeps the length; registering reuses a slot or appends one. -/
theorem schedulerWriters : Obligations.SchedulerWriters := by
  intro i s t ht
  rcases (Effect.of_exec ht).scheduler with ⟨hreg, harm⟩ | ⟨d, hi, hreg, harm⟩ | ⟨d, hi, hreg, harm⟩
  · exact ⟨by rw [hreg], fun h0 h1 => by simp [harm, h0] at h1, fun h1 h0 => by simp [harm, h1] at h0,
      fun hne => absurd hreg hne⟩
  · have hi' : ∃ d, i = .stop d ∨ i = .ffree d := ⟨d, hi⟩
    refine ⟨by simp [hreg], fun h0 h1 => by simp [harm, h0] at h1, fun _ _ => hi', fun _ => ⟨d, .inr hi⟩⟩
  · refine ⟨?_, fun _ _ => ⟨d, hi⟩, fun _ h0 => by simp [harm] at h0, fun _ => ⟨d, .inl hi⟩⟩
    obtain ⟨-, ⟨hreg0, -⟩, -⟩ := s.blankStepped_rest d
    rw [hreg, ← hreg0]
    rcases (s.blankStepped d).register_registry d with e | ⟨_, _, e0, e⟩ | ⟨_, e⟩ <;> rw [e]
    · simp [e0]
    · simp

end Sys2Proof.Machine
end

section
/-!
SUPPORT. The invariant (spec/10_state.md R53) is kept by each way a block can change: one slot written, one slot taken or freed, a
display registered or unregistered, a tick, the footprint of a command installed. Every effect is made of these.
-/

namespace Sys2Proof.Machine

/-! ## Slots -/

/-- A slot keeps its place in the invariant when another of its fields changes: its bitmap to one as good, its output enable to
any level but a full duty. -/
theorem Slot.Inv.update {p : Params} {h : Handle} {f g : Slot} (hf : f.Inv p h) (hl : f.live = true) (live : g.live = true)
    (width : g.width = f.width) (height : g.height = f.height) (display : g.isDisplay = f.isDisplay) (canvas : g.canvas.Ok)
    (duty : g.oe ≠ .driven (.pwm Config.brightnessFull)) : g.Inv p h := by
  have hok := hf.live hl
  refine ⟨fun _ => ⟨hok.handlePos, hok.handleMax, ?_, ?_, ?_, ?_, canvas.bitmap, canvas.size, ?_⟩, by simp [live], duty⟩
  · exact width ▸ hok.widthPos
  · exact width ▸ hok.widthMax
  · exact height ▸ hok.heightPos
  · exact height ▸ hok.heightMax
  · rw [display, width, height]; exact hok.wholePanels

theorem brightnessLevel_ne_full (b : BitVec 8) : brightnessLevel b ≠ .pwm Config.brightnessFull := by
  rw [brightnessLevel]
  split
  · simp
  · simpa using ‹_›

/-- The fields of a tick or a scan step may be written in any legal slot (R42, R85). -/
theorem Slot.Inv.withScanOf {p : Params} {h : Handle} {f : Slot} (hf : f.Inv p h) {now : Slot}
    (duty : now.oe ≠ .driven (.pwm Config.brightnessFull)) : (f.withScanOf now).Inv p h :=
  ⟨fun hl => let ok := hf.live hl
    ⟨ok.handlePos, ok.handleMax, ok.widthPos, ok.widthMax, ok.heightPos, ok.heightMax, ok.bitmap, ok.bitmapSize, ok.wholePanels⟩,
    hf.dead, duty⟩

theorem Slot.Inv.scan {p : Params} {h : Handle} {f : Slot} (hf : f.Inv p h) (read : Nat → Byte) : (f.scan read).Inv p h := by
  rw [Slot.scan_withScanOf]
  refine hf.withScanOf ?_
  rw [Slot.scan_eq]
  simpa using brightnessLevel_ne_full f.brightness

@[simp] theorem Slot.scan_live (f : Slot) (read : Nat → Byte) : (f.scan read).live = f.live := by rw [Slot.scan_eq]
@[simp] theorem Slot.scan_width (f : Slot) (read : Nat → Byte) : (f.scan read).width = f.width := by rw [Slot.scan_eq]
@[simp] theorem Slot.scan_height (f : Slot) (read : Nat → Byte) : (f.scan read).height = f.height := by rw [Slot.scan_eq]
@[simp] theorem Slot.scan_isDisplay (f : Slot) (read : Nat → Byte) : (f.scan read).isDisplay = f.isDisplay := by
  rw [Slot.scan_eq]
@[simp] theorem Slot.scan_poolBytes (f : Slot) (read : Nat → Byte) : (f.scan read).poolBytes = f.poolBytes := by
  simp [Slot.poolBytes]

@[simp] theorem Slot.blanked_live (f : Slot) : f.blanked.live = f.live := by rw [Slot.blanked_eq]
@[simp] theorem Slot.blanked_width (f : Slot) : f.blanked.width = f.width := by rw [Slot.blanked_eq]
@[simp] theorem Slot.blanked_height (f : Slot) : f.blanked.height = f.height := by rw [Slot.blanked_eq]
@[simp] theorem Slot.blanked_isDisplay (f : Slot) : f.blanked.isDisplay = f.isDisplay := by rw [Slot.blanked_eq]
@[simp] theorem Slot.blanked_buf (f : Slot) : f.blanked.buf = [] := rfl

theorem Slot.Inv.blanked {p : Params} {h : Handle} {f : Slot} (hf : f.Inv p h) : f.blanked.Inv p h := by
  cases hl : f.live with
  | true => exact hf.update hl (by simpa) (by simp) (by simp) (by simp) ⟨rfl, rfl⟩ (by simp [Slot.blanked_eq])
  | false => exact ⟨by simp [hl], fun _ => rfl, by simp [Slot.blanked_eq]⟩

/-! ## One slot changes -/

/-- Slots that change neither their geometry nor their kind, nor become or cease to be live. -/
def Slot.SameFrame (f g : Slot) : Prop :=
  g.live = f.live ∧ g.width = f.width ∧ g.height = f.height ∧ g.isDisplay = f.isDisplay

/-- A block whose slots are legal and keep their geometry, with the scheduler as it was (R53). -/
theorem Block.Inv.of_sameFrames {p : Params} {a b : Block} (ha : a.Inv p) (slots : ∀ h, (b.slot h).Inv p h)
    (same : ∀ h, (a.slot h).SameFrame (b.slot h)) (registry : b.registry = a.registry)
    (armed : b.timerArmed = a.timerArmed) : b.Inv p where
  slots := slots
  pool := by
    rw [Block.poolUsed_congr (b := a) fun h => ?_]
    · exact ha.pool
    · obtain ⟨hl, hw, hh, -⟩ := same h
      rw [Slot.poolBytes, Slot.poolBytes, hl, hw, hh]
  capacity := registry ▸ ha.capacity
  registered := by
    intro d hd
    obtain ⟨hl, -, -, hk⟩ := same d
    rw [hl, hk]
    exact ha.registered d (registry ▸ hd)
  once := registry ▸ ha.once
  armed := by rw [registry, armed]; exact ha.armed

theorem Block.Inv.setSlot {p : Params} {b : Block} (hb : b.Inv p) {h : Handle} {f : Slot} (hf : f.Inv p h)
    (same : (b.slot h).SameFrame f) : (b.setSlot h f).Inv p := by
  refine hb.of_sameFrames (fun k => ?_) (fun k => ?_) rfl rfl <;> rw [Block.slot_setSlot] <;> split
  · subst_vars; exact hf
  · exact hb.slots k
  · subst_vars; exact same
  · exact ⟨rfl, rfl, rfl, rfl⟩

/-- A slot of a legal block holds another bitmap (R37). -/
theorem Block.Inv.setBuf {p : Params} {b : Block} (hb : b.Inv p) {h : Handle} (hl : (b.slot h).live = true) {buf : Memory}
    (ok : Canvas.Ok { (b.slot h).canvas with buf := buf }) : (b.setSlot h { b.slot h with buf := buf }).Inv p :=
  hb.setSlot ((hb.slots h).update hl hl rfl rfl rfl ⟨ok.bitmap, ok.size⟩ (hb.slots h).duty) ⟨rfl, rfl, rfl, rfl⟩

/-- A slot that was not live takes a new frame that the pool has room for (R95). -/
theorem Block.Inv.setSlot_new {p : Params} {b : Block} (hb : b.Inv p) {h : Handle} {f : Slot} (hf : f.Inv p h)
    (free : (b.slot h).live = false) (pool : b.poolUsed + f.poolBytes ≤ p.poolBytes) : (b.setSlot h f).Inv p where
  slots := by
    intro k
    rw [Block.slot_setSlot]
    split
    · subst_vars; exact hf
    · exact hb.slots k
  pool := by
    have := b.poolUsed_setSlot h f
    omega
  capacity := hb.capacity
  registered := by
    intro d hd
    have hlive := hb.registered d hd
    have hne : d ≠ h := by rintro rfl; simp [free] at hlive
    rwa [Block.slot_setSlot_of_ne b f hne]
  once := hb.once
  armed := hb.armed

/-- A frame that does not run is freed (R96). -/
theorem Block.Inv.free {p : Params} {b : Block} (hb : b.Inv p) {h : Handle} (stopped : some h ∉ b.registry) :
    (b.setSlot h { b.slot h with live := false, buf := [] }).Inv p where
  slots := by
    intro k
    rw [Block.slot_setSlot]
    split
    · subst_vars; exact ⟨by simp, fun _ => rfl, (hb.slots _).duty⟩
    · exact hb.slots k
  pool := by
    have hset := b.poolUsed_setSlot h { b.slot h with live := false, buf := [] }
    have hzero : ({ b.slot h with live := false, buf := [] } : Slot).poolBytes = 0 := rfl
    have := hb.pool
    omega
  capacity := hb.capacity
  registered := by
    intro d hd
    have hne : d ≠ h := by rintro rfl; exact stopped hd
    rw [Block.slot_setSlot_of_ne b _ hne]
    exact hb.registered d hd
  once := hb.once
  armed := hb.armed

/-- The responses are no part of the invariant (R51). -/
theorem Block.Inv.respond {p : Params} {b : Block} (hb : b.Inv p) (responses : List Response) :
    ({ b with responses := responses } : Block).Inv p :=
  ⟨hb.slots, hb.pool, hb.capacity, hb.registered, hb.once, hb.armed⟩

/-! ## The registry -/

theorem filterMap_unregisterSlots (d : Handle) (l : List (Option Handle)) :
    (unregisterSlots d l).filterMap id = (l.filterMap id).filter (· ≠ d) := by
  induction l with
  | nil => rfl
  | cons e l ih =>
    rw [unregisterSlots] at ih ⊢
    cases e with
    | none => simpa using ih
    | some e => by_cases he : e = d <;> simpa [he] using ih

/-- A display leaves the registry, and the timer is disarmed when no other runs (R301, R306). -/
theorem Block.Inv.unregister {p : Params} {b : Block} (hb : b.Inv p) (d : Handle) :
    ({ b with registry := unregisterSlots d b.registry,
              timerArmed := b.timerArmed && anyOccupied (unregisterSlots d b.registry) } : Block).Inv p where
  slots := hb.slots
  pool := hb.pool
  capacity := by simpa using hb.capacity
  registered := fun e he => hb.registered e (mem_unregisterSlots.1 he).1
  once := by rw [filterMap_unregisterSlots]; exact hb.once.filter _
  armed := by
    intro h
    have hany : anyOccupied b.registry = true := by
      rw [anyOccupied_iff] at h ⊢
      obtain ⟨e, he⟩ := h
      exact ⟨e, (mem_unregisterSlots.1 he).1⟩
    simpa [h] using hb.armed hany

/-- The registry with a display added, where `Register` puts it (R300). -/
def RegistryWith (capacity : Nat) (d : Handle) (l l' : List (Option Handle)) : Prop :=
  l' = l ∨ (∃ before after, l = before ++ none :: after ∧ l' = before ++ some d :: after) ∨
    (l.length < capacity ∧ l' = l ++ [some d])

theorem RegistryWith.mem {capacity : Nat} {d e : Handle} {l l' : List (Option Handle)} (h : RegistryWith capacity d l l')
    (he : some e ∈ l') : e = d ∨ some e ∈ l := by
  rcases h with rfl | ⟨before, after, rfl, rfl⟩ | ⟨-, rfl⟩
  · exact .inr he
  · simp only [List.mem_append, List.mem_cons, Option.some.injEq, reduceCtorEq, false_or] at he ⊢; tauto
  · simp only [List.mem_append, List.mem_singleton, Option.some.injEq] at he; tauto

theorem RegistryWith.length_le {capacity : Nat} {d : Handle} {l l' : List (Option Handle)} (h : RegistryWith capacity d l l')
    (hl : l.length ≤ capacity) : l'.length ≤ capacity := by
  rcases h with rfl | ⟨before, after, rfl, rfl⟩ | ⟨hlt, rfl⟩
  · exact hl
  · simpa using hl
  · simpa using hlt

theorem RegistryWith.nodup {capacity : Nat} {d : Handle} {l l' : List (Option Handle)} (h : RegistryWith capacity d l l')
    (hd : some d ∉ l) (hl : (l.filterMap id).Nodup) : (l'.filterMap id).Nodup := by
  have hd' : d ∉ l.filterMap id := by rwa [mem_registered]
  rcases h with rfl | ⟨before, after, rfl, rfl⟩ | ⟨-, rfl⟩
  · exact hl
  · rw [List.filterMap_append] at hl hd' ⊢
    exact List.nodup_middle.2 (List.nodup_cons.2 ⟨hd', hl⟩)
  · rw [List.filterMap_append]
    exact List.nodup_append_comm.2 (List.nodup_cons.2 ⟨hd', hl⟩)

theorem State.register_registryWith (s : State) (d : Handle) :
    RegistryWith s.params.registryCapacity d s.blk.registry (s.register d).blk.registry := s.register_registry d

/-- A stopped display is registered and the timer armed (R287, R300). -/
theorem Block.Inv.register {p : Params} {b : Block} (hb : b.Inv p) {d : Handle} {slots : List (Option Handle)}
    (hw : RegistryWith p.registryCapacity d b.registry slots) (stopped : some d ∉ b.registry)
    (display : (b.slot d).live = true ∧ (b.slot d).isDisplay = true) :
    ({ b with registry := slots, timerArmed := true } : Block).Inv p where
  slots := hb.slots
  pool := hb.pool
  capacity := hw.length_le hb.capacity
  registered := by
    intro e he
    rcases hw.mem he with rfl | he
    · exact display
    · exact hb.registered e he
  once := hw.nodup stopped hb.once
  armed := fun _ => rfl

/-! ## Effects -/

theorem State.not_mem_of_stopped {s : State} {d : Handle} (h : s.running d = false) : some d ∉ s.blk.registry := by
  rw [← State.running_iff, h]; exact Bool.false_ne_true

theorem State.Inv.registered {s : State} (hs : s.Inv) {d : Handle} (hr : s.running d = true) :
    (s.slot d).live = true ∧ (s.slot d).isDisplay = true := hs.blk.registered d ((s.running_iff d).1 hr)

/-- Only displays run (R53 c). -/
theorem State.Inv.not_running {s : State} (hs : s.Inv) {d : Handle}
    (h : (s.slot d).isDisplay = false ∨ s.running d = false) : s.running d = false := by
  rcases h with hplain | hstop
  · rw [Bool.eq_false_iff]
    intro hr
    simp [(hs.registered hr).2] at hplain
  · exact hstop

theorem State.isFrame.live {s : State} {h : Handle} (hf : s.isFrame h = true) : (s.slot h).live = true :=
  ((s.isFrame_iff h).1 hf).1

theorem State.isDisplay.live {s : State} {h : Handle} (hd : s.isDisplay h = true) : (s.slot h).live = true :=
  State.isFrame.live ((s.isDisplay_iff h).1 hd).1

theorem State.scanStep_inv {s : State} {p : Params} (hb : s.blk.Inv p) (view : View) (d : Handle) :
    (s.scanStep view d).blk.Inv p := by
  rcases s.scanStep_cases view d with ⟨-, -, e⟩ | ⟨-, guard, e⟩ <;> rw [e]
  · exact hb
  · exact hb.setSlot ((hb.slots d).scan _) ⟨Slot.scan_live _ _, Slot.scan_width _ _, Slot.scan_height _ _, Slot.scan_isDisplay _ _⟩

theorem State.blankStepped_inv {s : State} {p : Params} (hb : s.blk.Inv p) (fa : Handle) : (s.blankStepped fa).blk.Inv p :=
  State.scanStep_inv (s := s.setSlot fa (s.slot fa).blanked) (hb.setSlot (hb.slots fa).blanked ⟨Slot.blanked_live _,
    Slot.blanked_width _, Slot.blanked_height _, Slot.blanked_isDisplay _⟩) _ fa

/-- The stepped display keeps its frame. -/
theorem State.blankStepped_sameFrame (s : State) (fa : Handle) : (s.slot fa).SameFrame ((s.blankStepped fa).slot fa) := by
  rcases s.blankStepped_slot_self fa with e | ⟨read, e⟩ <;> rw [e] <;> simp [Slot.SameFrame]

theorem State.started_blk (s : State) (fa : Handle) : (s.started fa).blk = { (s.blankStepped fa).blk with
    registry := ((s.blankStepped fa).register fa).blk.registry, timerArmed := true } := by
  obtain ⟨-, -, -, -, -, hresp, -⟩ := (s.blankStepped fa).register_rest fa
  exact Block.ext_slots (s.started_slot fa) rfl rfl hresp

theorem State.started_inv {s : State} (hs : s.Inv) {fa : Handle} (hd : s.isDisplay fa = true) (hr : s.running fa = false) :
    (s.started fa).blk.Inv s.params := by
  obtain ⟨⟨hp, -, -⟩, ⟨hreg, -⟩, -⟩ := s.blankStepped_rest fa
  obtain ⟨hlive, -, -, hkind⟩ := s.blankStepped_sameFrame fa
  have hw := (s.blankStepped fa).register_registryWith fa
  rw [hp] at hw
  have hb := (State.blankStepped_inv hs.blk fa).register hw (by rw [hreg]; exact State.not_mem_of_stopped hr)
    ⟨hlive.trans (State.isDisplay.live hd), hkind.trans ((s.isDisplay_iff fa).1 hd).2⟩
  rwa [← State.started_blk] at hb

/-- Every command's effect keeps the state tuple legal (R53). -/
theorem Effect.inv {s t : State} {i : Instr} (he : Effect s i t) (hs : s.Inv) : t.blk.Inv s.params := by
  cases he with
  | failed | answered => exact hs.blk.respond _
  | drew fa c named frame bitmap width height =>
    refine (hs.blk.setBuf (State.isFrame.live frame) ?_).respond _
    have ok := bitmap hs
    exact ⟨ok.bitmap, by have := ok.size; rwa [width, height] at this⟩
  | created h f ws env free pool inv =>
    exact (hs.blk.setSlot_new (inv hs) (State.freeHandle_eq_some free).2.2.1 pool).respond _
  | freed fa frame =>
    refine Block.Inv.respond ?_ _
    rcases s.freed_eq fa with ⟨e, -⟩ | ⟨e, hstop⟩ <;> rw [e]
    · exact (hs.blk.unregister fa).free fun hmem => (mem_unregisterSlots.1 hmem).2 rfl
    · exact hs.blk.free (State.not_mem_of_stopped (hs.not_running hstop))
  | swapped fa fb frames ne width height =>
    obtain ⟨ha, hb⟩ := frames
    have oka := hs.canvas ha
    have okb := hs.canvas hb
    have sizea := oka.size
    have sizeb := okb.size
    rw [Slot.canvas_width, Slot.canvas_height, width, height] at sizea
    rw [Slot.canvas_width, Slot.canvas_height, ← width, ← height] at sizeb
    have first : (s.blk.setSlot fa { s.slot fa with buf := (s.slot fb).buf }).Inv s.params :=
      hs.blk.setBuf (State.isFrame.live ha) ⟨okb.bitmap, sizeb⟩
    have other : (s.blk.setSlot fa { s.slot fa with buf := (s.slot fb).buf }).slot fb = s.slot fb :=
      State.slot_setSlot_of_ne _ _ ne.symm
    have second := first.setBuf (h := fb) (buf := (s.slot fa).buf)
    rw [other] at second
    exact (second (State.isFrame.live hb) ⟨oka.bitmap, sizea⟩).respond _
  | brightened fa level display =>
    refine Block.Inv.respond (b := (s.setSlot fa { s.slot fa with brightness := BitVec.ofInt 8 (val level) }).blk)
      (hs.blk.setSlot ?_ ⟨rfl, rfl, rfl, rfl⟩) _
    have hlive := State.isDisplay.live display
    exact (hs.blk.slots fa).update hlive hlive rfl rfl rfl ((hs.blk.slots fa).live hlive).canvas (hs.blk.slots fa).duty
  | started fa ws display stopped => exact (State.started_inv hs display stopped).respond _
  | stopped fa => exact (hs.blk.unregister fa).respond _
  | scanned fa => exact (State.scanStep_inv hs.blk _ fa).respond _

/-! ## Ticks and the two transitions of a command -/

/-- A tick keeps the state tuple legal (R53, R307). -/
theorem State.OnlyTicked.blk_inv {s t : State} {p : Params} (ht : s.OnlyTicked t) (hb : s.blk.Inv p) : t.blk.Inv p := by
  have slot : ∀ h, t.blk.slot h = s.blk.slot h ∨ ∃ read, t.blk.slot h = (s.blk.slot h).scan read := by
    intro h
    cases hr : s.running h with
    | true => exact (ht.running h hr).imp And.left id
    | false => exact .inl (ht.stopped h hr)
  refine hb.of_sameFrames (fun h => ?_) (fun h => ?_) ht.scheduler.1 ht.scheduler.2 <;> rcases slot h with e | ⟨read, e⟩ <;>
    rw [e]
  · exact hb.slots h
  · exact (hb.slots h).scan read
  · exact ⟨rfl, rfl, rfl, rfl⟩
  · exact ⟨Slot.scan_live _ _, Slot.scan_width _ _, Slot.scan_height _ _, Slot.scan_isDisplay _ _⟩

/-- Taking a tick, armed or not, only ticks (R336, R337). -/
theorem State.takeTick_only {s : State} {p : Params} (hb : s.blk.Inv p) (view : View) : s.OnlyTicked (s.takeTick view) := by
  cases harm : s.blk.timerArmed with
  | true => rw [State.takeTick_armed harm]; exact (State.runTick_only hb.once view).1
  | false =>
    rw [State.takeTick_disarmed harm]
    have stopped : ∀ d, s.running d = false := by
      intro d
      by_contra hr
      rw [Bool.not_eq_false, State.running_iff] at hr
      simpa [harm] using hb.armed ((anyOccupied_iff _).2 ⟨d, hr⟩)
    exact .refl_of_stopped stopped

/-- A tick inside a command takes the machine no further from `S0` than a tick may (R85). -/
theorem Block.OnlyScanned.tick {s0 : Block} {s t : State} (h : s0.OnlyScanned s.blk) (ht : s.OnlyTicked t) :
    s0.OnlyScanned t.blk where
  running := by
    intro d hd
    have hr : s.running d = true := by
      rw [State.running_iff, h.registry, ← Block.running_iff]; exact hd
    change t.slot d = (s0.slot d).withScanOf (t.slot d)
    have e0 : s.slot d = (s0.slot d).withScanOf (s.slot d) := h.running d hd
    rcases ht.running d hr with ⟨e, -⟩ | ⟨read, e⟩
    · rw [e]; exact e0
    · rw [e, Slot.scan_withScanOf, e0]; rfl
  stopped := by
    intro k hk
    have hr : s.running k = false := by
      rw [State.running, Block.running, h.registry]; exact hk
    exact (ht.stopped k hr).trans (h.stopped k hk)
  registry := ht.scheduler.1.trans h.registry
  timerArmed := ht.scheduler.2.trans h.timerArmed
  responses := ht.responses.trans h.responses

theorem Block.OnlyScanned.refl (b : Block) : b.OnlyScanned b := ⟨fun _ _ => rfl, fun _ _ => rfl, rfl, rfl, rfl⟩

/-- A command's footprint installed keeps the state tuple legal: each slot is the command's own, but for what ticks wrote in it
(R85). -/
theorem Block.Inv.install {p : Params} {now s1 : Block} (hnow : now.Inv p) (h1 : s1.Inv p) (s0 : Block) :
    (now.install s0 s1).Inv p := by
  refine h1.of_sameFrames (fun h => ?_) (fun h => ?_) (by simp) (by simp) <;> rw [Block.install_slot] <;> split
  · exact (h1.slots h).withScanOf (hnow.slots h).duty
  · exact h1.slots h
  · exact ⟨rfl, rfl, rfl, rfl⟩
  · exact ⟨rfl, rfl, rfl, rfl⟩

/-- The queue is no part of the invariant. -/
theorem State.Inv.withInput {s : State} (hs : s.Inv) (input : List Input) : ({ s with input := input } : State).Inv :=
  ⟨hs.params, hs.blk, hs.port⟩

/-! ## Steps -/

/-- The port takes a command: the state its rule gives, or its `BEGIN` when a tick comes inside (R85, R110). -/
theorem takeAndRun_effect (cmd : List Word) (rest : List Input) (s : State) :
    ∃ after i, runCommand cmd { s with input := rest } = .next after ∧ Effect { s with input := rest } i after ∧
      takeAndRun cmd rest s = .next (if tickComesInside rest then after.beginCommand cmd s.blk else after) := by
  obtain ⟨after, i, hrun, he⟩ := runCommand_effect cmd { s with input := rest }
  exact ⟨after, i, hrun, he, by rw [takeAndRun, hrun]⟩

theorem State.Inv.of_same_params {s t : State} (hs : s.Inv) (params : t.params = s.params) (blk : t.blk.Inv s.params)
    (port : t.port.Inv s.params t.blk) : t.Inv := by
  rw [← params] at blk port
  exact ⟨params ▸ hs.params, blk, port⟩

theorem Port.Inv.idle {p : Params} {now : Block} {port : Port} (h : port = .idle) : port.Inv p now := by
  rw [h]; trivial

theorem State.tickBetween_inv {s : State} (hs : s.Inv) (hport : s.port = .idle) : s.tickBetween.Inv := by
  have ht := State.takeTick_only hs.blk s.exactView
  obtain ⟨hp, hportAfter, -⟩ := ht.outside
  exact hs.of_same_params hp (ht.blk_inv hs.blk) (.idle (hportAfter.trans hport))

/-- A command in flight holds two legal blocks, and the machine has left the first by ticks alone (R85). -/
theorem State.Inv.inFlight {s : State} (hs : s.Inv) {cmd : List Word} {s0 s1 : Block} (hport : s.port = .inFlight cmd s0 s1) :
    s0.Inv s.params ∧ s1.Inv s.params ∧ s0.OnlyScanned s.blk := by
  have := hs.port
  rwa [hport] at this

theorem State.tickInside_inv {s : State} (hs : s.Inv) {cmd : List Word} {s0 s1 : Block}
    (hport : s.port = .inFlight cmd s0 s1) : (s.tickInside s0).Inv := by
  obtain ⟨h0, h1, hnow⟩ := hs.inFlight hport
  have ht := State.takeTick_only hs.blk (s.tornView s0)
  obtain ⟨hp, hportAfter, -⟩ := ht.outside
  have hport' : (s.tickInside s0).port = .inFlight cmd s0 s1 := hportAfter.trans hport
  refine hs.of_same_params hp (ht.blk_inv hs.blk) ?_
  rw [hport']
  exact ⟨h0, h1, hnow.tick (t := s.takeTick (s.tornView s0)) ht⟩

theorem State.endCommand_inv {s : State} (hs : s.Inv) {cmd : List Word} {s0 s1 : Block}
    (hport : s.port = .inFlight cmd s0 s1) : (s.endCommand s0 s1).Inv := by
  obtain ⟨-, h1, -⟩ := hs.inFlight hport
  exact ⟨hs.params, hs.blk.install h1 s0, trivial⟩

/-- A step while the port is idle keeps the invariant. -/
theorem stepIdle_inv {s t : State} (hs : s.Inv) (hport : s.port = .idle) (h : stepIdle s = .next t) : t.Inv := by
  rcases stepIdle_cases s with ⟨cmd, rest, -, e⟩ | ⟨-, rest, -, e⟩ | ⟨-, -, e⟩
  · obtain ⟨after, i, -, he, hrun⟩ := takeAndRun_effect cmd (s.input.drop cmd.length) s
    rw [e, hrun, Host.Outcome.next.injEq] at h
    have hblk : after.blk.Inv s.params := he.inv (hs.withInput _)
    obtain ⟨hp, hportAfter, -⟩ := he.outside
    subst h
    split
    · exact hs.of_same_params hp hs.blk ⟨hs.blk, hblk, .refl _⟩
    · exact hs.of_same_params hp hblk (.idle (hportAfter.trans hport))
  · rw [e, Host.Outcome.next.injEq] at h
    exact h ▸ State.tickBetween_inv (hs.withInput rest) hport
  · rw [e, Host.Outcome.next.injEq] at h
    exact h ▸ hs

/-- A step while a command is in flight keeps the invariant. -/
theorem stepInFlight_inv {s t : State} {cmd : List Word} {s0 s1 : Block} (hs : s.Inv) (hport : s.port = .inFlight cmd s0 s1)
    (h : stepInFlight s0 s1 s = .next t) : t.Inv := by
  rcases stepInFlight_cases s0 s1 s with ⟨rest, -, e⟩ | ⟨-, e⟩ <;> rw [e, Host.Outcome.next.injEq] at h <;> rw [← h]
  · exact State.tickInside_inv (hs.withInput rest) hport
  · exact State.endCommand_inv hs hport

/-- Settles O13, over the two states of the port. -/
theorem stepKeepsInv : Obligations.StepKeepsInv := by
  intro s t hs h
  rw [step, stepPort] at h
  cases hport : s.port with
  | idle => rw [hport] at h; exact stepIdle_inv hs hport h
  | inFlight cmd s0 s1 => rw [hport] at h; exact stepInFlight_inv hs hport h

end Sys2Proof.Machine
end

section
/-!
SUPPORT. Steps and runs: the command at the head of the queue, the ticks inside it and its `END` (spec/20_memory.md R85 to R89),
and the samples of the guard line that the displays of one tick take in slot order (spec/44_scan.md R271, spec/45_registry.md R305).
-/

namespace Sys2Proof.Machine

/-! ## The command at the head of the queue -/

theorem step_idle {s : State} (h : s.port = .idle) : step s = stepIdle s := by rw [step, stepPort, h]

theorem step_inFlight {s : State} {cmd : List Word} {s0 s1 : Block} (h : s.port = .inFlight cmd s0 s1) :
    step s = stepInFlight s0 s1 s := by rw [step, stepPort, h]

theorem leadingWords_append (cmd : List Word) (rest : List Input) :
    leadingWords (cmd.map Input.word ++ rest) = cmd ++ leadingWords rest := by
  induction cmd with
  | nil => rfl
  | cons w ws ih => rw [List.map_cons, List.cons_append, leadingWords, ih, List.cons_append]

/-- A complete command is taken from the front of any stream (R110). -/
theorem takeCommand_append {cmd : List Word} (h : takeCommand cmd = some (cmd, [])) (more : List Word) :
    takeCommand (cmd ++ more) = some (cmd, more) := by
  cases cmd with
  | nil => simp [takeCommand] at h
  | cons hdr ws =>
    rw [takeCommand_cons] at h
    split at h
    case isFalse => simp at h
    case isTrue hle =>
      simp only [Option.some.injEq, Prod.mk.injEq, List.cons.injEq, true_and, List.drop_eq_nil_iff] at h
      have hlen : commandLength hdr - 1 = ws.length := by
        have := congrArg List.length h.1
        rw [List.length_take] at this
        omega
      rw [List.cons_append, takeCommand_cons, if_pos (by rw [List.length_append]; omega), hlen]
      simp

theorem takeCommand_of_decode {cmd : List Word} {i : Instr} (h : decode cmd = .ok i) : takeCommand cmd = some (cmd, []) := by
  have := takeCommand_encode_append i []
  rwa [List.append_nil, ← (eq_encode_of_decode h).1] at this

/-- While the port is idle, a complete command that stands first is taken and run (R110). -/
theorem step_takes {s : State} {cmd : List Word} {rest : List Input} (hport : s.port = .idle)
    (hin : s.input = cmd.map Input.word ++ rest) (hcmd : takeCommand cmd = some (cmd, [])) :
    step s = takeAndRun cmd rest s := by
  have htake : takeCommand (leadingWords s.input) = some (cmd, leadingWords rest) := by
    rw [hin, leadingWords_append, takeCommand_append hcmd]
  have hdrop : s.input.drop cmd.length = rest := by rw [hin]; exact List.drop_left' (by simp)
  rw [step_idle hport, stepIdle, htake]
  dsimp only
  rw [hdrop]

theorem takeAndRun_of_next {s after : State} {cmd : List Word} {rest : List Input}
    (h : runCommand cmd { s with input := rest } = .next after) :
    takeAndRun cmd rest s = .next (if tickComesInside rest then after.beginCommand cmd s.blk else after) := by
  rw [takeAndRun, h]

/-- Settles O7: the two branches of `step` on an idle port. -/
theorem stepRunsDecodedCommand : Obligations.StepRunsDecodedCommand := by
  intro s cmd rest i hport hin hdec
  have hstep := step_takes hport hin (takeCommand_of_decode hdec)
  have hrun := runCommand_of_ok hdec { s with input := rest }
  refine ⟨fun hquiet => ?_, fun t htick hexec => ?_⟩
  · obtain ⟨t, hexec, -⟩ := exec_effect i { s with input := rest }
    rw [hstep, takeAndRun_of_next (hrun.trans hexec), hexec, hquiet]
    rfl
  · rw [hstep, takeAndRun_of_next (hrun.trans hexec), htick]
    rfl

theorem State.fail_onlyAnswers (s : State) (status : Status) : s.OnlyAnswers (s.fail status) status :=
  ⟨⟨rfl, rfl, rfl⟩, rfl, ⟨rfl, rfl⟩, rfl, rfl⟩

/-- Settles O8: words that do not decode reach the ILLEGAL answer before any command's meaning. -/
theorem illegalWordsAnswered : Obligations.IllegalWordsAnswered := by
  intro s cmd rest e hport hin hcmd hdec hquiet
  refine ⟨_, ?_, State.fail_onlyAnswers _ _⟩
  rw [step_takes hport hin hcmd, takeAndRun_of_next (runCommand_of_ne_ok (by simp [hdec]) _), hquiet]
  rfl

/-! ## What a tick leaves, whatever the registry holds -/

theorem State.foldl_scanStep_rest (view : View) (ds : List Handle) (s : State) :
    let t := ds.foldl (fun s d => s.scanStep view d) s
    s.SameOutside t ∧ t.ws = s.ws := by
  induction ds generalizing s with
  | nil => exact ⟨⟨rfl, rfl, rfl⟩, rfl⟩
  | cons d ds ih =>
    obtain ⟨⟨hp, hport, hin⟩, hws⟩ := ih (s.scanStep view d)
    obtain ⟨rp, rport, rin, rws, -⟩ := s.scanStep_rest view d
    exact ⟨⟨hp.trans rp, hport.trans rport, hin.trans rin⟩, hws.trans rws⟩

theorem State.takeTick_rest (s : State) (view : View) : s.SameOutside (s.takeTick view) ∧ (s.takeTick view).ws = s.ws := by
  rw [State.takeTick]
  split
  · exact State.foldl_scanStep_rest view _ s
  · exact ⟨⟨rfl, rfl, rfl⟩, rfl⟩

/-- Settles O9: no branch of `step` or `exec` refuses. -/
theorem stepAnswersNext : Obligations.StepAnswersNext := by
  intro s
  cases hport : s.port with
  | idle =>
    rw [step_idle hport]
    rcases stepIdle_cases s with ⟨cmd, _, -, e⟩ | ⟨-, rest, -, e⟩ | ⟨-, -, e⟩
    · obtain ⟨after, i, -, he, hrun⟩ := takeAndRun_effect cmd (s.input.drop cmd.length) s
      refine ⟨_, e.trans hrun, ?_⟩
      split <;> exact he.outside.1
    · exact ⟨_, e, (State.takeTick_rest { s with input := rest } _).1.1⟩
    · exact ⟨_, e, rfl⟩
  | inFlight cmd s0 s1 =>
    rw [step_inFlight hport]
    rcases stepInFlight_cases s0 s1 s with ⟨rest, -, e⟩ | ⟨-, e⟩
    · exact ⟨_, e, (State.takeTick_rest { s with input := rest } _).1.1⟩
    · exact ⟨_, e, rfl⟩

/-- Settles O10: the wait and the lost tick are branches of the idle step. -/
theorem waitsAndLosesDisarmedTicks : Obligations.WaitsAndLosesDisarmedTicks := by
  constructor
  · intro s hport hin
    rw [step_idle hport, stepIdle, hin]
    rfl
  · intro s rest hport hin harm
    rw [step_idle hport, stepIdle, hin]
    exact congrArg Host.Outcome.next (State.takeTick_disarmed (s := { s with input := rest }) harm _)

/-! ## Runs -/

theorem State.run_succ {s t : State} (h : step s = .next t) (n : Nat) : s.run (n + 1) = t.run n := by
  rw [State.run, h]

/-- A command in flight with `k` ticks before its `END`: each tick is a step and leaves the write set, then `END` installs the
footprint (R85). -/
theorem State.run_to_end {cmd : List Word} {s0 s1 : Block} {rest : List Input} (hrest : tickComesInside rest = false) (k : Nat)
    (s : State) (hport : s.port = .inFlight cmd s0 s1) (hin : s.input = List.replicate k .tickInCommand ++ rest) :
    ∃ now : State, s.run (k + 1) = some (now.endCommand s0 s1) ∧ now.input = rest ∧ now.ws = s.ws ∧ now.params = s.params := by
  induction k generalizing s with
  | zero =>
    have hend : step s = .next (s.endCommand s0 s1) := by
      rcases stepInFlight_cases s0 s1 s with ⟨tail, hin', -⟩ | ⟨-, e⟩
      · rw [show s.input = rest from hin] at hin'
        simp [hin', tickComesInside] at hrest
      · exact (step_inFlight hport).trans e
    exact ⟨s, s.run_succ hend 0, hin, rfl, rfl⟩
  | succ k ih =>
    have hin' : s.input = .tickInCommand :: (List.replicate k .tickInCommand ++ rest) := hin
    have htick : step s = .next (({ s with input := List.replicate k .tickInCommand ++ rest } : State).tickInside s0) := by
      rw [step_inFlight hport, stepInFlight, hin']
    obtain ⟨⟨hp, hportAfter, hinAfter⟩, hws⟩ := State.takeTick_rest { s with input := List.replicate k .tickInCommand ++ rest }
      (({ s with input := List.replicate k .tickInCommand ++ rest } : State).tornView s0)
    obtain ⟨now, hrun, h1, h2, h3⟩ :=
      ih (({ s with input := List.replicate k .tickInCommand ++ rest } : State).tickInside s0) (hportAfter.trans hport) hinAfter
    exact ⟨now, (State.run_succ htick (k + 1)).trans hrun, h1, h2.trans hws, h3.trans hp⟩

/-- Settles O58. The ticks run from `BEGIN` on; `END` then installs the state the command's rule gave, but for the fields that
ticks write. -/
theorem ticksInsideChangeNoResult : Obligations.TicksInsideChangeNoResult := by
  intro s u cmd n rest hport hcmd hin hrest hrun
  have hbegin : step s = .next (u.beginCommand cmd s.blk) := by
    rw [step_takes hport hin hcmd, takeAndRun_of_next hrun]
    rfl
  have hqueue : u.input = List.replicate (n + 1) .tickInCommand ++ rest := by
    obtain ⟨t, i, ht, he⟩ := runCommand_effect cmd { s with input := List.replicate (n + 1) Input.tickInCommand ++ rest }
    rw [hrun, Host.Outcome.next.injEq] at ht
    rw [ht]
    exact he.outside.2.2
  obtain ⟨now, hend, hinput, hws, hparams⟩ := State.run_to_end hrest (n + 1) (u.beginCommand cmd s.blk) rfl hqueue
  refine ⟨_, (State.run_succ hbegin (n + 2)).trans hend, rfl, hinput, hws, hparams, ?_, ?_, ?_, fun h hr => ?_, fun h hr => ?_⟩
  · simp
  · simp
  · simp
  · exact (Block.install_slot _ _ _ h).trans (if_neg (by rw [show s.blk.running h = false from hr]; exact Bool.false_ne_true))
  · have hslot := (Block.install_slot now.blk s.blk u.blk h).trans (if_pos hr)
    rw [show (now.endCommand s.blk u.blk).slot h = _ from hslot]
    rfl

/-! ## The samples of one tick (R271, R305) -/

theorem State.guardAsserted_eq (s : State) : s.guardAsserted = s.guardAt 0 := by
  rw [State.guardAsserted, State.guardAt, Draws.next]
  cases s.env.guard.known <;> rfl

/-- The samples still to come after one was drawn. -/
theorem guardAt_succ (g : Draws) (m : Nat) :
    ((g.next Config.guardSample).2.known[m]?).getD (Config.guardSample ((g.next Config.guardSample).2.count + m))
      = (g.known[m + 1]?).getD (Config.guardSample (g.count + (m + 1))) := by
  obtain ⟨known, count⟩ := g
  cases known with
  | nil => simp [Draws.next, Nat.add_assoc, Nat.add_comm 1 m]
  | cons a rest => simp [Draws.next, Nat.add_assoc, Nat.add_comm 1 m]

theorem Draws.next_count (d : Draws) (free : Nat → Bool) : (d.next free).2.count = d.count + 1 := by
  rw [Draws.next]
  split <;> rfl

/-- How many samples a scan step of a slot takes. -/
def Slot.samples (f : Slot) : Nat := if f.guardEn then 1 else 0

/-- A scan step of a display: skipped when it has a guard line and the next sample is asserted (R271, R275). -/
theorem State.scanStep_slot (s : State) (view : View) (d : Handle) : (s.scanStep view d).slot d =
    if (s.slot d).guardEn = true ∧ s.guardAt 0 = true then s.slot d else (s.slot d).scan (view d) := by
  rw [← State.guardAsserted_eq, State.guardAsserted]
  rcases s.scanStep_cases view d with ⟨hg, hs, e⟩ | ⟨hn, guard, e⟩ <;> rw [e]
  · rw [if_pos ⟨hg, hs⟩]; rfl
  · rw [if_neg (by rcases hn with h | h <;> simp [h]), State.slot_setSlot_self]

theorem State.scanStep_guard (s : State) (view : View) (d : Handle) : (s.scanStep view d).env.guard =
    if (s.slot d).guardEn then (s.env.guard.next Config.guardSample).2 else s.env.guard := by
  rw [State.scanStep]
  split
  · dsimp only; split <;> rfl
  · rfl

theorem State.scanStep_guardAt (s : State) (view : View) (d : Handle) (m : Nat) :
    (s.scanStep view d).guardAt m = s.guardAt (m + (s.slot d).samples) := by
  rw [State.guardAt, State.scanStep_guard, Slot.samples]
  split
  · exact guardAt_succ s.env.guard m
  · rfl

theorem State.scanStep_guard_count (s : State) (view : View) (d : Handle) :
    (s.scanStep view d).env.guard.count = s.env.guard.count + (s.slot d).samples := by
  rw [State.scanStep_guard, Slot.samples]
  split
  · exact Draws.next_count _ _
  · rfl

/-- A scan step leaves every guard enable (R41). -/
theorem State.scanStep_samples (s : State) (view : View) (d k : Handle) :
    ((s.scanStep view d).slot k).samples = (s.slot k).samples := by
  by_cases hk : k = d
  · subst hk
    rw [State.scanStep_slot]
    split
    · rfl
    · rw [Slot.scan_eq]; rfl
  · rw [State.scanStep_slot_of_ne s view hk]

/-- How many samples a tick takes for these displays. -/
def State.samplesOf (s : State) (ds : List Handle) : Nat := (ds.map fun d => (s.slot d).samples).sum

theorem State.guarded_eq (s : State) (slots : List (Option Handle)) : s.guarded slots = s.samplesOf (slots.filterMap id) := by
  rw [State.guarded, State.samplesOf]
  induction slots.filterMap id with
  | nil => rfl
  | cons d ds ih =>
    rw [List.map_cons, List.sum_cons, ← ih, List.filter_cons, Slot.samples]
    split
    · rw [List.length_cons, Nat.add_comm]
    · rw [Nat.zero_add]

/-- After the scan steps of some displays, as many samples are gone as they have guard lines. -/
theorem State.foldl_scanStep_guard (view : View) (ds : List Handle) (s : State) :
    let t := ds.foldl (fun s d => s.scanStep view d) s
    (∀ m, t.guardAt m = s.guardAt (m + s.samplesOf ds)) ∧ t.env.guard.count = s.env.guard.count + s.samplesOf ds := by
  induction ds generalizing s with
  | nil => exact ⟨fun _ => rfl, rfl⟩
  | cons d ds ih =>
    obtain ⟨hat, hcount⟩ := ih (s.scanStep view d)
    have hsamples : (s.scanStep view d).samplesOf ds = s.samplesOf ds :=
      congrArg List.sum (List.map_congr_left fun k _ => s.scanStep_samples view d k)
    have hcons : s.samplesOf (d :: ds) = (s.slot d).samples + s.samplesOf ds := rfl
    refine ⟨fun m => ?_, ?_⟩
    · rw [List.foldl_cons, hat, hsamples, State.scanStep_guardAt, hcons, Nat.add_assoc, Nat.add_comm (s.samplesOf ds)]
    · rw [List.foldl_cons, hcount, hsamples, State.scanStep_guard_count, hcons, Nat.add_assoc]

/-- What a tick makes of a running display: its own sample is the one after those of the displays before it in slot order. -/
theorem State.runTick_slot {s : State} (hnd : (s.blk.registry.filterMap id).Nodup) (view : View)
    {before after : List (Option Handle)} {d : Handle} (hreg : s.blk.registry = before ++ some d :: after) :
    (s.runTick view).slot d = if (s.slot d).guardEn = true ∧ s.guardAt (s.guarded before) = true then s.slot d
      else (s.slot d).afterStep (view d) := by
  have hds : s.blk.registry.filterMap id = before.filterMap id ++ d :: after.filterMap id := by
    rw [hreg, List.filterMap_append]; rfl
  rw [hds, List.nodup_append] at hnd
  obtain ⟨hpre, hpost, hdisj⟩ := hnd
  obtain ⟨hd, hpost⟩ := List.nodup_cons.1 hpost
  have hdpre : d ∉ before.filterMap id := fun h => hdisj d h d (by simp) rfl
  obtain ⟨-, hkeep, -⟩ := State.foldl_scanStep view _ hpre s
  obtain ⟨hat, -⟩ := State.foldl_scanStep_guard view (before.filterMap id) s
  rw [State.runTick, hds, List.foldl_append, List.foldl_cons, (State.foldl_scanStep view _ hpost _).2.1 d hd,
    State.scanStep_slot, hkeep d hdpre, hat, Nat.zero_add, ← State.guarded_eq, Slot.scan_eq_afterStep]

theorem State.runTick_guard_count (s : State) (view : View) :
    (s.runTick view).env.guard.count = s.env.guard.count + s.guarded s.blk.registry := by
  rw [State.guarded_eq]
  exact (State.foldl_scanStep_guard view _ s).2

/-- Settles O56: a display's sample is found by the guard lines before it in the registry. -/
theorem tickStepsRunningDisplays : Obligations.TickStepsRunningDisplays := by
  intro s rest hs hport hin harm
  have hstep : step s = .next (({ s with input := rest } : State).runTick s.exactView) := by
    rw [step_idle hport, stepIdle, hin]
    exact congrArg Host.Outcome.next (State.takeTick_armed (s := { s with input := rest }) harm _)
  have hnd : (({ s with input := rest } : State).blk.registry.filterMap id).Nodup := hs.blk.once
  obtain ⟨only, htorn⟩ := State.runTick_only hnd s.exactView
  obtain ⟨hp, hportAfter, hinAfter⟩ := only.outside
  exact ⟨_, hstep, hp, hportAfter.trans hport, hinAfter, only.ws, only.scheduler, only.responses,
    fun _ _ _ hreg => State.runTick_slot (s := { s with input := rest }) hnd _ hreg, only.stopped,
    State.runTick_guard_count { s with input := rest } _, only.alloc, only.grow, htorn⟩

/-- Settles O57: the tick is the one of O56, taken with the torn view. -/
theorem tornTick : Obligations.TornTick := by
  intro s cmd s0 s1 rest hs hport hin harm
  have htake : ({ s with input := rest } : State).takeTick (({ s with input := rest } : State).tornView s0)
      = ({ s with input := rest } : State).runTick (s.tornView s0) := State.takeTick_armed (s := { s with input := rest }) harm _
  have hstep : step s = .next (({ s with input := rest } : State).tickInside s0) := by
    rw [step_inFlight hport, stepInFlight, hin]
  rw [State.tickInside, State.returnFromTick_eq, htake] at hstep
  have hnd : (({ s with input := rest } : State).blk.registry.filterMap id).Nodup := hs.blk.once
  obtain ⟨only, htorn⟩ := State.runTick_only hnd (s.tornView s0)
  obtain ⟨hp, hportAfter, hinAfter⟩ := only.outside
  refine ⟨_, hstep, hp, hportAfter, hinAfter, only.ws, only.scheduler, only.responses, congrArg (· + 1) htorn,
    State.runTick_guard_count { s with input := rest } _, only.alloc, only.grow, only.stopped,
    fun before d after hreg => ⟨s.tornView s0 d, fun o ho => if_neg ho, fun o ho => if_pos ho, ?_⟩⟩
  exact State.runTick_slot (s := { s with input := rest }) hnd _ hreg

/-! ## Reset (R370) -/

@[simp] theorem State.reset_slot (h : Handle) : State.reset.slot h = Slot.reset := Block.reset_slot h

theorem Block.reset_poolUsed : Block.reset.poolUsed = 0 := by
  rw [Block.poolUsed, Block.reset, Vector.toList_replicate, List.map_replicate, List.sum_replicate,
    show Slot.reset.poolBytes = 0 from rfl, smul_zero]

/-- Settles O11: the reset state's fields as they stand. -/
theorem resetState : Obligations.ResetState :=
  ⟨fun h => by rw [State.reset_slot]; exact ⟨rfl, rfl, rfl, rfl, rfl, rfl, rfl⟩, Block.reset_poolUsed, rfl, rfl, rfl⟩

theorem Params.platform_legal : Params.platform.Legal where
  framesLow := Nat.le_add_left 1 _
  framesHigh := Config.frameSlotsPick.isLt
  pool := Nat.le_add_right 64 _
  registry := Nat.le_add_right 1 _

theorem Slot.reset_inv (p : Params) (h : Handle) : Slot.reset.Inv p h :=
  ⟨fun hl => absurd hl Bool.false_ne_true, fun _ => rfl, by simp [Slot.reset]⟩

/-- Settles O12: a state with no live frame and no slot satisfies every clause. -/
theorem resetInv : Obligations.ResetInv where
  params := Params.platform_legal
  blk :=
    { slots := fun h => by rw [show State.reset.blk.slot h = Slot.reset from State.reset_slot h]; exact Slot.reset_inv _ _
      pool := Block.reset_poolUsed.trans_le (Nat.zero_le _)
      capacity := Nat.zero_le _
      registered := fun _ hd => absurd hd List.not_mem_nil
      once := List.nodup_nil
      armed := fun h => absurd h Bool.false_ne_true }
  port := trivial

/-! ## The response word and the duty -/

/-- Settles O6: the fields do not overlap. -/
theorem responseWord : Obligations.ResponseWord := by
  refine ⟨fun r => ⟨?_, r.word_reserved, ?_⟩, rfl, rfl, rfl, rfl, rfl, rfl⟩
  · apply BitVec.eq_of_getLsbD_eq
    intro i hi
    rw [BitVec.getLsbD_extractLsb', Response.word_bit, if_neg (by omega), if_neg (by omega),
      show 24 + i - 16 - 8 = i by omega]
    simp [hi]
  · apply BitVec.eq_of_getLsbD_eq
    intro i hi
    rw [BitVec.getLsbD_extractLsb', Response.word_bit, if_pos (by omega), Nat.zero_add]
    simp [hi]

/-- Settles O59: the active time is linear in the level. -/
theorem dutyIsProportional : Obligations.DutyIsProportional := by
  intro period
  refine ⟨rfl, fun n => ?_, fun m n hmn hpos => Nat.mul_lt_mul_of_pos_right hmn hpos, Nat.zero_mul _, rfl⟩
  rw [OeLevel.activeTime, Nat.mul_assoc, Nat.mul_comm period]

end Sys2Proof.Machine
end

section
/-!
SUPPORT. The checks of R120 on frames and sizes, and the frame and display lifecycle (spec/40_frames.md, spec/60_exceptions.md).
-/

namespace Sys2Proof.Machine

/-! ## BAD_HANDLE (R34, R38, R331) -/

theorem State.isFrame_eq_false {s : State} {h : Handle}
    (bad : h = 0 ∨ s.params.maxFrames < h.toNat ∨ (s.slot h).live = false) : s.isFrame h = false := by
  rw [Bool.eq_false_iff]
  intro hf
  obtain ⟨hl, h0, hmax⟩ := (s.isFrame_iff h).1 hf
  rcases bad with rfl | hlt | hdead
  · exact h0 rfl
  · omega
  · simp [hdead] at hl

theorem State.isDisplay_eq_false {s : State} {h : Handle} (bad : s.isFrame h = false ∨ (s.slot h).isDisplay = false) :
    s.isDisplay h = false := by
  rw [State.isDisplay]
  rcases bad with e | e <;> simp [e]

/-- Both frames are checked before anything else (R120). -/
theorem bothFrames_eq_false {s : State} {h fa fb : Handle} (hbad : s.isFrame h = false) (hh : h = fa ∨ h = fb) :
    (s.isFrame fa && s.isFrame fb) = false := by
  rcases hh with rfl | rfl <;> simp [hbad]

theorem exec_of_bad_frame {i : Instr} {s : State} {h : Handle} (hwf : i.wellFormed = true) (hh : h ∈ i.handles)
    (hbad : s.isFrame h = false) (hplain : i.needsDisplay = false) : exec i s = .next (s.fail .badHandle) := by
  cases i with
  | fnew | dnew => simp [Instr.handles] at hh
  | bright | start | stop | scan => simp [Instr.needsDisplay] at hplain
  | fcopy | ffree | getpix | subf =>
    obtain rfl := List.mem_singleton.1 hh
    exact congrArg Host.Outcome.next (if_neg (by simp [hbad]))
  | setpix | line | circle | box | fbox | move | scrx | scry | marqx | marqy =>
    obtain rfl := List.mem_singleton.1 hh
    exact congrArg Host.Outcome.next (State.drawOn_bad hbad _)
  | fill =>
    obtain rfl := List.mem_singleton.1 hh
    exact congrArg Host.Outcome.next ((if_pos hwf).trans (State.drawOn_bad hbad _))
  | fassign fa fb | copyin fa fb | swap fa fb =>
    have := bothFrames_eq_false (fa := fa) (fb := fb) hbad (by simpa [Instr.handles] using hh)
    exact congrArg Host.Outcome.next (if_neg (by simp [this]))

theorem exec_of_bad_display {i : Instr} {s : State} {h : Handle} (hwf : i.wellFormed = true) (hh : h ∈ i.handles)
    (hbad : s.isDisplay h = false) (hneeds : i.needsDisplay = true) : exec i s = .next (s.fail .badHandle) := by
  cases i with
  | start | stop | scan =>
    obtain rfl := List.mem_singleton.1 hh
    exact congrArg Host.Outcome.next (if_neg (by simp [hbad]))
  | bright =>
    obtain rfl := List.mem_singleton.1 hh
    exact congrArg Host.Outcome.next ((if_pos hwf).trans (if_neg (by simp [hbad])))
  | _ => simp [Instr.needsDisplay] at hneeds

/-- Settles O15: the handle checks come first in each command's meaning. -/
theorem badHandle : Obligations.BadHandle := by
  intro i s h hwf hh hbad
  cases hneeds : i.needsDisplay with
  | true =>
    refine exec_of_bad_display hwf hh (State.isDisplay_eq_false ?_) hneeds
    rcases hbad with h | h | h | ⟨-, h⟩
    · exact .inl (State.isFrame_eq_false (.inl h))
    · exact .inl (State.isFrame_eq_false (.inr (.inl h)))
    · exact .inl (State.isFrame_eq_false (.inr (.inr h)))
    · exact .inr h
  | false =>
    refine exec_of_bad_frame hwf hh (State.isFrame_eq_false ?_) hneeds
    rcases hbad with h | h | h | ⟨h, -⟩
    · exact .inl h
    · exact .inr (.inl h)
    · exact .inr (.inr h)
    · simp [hneeds] at h

/-! ## BAD_GEOMETRY and BUSY (R116, R287, R289, R331) -/

theorem sides_eq_false {w h : Operand} (bad : val w < 1 ∨ val h < 1) : (sideOk w && sideOk h) = false := by
  rw [Bool.eq_false_iff, ne_eq, Bool.and_eq_true, sideOk_iff, sideOk_iff]
  omega

theorem isFlag_iff (v : Operand) : Operand.isFlag v = true ↔ v = 0 ∨ v = 1 := by
  simp [Operand.isFlag]

/-- Settles O16: the second check of each command, its handle check passed. -/
theorem badGeometryAndBusy : Obligations.BadGeometryAndBusy := by
  refine ⟨fun w h s bad => ?fnew, fun pw ph g s hg bad => ?dnew, fun fa left top w h s hf bad => ?subf,
    fun fa fb s ha hb bad => ?sizes, fun fa s hd hr => ?busy⟩
  case fnew => exact congrArg Host.Outcome.next (if_neg (by simp [sides_eq_false bad]))
  case dnew =>
    have : ¬(panelsOk pw && panelsOk ph) = true := by
      rw [Bool.and_eq_true, panelsOk_iff, panelsOk_iff]; omega
    exact congrArg Host.Outcome.next ((if_pos ((isFlag_iff g).2 hg)).trans (if_neg this))
  case subf => exact congrArg Host.Outcome.next ((if_pos hf).trans (if_neg (by simp [sides_eq_false bad])))
  case sizes =>
    have hboth : (s.isFrame fa && s.isFrame fb) = true := by simp [ha, hb]
    have hsame : ¬ s.sameGeometry fa fb = true := by rw [State.sameGeometry_iff]; tauto
    exact ⟨congrArg Host.Outcome.next ((if_pos hboth).trans (if_neg hsame)),
      congrArg Host.Outcome.next ((if_pos hboth).trans (if_neg hsame))⟩
  case busy =>
    exact ⟨congrArg Host.Outcome.next ((if_pos hd).trans (if_pos hr)),
      congrArg Host.Outcome.next ((if_pos hd).trans (if_pos hr))⟩

/-! ## Creating frames (R95, R150 to R155) -/

theorem exec_fnew_sides {w h : Operand} (hw : 1 ≤ val w) (hh : 1 ≤ val h) (s : State) : exec (.fnew w h) s =
    .next (s.create (bitmapSize (val w).toNat (val h).toNat)
      (Slot.plainFrame (val w).toNat (val h).toNat (Memory.filled (bitmapSize (val w).toNat (val h).toNat) 0xFF)) []) := by
  have : (sideOk w && sideOk h) = true := by rw [Bool.and_eq_true, sideOk_iff, sideOk_iff]; exact ⟨hw, hh⟩
  exact congrArg Host.Outcome.next (if_pos this)

theorem exec_fcopy_frame {s : State} {fa : Handle} (hf : s.isFrame fa = true) : exec (.fcopy fa) s =
    .next (s.create (bitmapSize (s.slot fa).width (s.slot fa).height)
      (Slot.plainFrame (s.slot fa).width (s.slot fa).height (s.slot fa).buf) []) :=
  congrArg Host.Outcome.next (if_pos hf)

theorem bitmapSize_panels (a b : Nat) : bitmapSize (Config.panelWidth * a) (Config.panelHeight * b) = 64 * (a * b) := by
  have ha : panelsAcross (Config.panelWidth * a) = a := by simp only [panelsAcross, Config.panelWidth]; omega
  have hb : panelsDown (Config.panelHeight * b) = b := by simp only [panelsDown, Config.panelHeight]; omega
  rw [bitmapSize_eq, panelCount, ha, hb]

theorem exec_dnew_panels {pw ph g : Operand} (hg : g = 0 ∨ g = 1) (hpw : 1 ≤ val pw ∧ val pw ≤ 255)
    (hph : 1 ≤ val ph ∧ val ph ≤ 255) (s : State) : exec (.dnew pw ph g) s =
    .next (s.create (64 * ((val pw).toNat * (val ph).toNat))
      (Slot.newDisplay (Config.panelWidth * (val pw).toNat) (Config.panelHeight * (val ph).toNat) (g == 1)) []) := by
  have : (panelsOk pw && panelsOk ph) = true := by rw [Bool.and_eq_true, panelsOk_iff, panelsOk_iff]; exact ⟨hpw, hph⟩
  rw [← bitmapSize_panels]
  exact congrArg Host.Outcome.next ((if_pos ((isFlag_iff g).2 hg)).trans (if_pos this))

/-- The canvas of a new frame with a copy of a rectangle of frame `fa` (R232). -/
def State.subCanvas (s : State) (fa : Handle) (left top : Int) (cols rows : Nat) : Canvas :=
  Canvas.paint ⟨cols, rows, Memory.filled (bitmapSize cols rows) 0xFF, []⟩
    (pasteVisits ((s.slot fa).canvas.snapshot left top) cols rows 0 0)

theorem exec_subf_sides {s : State} {fa : Handle} (hf : s.isFrame fa = true) (left top : Operand) {w h : Operand}
    (hw : 1 ≤ val w) (hh : 1 ≤ val h) : exec (.subf fa left top w h) s =
    .next (s.create (bitmapSize (val w).toNat (val h).toNat)
      (Slot.plainFrame (val w).toNat (val h).toNat (s.subCanvas fa (val left) (val top) (val w).toNat (val h).toNat).buf)
      (s.subCanvas fa (val left) (val top) (val w).toNat (val h).toNat).ws) := by
  have : (sideOk w && sideOk h) = true := by rw [Bool.and_eq_true, sideOk_iff, sideOk_iff]; exact ⟨hw, hh⟩
  exact congrArg Host.Outcome.next ((if_pos hf).trans (if_pos this))

theorem State.CannotAlloc.answers {s : State} {n : Nat} (ha : s.CannotAlloc n) (make : Slot → Slot) (ws : List Nat) :
    s.OnlyAnswers (s.create n make ws) .noMemory := by
  obtain ⟨env, e⟩ := ha.create make ws
  rw [e]
  exact ⟨⟨rfl, rfl, rfl⟩, rfl, ⟨rfl, rfl⟩, rfl, rfl⟩

/-- Settles O17: all four creating commands allocate through one function, which answers so. -/
theorem noMemory : Obligations.NoMemory :=
  ⟨fun _ _ s hw hh ha => ⟨_, exec_fnew_sides hw hh s, ha.answers _ _⟩,
    fun _ _ hf ha => ⟨_, exec_fcopy_frame hf, ha.answers _ _⟩,
    fun _ _ _ s hg hpw hpw' hph hph' ha => ⟨_, exec_dnew_panels hg ⟨hpw, hpw'⟩ ⟨hph, hph'⟩ s, ha.answers _ _⟩,
    fun _ left top _ _ _ hf hw hh ha => ⟨_, exec_subf_sides hf left top hw hh, ha.answers _ _⟩⟩

/-- What a creating command that can allocate leaves (R150). -/
theorem State.CanAlloc.creates {s : State} {n : Nat} {h : Handle} (ha : s.CanAlloc n h) {make : Slot → Slot}
    (live : (make (s.slot h)).live = true) (ws : List Nat) :
    s.Creates (s.create n make ws) h ∧ (s.create n make ws).slot h = make (s.slot h) ∧
      (s.create n make ws).ws = ws.map (fun o => (h, o)) ∧
      (s.create n make ws).blk.poolUsed = s.blk.poolUsed + (make (s.slot h)).poolBytes := by
  rw [ha.create]
  have hslot : ∀ env, ((s.withEnv env).setSlot h (make (s.slot h))).slot h = make (s.slot h) :=
    fun env => State.slot_setSlot_self _ _ _
  refine ⟨⟨⟨rfl, rfl, rfl⟩, rfl, ⟨rfl, rfl⟩, fun k hk => State.slot_setSlot_of_ne _ _ hk, ?_, rfl⟩, hslot _, rfl, ?_⟩
  · exact (congrArg Slot.live (hslot _)).trans live
  · have hpool := s.blk.poolUsed_setSlot h (make (s.slot h))
    have hfree : (s.blk.slot h).poolBytes = 0 := if_neg (by rw [show (s.blk.slot h).live = false from ha.handle.free]; decide)
    rw [hfree] at hpool
    exact hpool

/-- Settles O46: by what `create` leaves in the new slot. -/
theorem frameNew : Obligations.FrameNew := by
  intro s w ht h hw hh ha
  refine ⟨_, exec_fnew_sides hw hh s, ?_⟩
  obtain ⟨hcreates, hslot, hws, hpool⟩ := ha.creates (make := Slot.plainFrame (val w).toNat (val ht).toNat
    (Memory.filled (bitmapSize (val w).toNat (val ht).toNat) 0xFF)) rfl []
  refine ⟨hcreates, hws, ?_, ?_, ?_, fun o => ?_, hpool⟩
  · rw [hslot]; rfl
  · rw [hslot]; rfl
  · rw [hslot]; rfl
  · rw [State.byte, hslot, Memory.filled_ff]; rfl

/-- Settles O47: by what `create` leaves in the new slot. -/
theorem frameCopy : Obligations.FrameCopy := by
  intro s fa h hf ha
  refine ⟨_, exec_fcopy_frame hf, ?_⟩
  obtain ⟨hcreates, hslot, hws, -⟩ := ha.creates
    (make := Slot.plainFrame (s.slot fa).width (s.slot fa).height (s.slot fa).buf) rfl []
  refine ⟨hcreates, hws, ?_, ?_, ?_, fun o => ?_⟩
  · rw [hslot]; rfl
  · rw [hslot]; rfl
  · rw [hslot]; rfl
  · rw [State.byte, hslot]; rfl

/-- Settles O50. A slot that was free is in no registry slot of a safe state. -/
theorem displayNew : Obligations.DisplayNew := by
  intro s pw ph g h hs hpw hpw' hph hph' hg ha
  refine ⟨_, exec_dnew_panels hg ⟨hpw, hpw'⟩ ⟨hph, hph'⟩ s, ?_⟩
  obtain ⟨hcreates, hslot, hws, -⟩ := ha.creates (make := Slot.newDisplay (Config.panelWidth * (val pw).toNat)
    (Config.panelHeight * (val ph).toNat) (g == 1)) rfl []
  refine ⟨hcreates, hws, ?_, ?_⟩
  · rw [State.running, Block.running, hcreates.scheduler.1]
    change s.running h = false
    rw [Bool.eq_false_iff]
    intro hr
    simpa [ha.handle.free] using (hs.registered hr).1
  · simp only [State.byte, hslot]
    exact ⟨rfl, rfl, rfl, fun o => by simp [Slot.newDisplay]; rfl, rfl, rfl, rfl, rfl, rfl, rfl, rfl, rfl⟩

/-- A write set on one frame (R86). -/
theorem mem_map_handle {h k : Handle} {o : Nat} {offsets : List Nat} :
    (k, o) ∈ offsets.map (fun o => (h, o)) ↔ k = h ∧ o ∈ offsets := by
  rw [List.mem_map]
  constructor
  · rintro ⟨o', ho, e⟩
    obtain ⟨rfl, rfl⟩ := Prod.mk.inj e
    exact ⟨rfl, ho⟩
  · rintro ⟨rfl, ho⟩
    exact ⟨o, ho, rfl⟩

/-! ## FRAME_ASSIGN, SWAP_BUFFERS, FRAME_FREE (R153, R154, R239) -/

/-- Settles O48: the receiver's every offset is written from the other bitmap. -/
theorem frameAssign : Obligations.FrameAssign := by
  intro s fa fb ha hb hw hh
  have hboth : (s.isFrame fa && s.isFrame fb) = true := by simp [ha, hb]
  refine ⟨_, congrArg Host.Outcome.next ((if_pos hboth).trans (if_pos ((s.sameGeometry_iff fa fb).2 ⟨hw, hh⟩))),
    s.drawn_onlyBitmap fa _, rfl, fun k o => ?_, fun o => ?_⟩
  · rw [State.drawn_ws, mem_map_handle, List.mem_range]
    exact Iff.rfl
  · rw [State.byte, State.drawn_slot_self]
    rfl

/-- The slots after SWAP_BUFFERS of two frames (R239). -/
theorem State.swapped_slot (s : State) (fa fb k : Handle) :
    ((s.setSlot fa { s.slot fa with buf := (s.slot fb).buf }).setSlot fb { s.slot fb with buf := (s.slot fa).buf }).slot k =
      if k = fb then { s.slot fb with buf := (s.slot fa).buf }
      else if k = fa then { s.slot fa with buf := (s.slot fb).buf } else s.slot k := by
  rw [State.slot_setSlot, State.slot_setSlot]

/-- Settles O42: two slots exchange `buf`, and no other field is written. -/
theorem swapBuffers : Obligations.SwapBuffers := by
  intro s fa fb ha hb hw hh
  have hboth : (s.isFrame fa && s.isFrame fb) = true := by simp [ha, hb]
  have hexec : exec (.swap fa fb) s = _ :=
    congrArg Host.Outcome.next ((if_pos hboth).trans (if_pos ((s.sameGeometry_iff fa fb).2 ⟨hw, hh⟩)))
  by_cases hne : fa = fb
  · subst hne
    exact ⟨_, hexec.trans (congrArg Host.Outcome.next (if_pos rfl)), ⟨rfl, rfl, rfl⟩, rfl, ⟨rfl, rfl⟩, rfl, rfl, rfl, rfl,
      fun _ _ _ => rfl, rfl⟩
  · have hslot := s.swapped_slot fa fb
    refine ⟨_, hexec.trans (congrArg Host.Outcome.next (if_neg hne)), ⟨rfl, rfl, rfl⟩, rfl, ⟨rfl, rfl⟩, rfl, rfl, ?_, ?_,
      fun k hka hkb => ?_, ?_⟩
    · exact (hslot fa).trans (by rw [if_neg hne, if_pos rfl])
    · exact (hslot fb).trans (if_pos rfl)
    · exact (hslot k).trans (by rw [if_neg hkb, if_neg hka])
    · refine Block.poolUsed_congr fun k => ?_
      refine (congrArg Slot.poolBytes (hslot k)).trans ?_
      split
      · subst_vars; rfl
      · split
        · subst_vars; rfl
        · rfl

theorem unregisterSlots_of_not_mem {d : Handle} {l : List (Option Handle)} (h : some d ∉ l) : unregisterSlots d l = l := by
  rw [unregisterSlots]
  exact (List.map_congr_left fun e he => if_neg (by rintro rfl; exact h he)).trans (List.map_id l)

theorem State.freed_pool {s : State} {fa : Handle} (hl : (s.slot fa).live = true) :
    (s.freed fa).blk.poolUsed + bitmapSize (s.slot fa).width (s.slot fa).height = s.blk.poolUsed := by
  have hset := s.blk.poolUsed_setSlot fa { s.slot fa with live := false, buf := [] }
  have hbytes : (s.blk.slot fa).poolBytes = bitmapSize (s.slot fa).width (s.slot fa).height := if_pos hl
  have hzero : ({ s.slot fa with live := false, buf := [] } : Slot).poolBytes = 0 := rfl
  have hsame : (s.freed fa).blk.poolUsed = (s.blk.setSlot fa { s.slot fa with live := false, buf := [] }).poolUsed := by
    rcases s.freed_eq fa with ⟨e, -⟩ | ⟨e, -⟩ <;> rw [e] <;> rfl
  omega

/-- FRAME_FREE's scheduler, when only displays run: a running frame leaves the registry (R154, R306). -/
theorem State.freed_scheduler {s : State} (hs : s.Inv) (fa : Handle) :
    (s.freed fa).blk.registry = s.registryWithout fa ∧ (s.freed fa).blk.timerArmed =
      if s.running fa = true then s.blk.timerArmed && anyOccupied (s.registryWithout fa) else s.blk.timerArmed := by
  rcases s.freed_eq fa with ⟨e, hr⟩ | ⟨e, hstop⟩ <;> rw [e]
  · rw [if_pos hr]
    exact ⟨rfl, rfl⟩
  · have hr := hs.not_running hstop
    rw [if_neg (by rw [hr]; exact Bool.false_ne_true)]
    exact ⟨(unregisterSlots_of_not_mem (State.not_mem_of_stopped hr)).symm, rfl⟩

/-- Settles O49: freeing keeps the slot's other fields, and unregistering empties its place. -/
theorem frameFree : Obligations.FrameFree := by
  intro s fa hs hf
  have hexec : exec (.ffree fa) s = .next ((s.freed fa).reply [] .ok 0) := congrArg Host.Outcome.next (if_pos hf)
  have he := Effect.of_exec hexec
  obtain ⟨hreg, harm⟩ := State.freed_scheduler hs fa
  refine ⟨_, hexec, he.outside, ?_, fun k hk => s.freed_slot_of_ne hk, ?_, rfl, s.freed_slot_self fa,
    State.freed_pool (State.isFrame.live hf), hreg, harm⟩
  · rcases s.freed_eq fa with ⟨e, -⟩ | ⟨e, -⟩ <;> rw [e] <;> rfl
  · rcases s.freed_eq fa with ⟨e, -⟩ | ⟨e, -⟩ <;> rw [e] <;> rfl

end Sys2Proof.Machine
end

section
/-!
SUPPORT. The display commands (spec/44_scan.md R285 to R289) and the bytes that the scan steps of a whole picture send (R273, R281).
-/

namespace Sys2Proof.Machine

theorem exec_bright_level {s : State} {fa : Handle} {level : Operand} (hd : s.isDisplay fa = true) (h0 : 0 ≤ val level)
    (h1 : val level ≤ 255) : exec (.bright fa level) s =
    .next ((s.setSlot fa { s.slot fa with brightness := BitVec.ofInt 8 (val level) }).reply [] .ok 0) := by
  have : Operand.isLevel level = true := by
    rw [Operand.isLevel, Bool.and_eq_true, decide_eq_true_eq, decide_eq_true_eq]
    exact ⟨h0, h1⟩
  exact congrArg Host.Outcome.next ((if_pos this).trans (if_pos hd))

/-- Settles O51: one slot field is written. -/
theorem setBrightness : Obligations.SetBrightness := by
  intro s fa level hd h0 h1
  refine ⟨_, exec_bright_level hd h0 h1, ⟨rfl, rfl, rfl⟩, rfl, ⟨rfl, rfl⟩, fun k hk => State.slot_setSlot_of_ne _ _ hk, rfl, rfl,
    ?_, ?_⟩
  · rw [State.reply_slot, State.slot_setSlot_self]
  · rw [State.reply_slot, State.slot_setSlot_self]
    simp only [BitVec.toNat_ofInt]
    omega

/-- Settles O54: unregistering empties the display's place in the registry. -/
theorem stopDisplay : Obligations.StopDisplay := by
  intro s fa hd
  refine ⟨_, congrArg Host.Outcome.next (if_pos hd), ⟨rfl, rfl, rfl⟩, rfl, rfl, rfl, rfl, fun hany => ?_, fun hnone => ?_⟩
  · have hocc : anyOccupied (unregisterSlots fa s.blk.registry) = true := (anyOccupied_iff _).2 hany
    constructor
    · rw [State.reply_timerArmed, State.unregister_timerArmed, hocc, Bool.and_true]
    · rw [State.Answers, State.reply_responses, State.unregister_responses, State.unregister_registry, hocc]
      rfl
  · have hocc : anyOccupied (unregisterSlots fa s.blk.registry) = false := by
      rw [Bool.eq_false_iff]
      intro h
      obtain ⟨d, hmem⟩ := (anyOccupied_iff _).1 h
      exact hnone d hmem
    constructor
    · rw [State.reply_timerArmed, State.unregister_timerArmed, hocc, Bool.and_false]
    · rw [State.Answers, State.reply_responses, State.unregister_responses, State.unregister_registry, hocc]
      rfl

/-! ## SCAN_STEP (R289) -/

theorem State.stepRuns_iff (s : State) (d : Handle) :
    s.StepRuns d ↔ ¬((s.slot d).guardEn = true ∧ s.guardAt 0 = true) := by
  rw [State.StepRuns, State.guardAsserted_eq]
  cases (s.slot d).guardEn <;> cases s.guardAt 0 <;> simp

theorem exec_scan_stopped {s : State} {fa : Handle} (hd : s.isDisplay fa = true) (hr : s.running fa = false) :
    exec (.scan fa) s = .next ((s.scanStep s.exactView fa).reply [] .ok 0) :=
  congrArg Host.Outcome.next ((if_pos hd).trans (if_neg (by simp [hr])))

theorem State.scanStep_slot_of_runs {s : State} {d : Handle} (h : s.StepRuns d) (view : View) :
    (s.scanStep view d).slot d = (s.slot d).afterStep (view d) := by
  rw [State.scanStep_slot, if_neg ((s.stepRuns_iff d).1 h), Slot.scan_eq_afterStep]

theorem State.scanStep_slot_of_skipped {s : State} {d : Handle} (h : ¬s.StepRuns d) (view : View) :
    (s.scanStep view d).slot d = s.slot d := by
  rw [s.stepRuns_iff, not_not] at h
  rw [State.scanStep_slot, if_pos h]

/-- Settles O52: the view of a command's own step is the bitmap itself. -/
theorem scanStepCommand : Obligations.ScanStepCommand := by
  intro s fa hd hr
  obtain ⟨hp, hport, hin, -, hreg, harm, hresp, halloc, hgrow, htorn⟩ := s.scanStep_rest s.exactView fa
  exact ⟨_, exec_scan_stopped hd hr, ⟨hp, hport, hin⟩, ⟨hreg, harm⟩, fun k hk => s.scanStep_slot_of_ne _ hk,
    by rw [State.Answers, State.reply_responses, hresp], rfl, halloc, hgrow, htorn, fun h => State.scanStep_slot_of_runs h _,
    fun h => State.scanStep_slot_of_skipped h _⟩

/-! ## START (R287) -/

theorem fillLowestEmpty_append {before : List (Option Handle)} (h : none ∉ before) (d : Handle) (after : List (Option Handle)) :
    fillLowestEmpty d (before ++ none :: after) = some (before ++ some d :: after) := by
  induction before with
  | nil => rfl
  | cons e before ih =>
    cases e with
    | none => simp at h
    | some e => rw [List.cons_append, fillLowestEmpty, ih fun hm => h (List.mem_cons_of_mem _ hm)]; rfl

theorem fillLowestEmpty_of_not_mem {l : List (Option Handle)} (h : none ∉ l) (d : Handle) : fillLowestEmpty d l = none := by
  cases hf : fillLowestEmpty d l with
  | none => rfl
  | some l' =>
    obtain ⟨before, after, -, rfl, -⟩ := fillLowestEmpty_eq_some hf
    simp at h

/-- `Register` of a display that does not run is R300's. -/
theorem State.register_registers {s : State} {d : Handle} (hr : s.running d = false) : s.Registers (s.register d) d where
  reuse := by
    intro before after hb hreg
    rw [State.register, hr, hreg, fillLowestEmpty_append hb]
    rfl
  append := by
    intro hfull hcap hgrow
    rw [State.register, hr, fillLowestEmpty_of_not_mem hfull, if_neg Bool.false_ne_true]
    simp [hgrow, Nat.not_le.2 hcap]
  full := by
    intro hfull hcap
    rw [State.register, hr, fillLowestEmpty_of_not_mem hfull, if_neg Bool.false_ne_true]
    simp [hcap]
  noGrowth := by
    intro hfull hgrow
    rw [State.register, hr, fillLowestEmpty_of_not_mem hfull, if_neg Bool.false_ne_true]
    by_cases hcap : s.params.registryCapacity ≤ s.blk.registry.length <;> simp [hgrow, hcap]

@[simp] theorem State.register_alloc (s : State) (d : Handle) : (s.register d).env.alloc = s.env.alloc := by
  rw [State.register]
  split
  · rfl
  · split
    · rfl
    · split <;> rfl

theorem exec_start_stopped {s : State} {fa : Handle} (hd : s.isDisplay fa = true) (hr : s.running fa = false) :
    exec (.start fa) s = .next ((s.started fa).reply
      ((List.range (bitmapSize (s.slot fa).width (s.slot fa).height)).map fun o => (fa, o)) .ok 0) := by
  have hws : (((s.slot fa).emitAll pinSetupEvents).canvas.fillBytes 0xFF).ws =
      List.range (bitmapSize (s.slot fa).width (s.slot fa).height) := by
    rw [Canvas.fillBytes, Slot.emitAll_rest]
    exact List.append_nil _
  rw [← hws]
  exact congrArg Host.Outcome.next ((if_pos hd).trans (if_neg (by simp [hr])))

/-- Registering is decided by what the blank scan step leaves as it was. -/
theorem State.started_registers {s : State} {fa : Handle} (hr : s.running fa = false) : s.Registers (s.started fa) fa := by
  obtain ⟨⟨hp, -, -⟩, ⟨hreg, -⟩, -, -, hgrow⟩ := s.blankStepped_rest fa
  have hr' : (s.blankStepped fa).running fa = false := by rw [State.running, Block.running, hreg]; exact hr
  obtain ⟨h1, h2, h3, h4⟩ := State.register_registers hr'
  rw [hreg, hp, hgrow] at h2
  rw [hreg, hp] at h3
  rw [hreg, hgrow] at h4
  rw [hreg] at h1
  exact ⟨h1, h2, h3, h4⟩

/-- The blank scan step reads `0xFF` everywhere, and draws the sample `s` would draw. -/
theorem State.blankStepped_slot (s : State) (fa : Handle) :
    (s.StepRuns fa → (s.blankStepped fa).slot fa = (s.slot fa).blanked.afterStep fun _ => 0xFF) ∧
    (¬s.StepRuns fa → (s.blankStepped fa).slot fa = (s.slot fa).blanked) := by
  have hself : (s.setSlot fa (s.slot fa).blanked).slot fa = (s.slot fa).blanked := State.slot_setSlot_self _ _ _
  have hguard : (s.slot fa).blanked.guardEn = (s.slot fa).guardEn := by rw [Slot.blanked_eq]
  have hruns : (s.setSlot fa (s.slot fa).blanked).StepRuns fa ↔ s.StepRuns fa := by
    rw [State.StepRuns, hself, hguard]; rfl
  have hview : (s.setSlot fa (s.slot fa).blanked).exactView fa = fun _ => 0xFF := by
    funext o
    rw [State.exactView, State.byte, hself]
    rfl
  constructor
  · intro h
    rw [State.blankStepped, State.scanStep_slot_of_runs (hruns.2 h), hself, hview]
  · intro h
    rw [State.blankStepped, State.scanStep_slot_of_skipped (fun h' => h (hruns.1 h')), hself]

/-- Settles O53: the stages of R287 in order: set-up, blanking, the step, the registration. -/
theorem startDisplay : Obligations.StartDisplay := by
  intro s fa hd hr
  obtain ⟨-, -, -, halloc, -⟩ := s.blankStepped_rest fa
  obtain ⟨hruns, hskips⟩ := s.blankStepped_slot fa
  have hslot : (s.started fa).slot fa = (s.blankStepped fa).slot fa := s.started_slot fa fa
  have hbuf : ((s.blankStepped fa).slot fa).buf = [] := by
    by_cases h : s.StepRuns fa
    · rw [hruns h]; rfl
    · rw [hskips h]; rfl
  have hexec := exec_start_stopped hd hr
  obtain ⟨reuse, append, full, noGrowth⟩ := State.started_registers hr
  refine ⟨_, (s.slot fa).blanked, hexec, (Effect.of_exec hexec).outside, fun k hk => ?_, ?_, ?_, fun k o => ?_, ?_, fun o => ?_,
    fun h => hslot.trans (hruns h), fun h => hslot.trans (hskips h), ⟨reuse, append, full, noGrowth⟩, rfl⟩
  · exact (s.started_slot fa k).trans (s.blankStepped_slot_of_ne hk)
  · rw [State.Answers, State.reply_responses, State.started_responses]
  · exact ((s.blankStepped fa).register_alloc fa).trans halloc
  · rw [State.reply_ws, mem_map_handle, List.mem_range]
    exact Iff.rfl
  · rw [State.reply_slot, hslot, hbuf, Slot.blanked_eq]
  · rw [State.byte, State.reply_slot, hslot, hbuf]; rfl

/-! ## The bytes of four steps (R273, R281, R282) -/

/-- The step of row `q` sends the rows `q + 4 * j` of the bitmap. -/
theorem mem_sentOffsets {rb q j i : Nat} (hj : j < 4) (hi : i < rb) : (q + 4 * j) * rb + i ∈ sentOffsets rb q := by
  rw [sentOffsets, List.mem_flatMap]
  refine ⟨i, List.mem_range.2 hi, ?_⟩
  interval_cases j <;> simp

theorem sentOffsets_length (rb sr : Nat) : (sentOffsets rb sr).length = 4 * rb := by
  simp [sentOffsets, List.length_flatMap]
  omega

/-- The offsets that the next `k` scan steps of a display send, in order (R273, R278). -/
def Slot.offsetsSent (f : Slot) (k : Nat) : List Nat :=
  (List.range k).flatMap fun j => sentOffsets (rowBytes f.width f.height) (f.scanRow + BitVec.ofNat 2 j).toNat

theorem Slot.offsetsSent_succ (f : Slot) (k : Nat) : f.offsetsSent (k + 1) =
    f.offsetsSent k ++ sentOffsets (rowBytes f.width f.height) (f.scanRow + BitVec.ofNat 2 k).toNat := by
  simp [Slot.offsetsSent, List.range_succ]

/-- Four successive rows are all four, whichever comes first. -/
theorem rows_cover (sr : BitVec 2) {q : Nat} (hq : q < 4) : ∃ j < 4, (sr + BitVec.ofNat 2 j).toNat = q := by
  interval_cases q <;> revert sr <;> decide

/-- Four steps send every offset of the bitmap exactly once: as many offsets as it has bytes, and each of its offsets (R281). -/
theorem Slot.offsetsSent_perm (f : Slot) : (f.offsetsSent 4).Perm (List.range (bitmapSize f.width f.height)) := by
  refine (List.Subperm.perm_of_length_le (List.subperm_of_subset List.nodup_range fun o ho => ?_) ?_).symm
  · have ho : o < rowBytes f.width f.height * 16 := List.mem_range.1 ho
    have hi : o % rowBytes f.width f.height < rowBytes f.width f.height :=
      Nat.mod_lt _ (Nat.pos_of_mul_pos_right (Nat.zero_lt_of_lt ho))
    have hr : o / rowBytes f.width f.height < 16 := Nat.div_lt_of_lt_mul ho
    generalize hq : o / rowBytes f.width f.height = r at hr
    obtain ⟨j, hj, hrow⟩ := rows_cover f.scanRow (Nat.mod_lt r (show 4 > 0 by decide))
    refine List.mem_flatMap.2 ⟨j, List.mem_range.2 hj, ?_⟩
    have hsent := mem_sentOffsets (q := r % 4) (show r / 4 < 4 by omega) hi
    rwa [Nat.mod_add_div, ← hq, Nat.div_add_mod', hq, ← hrow] at hsent
  · simp only [Slot.offsetsSent, List.length_flatMap, sentOffsets_length, List.length_range, bitmapSize, Config.panelHeight,
      List.map_const', List.sum_replicate, smul_eq_mul]
    omega

/-- A SCAN_STEP that runs, and what the next one needs (R271, R289). -/
theorem exec_scan_runs {s : State} {d : Handle} (hd : s.isDisplay d = true) (hr : s.running d = false) (hruns : s.StepRuns d) :
    ∃ t, exec (.scan d) s = .next t ∧ t.slot d = (s.slot d).afterStep (s.byte d) ∧ t.isDisplay d = true ∧ t.running d = false ∧
      ∀ m, t.guardAt m = s.guardAt (m + (s.slot d).samples) := by
  obtain ⟨hp, -, -, -, hreg, -⟩ := s.scanStep_rest s.exactView d
  have hslot : ((s.scanStep s.exactView d).reply [] .ok 0).slot d = (s.slot d).afterStep (s.byte d) :=
    State.scanStep_slot_of_runs hruns s.exactView
  refine ⟨_, exec_scan_stopped hd hr, hslot, ?_, ?_, s.scanStep_guardAt s.exactView d⟩
  · rw [State.isDisplay, State.isFrame, hslot, State.reply_params, hp]
    exact hd
  · rw [State.running, Block.running, State.reply_registry, hreg]
    exact hr

theorem stepRuns_of_guardAt {s : State} {d : Handle} (h : (s.slot d).guardEn = true → s.guardAt 0 = false) : s.StepRuns d := by
  rw [State.stepRuns_iff]
  rintro ⟨hg, ha⟩
  simp [h hg] at ha

/-- Of a step's events, the row data are the bytes sent (R273, R275). -/
theorem filter_isSend_step (view : Nat → Byte) (offsets : List Nat) (sr : BitVec 2) (b : BitVec 8) :
    (offsets.map (fun o => OutEvent.send (view o)) ++ controlEvents sr b).filter OutEvent.isSend
      = offsets.map fun o => .send (view o) := by
  rw [List.filter_append, List.filter_eq_self.2, show (controlEvents sr b).filter OutEvent.isSend = [] from rfl, List.append_nil]
  intro e he
  obtain ⟨o, -, rfl⟩ := List.mem_map.1 he
  rfl

/-- A run of `n` more SCAN_STEP commands of one display, none of them skipped. -/
structure State.ScansOn (s : State) (d : Handle) (n : Nat) : Prop where
  display : s.isDisplay d = true
  stopped : s.running d = false
  samples : (s.slot d).guardEn = true → ∀ m < n, s.guardAt m = false

/-- One of them is made, and the others can follow. -/
theorem State.ScansOn.next {s : State} {d : Handle} {n : Nat} (h : s.ScansOn d (n + 1)) :
    ∃ t, exec (.scan d) s = .next t ∧ t.slot d = (s.slot d).afterStep (s.byte d) ∧ t.ScansOn d n := by
  obtain ⟨t, hexec, hslot, hdisp, hstop, hguard⟩ :=
    exec_scan_runs h.display h.stopped (stepRuns_of_guardAt fun hg => h.samples hg 0 (Nat.succ_pos n))
  refine ⟨t, hexec, hslot, hdisp, hstop, fun hg m hm => ?_⟩
  have hg' : (s.slot d).guardEn = true := by rw [hslot] at hg; exact hg
  rw [hguard, Slot.samples, if_pos hg']
  exact h.samples hg' (m + 1) (Nat.succ_lt_succ hm)

/-- Display `d` has made `k` scan steps since its slot was `f`: its bitmap is as it was, the row has advanced `k` times, and the
row data since then are the bytes of the offsets that `k` steps send (R50, R273, R278). -/
structure State.Sent (s : State) (d : Handle) (f : Slot) (k : Nat) : Prop where
  width : (s.slot d).width = f.width
  height : (s.slot d).height = f.height
  buf : (s.slot d).buf = f.buf
  row : (s.slot d).scanRow = f.scanRow + BitVec.ofNat 2 k
  trace : ∃ events, (s.slot d).trace = f.trace ++ events ∧
    events.filter OutEvent.isSend = (f.offsetsSent k).map fun o => .send (f.buf.read o)

theorem State.Sent.start (s : State) (d : Handle) : s.Sent d (s.slot d) 0 :=
  ⟨rfl, rfl, rfl, (BitVec.add_zero _).symm, [], (List.append_nil _).symm, rfl⟩

theorem State.Sent.step {s t : State} {d : Handle} {f : Slot} {k : Nat} (hs : s.Sent d f k)
    (ht : t.slot d = (s.slot d).afterStep (s.byte d)) : t.Sent d f (k + 1) := by
  obtain ⟨hw, hh, hbuf, hrow, events, htrace, hfilter⟩ := hs
  have hbyte : s.byte d = f.buf.read := by funext o; rw [State.byte, hbuf]
  refine ⟨?_, ?_, ?_, ?_, events ++ ((sentOffsets (rowBytes f.width f.height) (f.scanRow + BitVec.ofNat 2 k).toNat).map
    (fun o => .send (f.buf.read o)) ++ controlEvents (f.scanRow + BitVec.ofNat 2 k) (s.slot d).brightness), ?_, ?_⟩
  · rw [ht]; exact hw
  · rw [ht]; exact hh
  · rw [ht]; exact hbuf
  · rw [ht, Slot.afterStep, hrow, BitVec.add_assoc, BitVec.ofNat_add]
    rfl
  · rw [ht, Slot.afterStep, htrace, hrow, hw, hh, hbyte]
    simp only [List.append_assoc]
  · rw [List.filter_append, hfilter, filter_isSend_step, ← List.map_append, Slot.offsetsSent_succ]

/-- Settles O55: the four rows visited are all residues, so the offsets sent are all below SIZE. -/
theorem fourStepsSendEveryByteOnce : Obligations.FourStepsSendEveryByteOnce := by
  intro s d hd hr hg
  obtain ⟨t1, e1, f1, h1⟩ := State.ScansOn.next (s := s) (d := d) (n := 3) ⟨hd, hr, hg⟩
  obtain ⟨t2, e2, f2, h2⟩ := h1.next
  obtain ⟨t3, e3, f3, h3⟩ := h2.next
  obtain ⟨t4, e4, f4, -⟩ := h3.next
  have s1 := (State.Sent.start s d).step f1
  have s2 := s1.step f2
  have s3 := s2.step f3
  have s4 := s3.step f4
  exact ⟨t1, t2, t3, t4, e1, e2, e3, e4, s1.row, s2.row, s3.row, s4.row.trans (BitVec.add_zero _), s4.buf, _,
    (s.slot d).offsetsSent_perm, s4.trace⟩

/-! ## GET_PIXEL (R183) -/

/-- Settles O26: the mask of R75 picks the bit. -/
theorem getPixelAnswers : Obligations.GetPixelAnswers := by
  intro s fa x y hf
  have hbit : (val x).toNat % 8 < 8 := Nat.mod_lt _ (by decide)
  have hlit : s.pixel fa (val x) (val y) = decide (s.inRange fa (val x) (val y) = true ∧
      s.byte fa (s.offsetOf fa (val x) (val y)) &&& ((1 : Byte) <<< (7 - (val x).toNat % 8)) = 0) := by
    rw [State.pixel, Canvas.getPixel, pixelMask, pixelBit_eq, leftMask, Bool.decide_and, Bool.decide_eq_true, ← beq_eq_decide]
    rfl
  rw [exec_getpix_frame hf, hlit, flagValue]
  simp only [decide_eq_true_eq]

end Sys2Proof.Machine
end

section
/-!
SUPPORT. The commands that draw on a frame by visits (spec/41_pixel.md, spec/42_drawing.md, spec/43_region.md). A command pastes a
grid of pixels, so its new picture is read off the grid cell of each pixel.
-/

namespace Sys2Proof.Machine

/-! ## Frames that can be drawn on -/

/-- A live frame with a legal size and a good bitmap: what drawing needs, and what it leaves. -/
structure State.Drawable (s : State) (h : Handle) : Prop where
  frame : s.isFrame h = true
  canvas : (s.slot h).canvas.Ok
  widthPos : 0 < (s.slot h).width
  heightPos : 0 < (s.slot h).height

theorem State.Inv.drawable {s : State} (hs : s.Inv) {h : Handle} (hf : s.isFrame h = true) : s.Drawable h :=
  have ok := (hs.blk.slots h).live (State.isFrame.live hf)
  ⟨hf, hs.canvas hf, ok.widthPos, ok.heightPos⟩

theorem State.Drawable.drawn {s : State} {h : Handle} (hd : s.Drawable h) {c : Canvas} (hc : c.Ok)
    (width : c.width = (s.slot h).width) (height : c.height = (s.slot h).height) : (s.drawn h c).Drawable h := by
  refine ⟨(s.drawn_onlyBitmap h c).isFrame.trans hd.frame, ?_, ?_, ?_⟩ <;> rw [State.drawn_slot_self]
  · exact ⟨hc.bitmap, by have := hc.size; rwa [width, height] at this⟩
  · exact hd.widthPos
  · exact hd.heightPos

theorem State.Drawable.paint {s : State} {h : Handle} (hd : s.Drawable h) (visits : List PixelOp) :
    (s.drawn h ((s.slot h).canvas.paint visits)).Drawable h :=
  hd.drawn (hd.canvas.paint _) (Canvas.paint_width _ _) (Canvas.paint_height _ _)

/-! ## Points (R181, R201, R204, R211) -/

/-- Settles O25: a drawing of one point. -/
theorem setPixelDraws : Obligations.SetPixelDraws := fun _ _ _ _ _ hs hf =>
  ⟨_, (exec_setpix _ _ _ _ _).trans (congrArg _ (State.drawOn_frame hf _)), State.drawn_draws (hs.canvas hf) _ _⟩

/-- Settles O30: each is a drawing of its point list. -/
theorem lineCircleBoxDraw : Obligations.LineCircleBoxDraw := fun _ _ _ hs hf =>
  ⟨fun _ _ _ _ => ⟨_, (exec_line _ _ _ _ _ _ _).trans (congrArg _ (State.drawOn_frame hf _)),
      State.drawn_draws (hs.canvas hf) _ _⟩,
    fun _ _ _ => ⟨_, (exec_circle _ _ _ _ _ _).trans (congrArg _ (State.drawOn_frame hf _)),
      State.drawn_draws (hs.canvas hf) _ _⟩,
    fun _ _ _ _ => ⟨_, (exec_box _ _ _ _ _ _ _).trans (congrArg _ (State.drawOn_frame hf _)),
      State.drawn_draws (hs.canvas hf) _ _⟩⟩

/-! ## FILL (R184) -/

theorem State.drawn_fillBytes_byte {s : State} {h : Handle} {o : Nat} (ho : s.allBytes h o) (v : Byte) :
    (s.drawn h ((s.slot h).canvas.fillBytes v)).byte h o = v := by
  rw [State.byte, State.drawn_slot_self]
  exact Memory.read_filled ho v

theorem State.mem_drawn_fillBytes_ws (s : State) (h k : Handle) (o : Nat) (v : Byte) :
    (k, o) ∈ (s.drawn h ((s.slot h).canvas.fillBytes v)).ws ↔ k = h ∧ s.allBytes h o := by
  rw [State.drawn_ws, mem_map_handle, Canvas.mem_fillBytes_ws, Slot.canvas_ws]
  simp [State.allBytes]

/-- Settles O27: every offset is written with one byte. -/
theorem fillWritesEveryByte : Obligations.FillWritesEveryByte := by
  intro s fa on hf hon
  obtain ⟨lit, rfl⟩ : ∃ lit, on = flagValue lit := by
    rcases hon with rfl | rfl
    · exact ⟨false, rfl⟩
    · exact ⟨true, rfl⟩
  have hlit : flagValue lit = 1 ↔ lit = true := by cases lit <;> decide
  simp only [hlit, Bool.decide_eq_true]
  exact ⟨_, (exec_fill_flag lit fa s).trans (congrArg _ (State.drawOn_frame hf _)), s.drawn_onlyBitmap fa _, rfl,
    fun k o => s.mem_drawn_fillBytes_ws fa k o _, fun o ho => State.drawn_fillBytes_byte ho _,
    fun x y hr => (State.drawn_pixel rfl rfl x y).trans (Canvas.getPixel_fillBytes (s.slot fa).canvas lit hr)⟩

/-! ## Pasting a grid (R230, R231) -/

theorem pasteVisits_writes (grid : Nat → Nat → Bool) (cols rows : Nat) (left top : Int) :
    ∀ v ∈ pasteVisits grid cols rows left top, modeWrites v.mode = true := by
  intro v hv
  obtain ⟨c, -, rfl⟩ := List.mem_map.1 hv
  exact modeWrites_litMode _

theorem clearVisits_writes (cols rows : Nat) (left top : Int) :
    ∀ v ∈ clearVisits cols rows left top, modeWrites v.mode = true := by
  intro v hv
  obtain ⟨c, -, rfl⟩ := List.mem_map.1 hv
  rfl

/-- The cells of a grid at `(left, top)` are the pixels of a rectangle. -/
theorem exists_cell_iff (cols rows : Nat) (left top x y : Int) :
    (∃ c ∈ gridCells cols rows, left + (c.1 : Int) = x ∧ top + (c.2 : Int) = y) ↔ inRect left top cols rows x y := by
  constructor
  · rintro ⟨c, hc, rfl, rfl⟩
    obtain ⟨h1, h2⟩ := (mem_gridCells _ _ _).1 hc
    exact ⟨by omega, by omega, by omega, by omega⟩
  · rintro ⟨h1, h2, h3, h4⟩
    exact ⟨((x - left).toNat, (y - top).toNat), (mem_gridCells _ _ _).2 ⟨by simp only; omega, by simp only; omega⟩,
      by simp only; omega, by simp only; omega⟩

theorem exists_paste_iff (grid : Nat → Nat → Bool) (cols rows : Nat) (left top x y : Int) :
    (∃ v ∈ pasteVisits grid cols rows left top, v.x = x ∧ v.y = y) ↔ inRect left top cols rows x y := by
  rw [← exists_cell_iff, pasteVisits]
  simp only [List.mem_map, exists_exists_and_eq_and]

theorem exists_clear_iff (cols rows : Nat) (left top x y : Int) :
    (∃ v ∈ clearVisits cols rows left top, v.x = x ∧ v.y = y) ↔ inRect left top cols rows x y := by
  rw [← exists_cell_iff, clearVisits]
  simp only [List.mem_map, exists_exists_and_eq_and]

/-- A grid pasted on a frame shows in its rectangle, and nothing else changes (R231). -/
theorem State.Drawable.paste {s : State} {h : Handle} (hd : s.Drawable h) (grid : Nat → Nat → Bool) (cols rows : Nat)
    (left top : Int) {picture : Int → Int → Bool} {region : Int → Int → Prop}
    (inside : ∀ x y, s.inRange h x y = true → inRect left top cols rows x y →
      region x y ∧ grid (x - left).toNat (y - top).toNat = picture x y)
    (outside : ∀ x y, s.inRange h x y = true → ¬inRect left top cols rows x y → ¬region x y ∧ s.pixel h x y = picture x y) :
    s.Redraws (s.drawn h ((s.slot h).canvas.paint (pasteVisits grid cols rows left top))) h picture (s.bytesOf h region) := by
  refine State.drawn_redraws_paint hd.canvas (fun x y hr => ?_) (pasteVisits_writes _ _ _ _ _) fun x y hr => ?_
  · rw [Canvas.getPixel_paste hd.canvas _ _ _ _ _ hr]
    split
    · exact (inside x y hr ⟨by omega, by omega, by omega, by omega⟩).2
    · rename_i hn
      exact (outside x y hr fun hin => hn (by obtain ⟨h1, h2, h3, h4⟩ := hin; omega)).2
  · rw [exists_paste_iff]
    exact ⟨fun hin => (inside x y hr hin).1, fun hreg => by_contra fun hn => (outside x y hr hn).1 hreg⟩

/-- A grid pasted over the whole frame is its new picture (R235 to R238). -/
theorem State.Drawable.pasteWhole {s : State} {h : Handle} (hd : s.Drawable h) (grid : Nat → Nat → Bool)
    {picture : Int → Int → Bool} (hgrid : ∀ x y, s.inRange h x y = true → grid x.toNat y.toNat = picture x y) :
    s.Redraws (s.drawn h ((s.slot h).canvas.paint (pasteVisits grid (s.slot h).width (s.slot h).height 0 0))) h picture
      (s.bytesOf h fun _ _ => True) := by
  refine hd.paste grid _ _ 0 0 (fun x y hr _ => ⟨trivial, ?_⟩) fun x y hr hn => (hn ?_).elim
  · rw [Int.sub_zero, Int.sub_zero]; exact hgrid x y hr
  · obtain ⟨h1, h2, h3, h4⟩ := (inRange_iff _ _ _ _).1 hr
    exact ⟨h1, by omega, h3, by omega⟩

/-! ## MOVE_REGION and COPY_INTO (R233, R234) -/

theorem exec_move_frame {s : State} {fa : Handle} (hf : s.isFrame fa = true) {w h : Operand} (hw : 1 ≤ val w) (hh : 1 ≤ val h)
    (fromX fromY toX toY : Operand) : exec (.move fa fromX fromY toX toY w h) s =
    .next (s.drawn fa ((s.slot fa).canvas.paint (clearVisits (val w).toNat (val h).toNat (val fromX) (val fromY)
      ++ pasteVisits ((s.slot fa).canvas.snapshot (val fromX) (val fromY)) (val w).toNat (val h).toNat (val toX) (val toY)))) :=
  congrArg Host.Outcome.next ((State.drawOn_frame hf _).trans (congrArg (s.drawn fa) (if_pos ⟨hw, hh⟩)))

theorem exec_move_empty {s : State} {fa : Handle} (hf : s.isFrame fa = true) {w h : Operand} (hempty : val w < 1 ∨ val h < 1)
    (fromX fromY toX toY : Operand) : exec (.move fa fromX fromY toX toY w h) s = .next (s.reply [] .ok 0) := by
  rw [← State.drawn_own_canvas s fa]
  exact congrArg Host.Outcome.next ((State.drawOn_frame hf _).trans (congrArg (s.drawn fa) (if_neg (by omega))))

/-- Settles O37. The source is cleared, then the old picture pasted: the destination wins where the two overlap. -/
theorem moveRegion : Obligations.MoveRegion := by
  intro s fa fromX fromY toX toY w h hs hf
  refine ⟨fun hw hh => ⟨_, exec_move_frame hf hw hh fromX fromY toX toY, ?_⟩, fun hempty => exec_move_empty hf hempty _ _ _ _⟩
  have hc := hs.canvas hf
  have hcols : ((val w).toNat : Int) = val w := Int.toNat_of_nonneg (by omega)
  have hrows : ((val h).toNat : Int) = val h := Int.toNat_of_nonneg (by omega)
  refine State.drawn_redraws_paint hc (fun x y hr => ?pixels) (fun v hv => ?writes) fun x y hr => ?visited
  case pixels =>
    rw [Canvas.paint_append, Canvas.getPixel_paste (hc.paint _) _ _ _ _ _ (by rw [Canvas.paint_width, Canvas.paint_height]; exact hr),
      Canvas.getPixel_clear hc _ _ _ _ hr, hcols, hrows, Canvas.snapshot]
    simp only [sub_nonneg, sub_lt_iff_lt_add']
    split
    case isTrue hto =>
      rw [Int.toNat_of_nonneg (by omega), Int.toNat_of_nonneg (by omega)]
      rfl
    case isFalse => rfl
  case writes =>
    rcases List.mem_append.1 hv with hv | hv
    · exact clearVisits_writes _ _ _ _ v hv
    · exact pasteVisits_writes _ _ _ _ _ v hv
  case visited =>
    simp only [List.mem_append, or_and_right, exists_or, exists_clear_iff, exists_paste_iff, hcols, hrows]
    exact or_comm

/-- What COPY_INTO draws, on a frame that can be drawn on (R233). -/
theorem copyin_redraws {s : State} {fa fb : Handle} (hd : s.Drawable fa) (hb : s.isFrame fb = true) (left top : Operand) :
    ∃ t, exec (.copyin fa fb left top) s = .next t ∧ s.Redraws t fa
      (fun x y => if s.inRange fb (x - val left) (y - val top) = true then s.pixel fb (x - val left) (y - val top)
        else s.pixel fa x y)
      (s.bytesOf fa fun x y => s.inRange fb (x - val left) (y - val top) = true) := by
  have hboth : (s.isFrame fa && s.isFrame fb) = true := by simp [hd.frame, hb]
  have hrect : ∀ x y, inRect (val left) (val top) (s.slot fb).width (s.slot fb).height x y ↔
      s.inRange fb (x - val left) (y - val top) = true := by
    intro x y
    rw [State.inRange, inRange_iff, inRect]
    omega
  refine ⟨_, congrArg Host.Outcome.next (if_pos hboth), hd.paste _ _ _ _ _ (fun x y _ hin => ?_) fun x y _ hout => ?_⟩
  · have hin' := (hrect x y).1 hin
    obtain ⟨h1, h2, h3, h4⟩ := hin
    refine ⟨hin', ?_⟩
    rw [if_pos hin', Canvas.snapshot, Int.toNat_of_nonneg (by omega), Int.toNat_of_nonneg (by omega), Int.zero_add, Int.zero_add]
    rfl
  · rw [hrect] at hout
    exact ⟨hout, (if_neg hout).symm⟩

/-- Settles O39: a paste of the source's pixels that land in range. -/
theorem copyInto : Obligations.CopyInto := fun _ _ _ left top hs ha hb => copyin_redraws (hs.drawable ha) hb left top

/-! ## Scrolls and marquees (R235 to R238) -/

theorem exec_scrx_within {s : State} {fa : Handle} {delta : Operand} (hf : s.isFrame fa = true)
    (hlt : |val delta| < ((s.slot fa).width : Int)) : exec (.scrx fa delta) s =
    .next (s.drawn fa ((s.slot fa).canvas.paint (pasteVisits (fun i j => (s.slot fa).canvas.snapshot (-val delta) 0 i j)
      (s.slot fa).width (s.slot fa).height 0 0))) :=
  congrArg Host.Outcome.next ((State.drawOn_frame hf _).trans (congrArg (s.drawn fa) (if_neg (not_le.2 hlt))))

theorem exec_scry_within {s : State} {fa : Handle} {delta : Operand} (hf : s.isFrame fa = true)
    (hlt : |val delta| < ((s.slot fa).height : Int)) : exec (.scry fa delta) s =
    .next (s.drawn fa ((s.slot fa).canvas.paint (pasteVisits (fun i j => (s.slot fa).canvas.snapshot 0 (-val delta) i j)
      (s.slot fa).width (s.slot fa).height 0 0))) :=
  congrArg Host.Outcome.next ((State.drawOn_frame hf _).trans (congrArg (s.drawn fa) (if_neg (not_le.2 hlt))))

theorem exec_scrx_beyond {s : State} {fa : Handle} {delta : Operand} (hf : s.isFrame fa = true)
    (hle : ((s.slot fa).width : Int) ≤ |val delta|) : exec (.scrx fa delta) s =
    .next (s.drawn fa ((s.slot fa).canvas.fillBytes 0xFF)) :=
  congrArg Host.Outcome.next ((State.drawOn_frame hf _).trans (congrArg (s.drawn fa) (if_pos hle)))

theorem exec_scry_beyond {s : State} {fa : Handle} {delta : Operand} (hf : s.isFrame fa = true)
    (hle : ((s.slot fa).height : Int) ≤ |val delta|) : exec (.scry fa delta) s =
    .next (s.drawn fa ((s.slot fa).canvas.fillBytes 0xFF)) :=
  congrArg Host.Outcome.next ((State.drawOn_frame hf _).trans (congrArg (s.drawn fa) (if_pos hle)))

/-- A frame cleared to `0xFF` is dark, every byte of it written (R235). -/
theorem State.cleared_redraws {s : State} {h : Handle} (hc : (s.slot h).canvas.Ok) {picture : Int → Int → Bool}
    (dark : ∀ x y, s.inRange h x y = true → picture x y = false) :
    s.Redraws (s.drawn h ((s.slot h).canvas.fillBytes 0xFF)) h picture (s.allBytes h) := by
  refine State.drawn_redraws rfl rfl (fun x y hr => ?_) (fun o => ?_) fun o ho => ?_
  · rw [dark x y hr]
    exact Canvas.getPixel_fillBytes (s.slot h).canvas false hr
  · rw [Canvas.mem_fillBytes_ws, Slot.canvas_ws]
    simp [State.allBytes]
  · rw [Canvas.mem_fillBytes_ws, not_or] at ho
    have hbelow := hc.size
    rw [Memory.below, List.all_eq_true] at hbelow
    rw [Memory.read_of_not_listed (s.slot h).buf o fun c hcell e => ho.1 (e ▸ of_decide_eq_true (hbelow c hcell))]
    exact congrArg (Memory.read · o) (Memory.filled_ff (bitmapSize (s.slot h).width (s.slot h).height))

theorem State.pixel_out_column {s : State} {h : Handle} {x y : Int} (hx : x < 0 ∨ ((s.slot h).width : Int) ≤ x) :
    s.pixel h x y = false := by
  refine State.pixel_out (Bool.eq_false_iff.2 fun hr => ?_)
  obtain ⟨h1, h2, -, -⟩ := (inRange_iff _ _ _ _).1 hr
  omega

theorem State.pixel_out_row {s : State} {h : Handle} {x y : Int} (hy : y < 0 ∨ ((s.slot h).height : Int) ≤ y) :
    s.pixel h x y = false := by
  refine State.pixel_out (Bool.eq_false_iff.2 fun hr => ?_)
  obtain ⟨-, -, h3, h4⟩ := (inRange_iff _ _ _ _).1 hr
  omega

/-- What SCROLL_X by less than the width draws (R235). -/
theorem scrx_redraws {s : State} {fa : Handle} {delta : Operand} (hd : s.Drawable fa)
    (hlt : |val delta| < ((s.slot fa).width : Int)) : ∃ t, exec (.scrx fa delta) s = .next t ∧ t.Drawable fa ∧
      s.Redraws t fa (fun x y => s.pixel fa (x - val delta) y) (s.bytesOf fa fun _ _ => True) := by
  refine ⟨_, exec_scrx_within hd.frame hlt, hd.paint _, hd.pasteWhole _ fun x y hr => ?_⟩
  obtain ⟨h1, -, h3, -⟩ := (inRange_iff _ _ _ _).1 hr
  rw [Canvas.snapshot, Int.toNat_of_nonneg h1, Int.toNat_of_nonneg h3, Int.zero_add, neg_add_eq_sub]
  rfl

/-- What SCROLL_Y by less than the height draws (R236). -/
theorem scry_redraws {s : State} {fa : Handle} {delta : Operand} (hd : s.Drawable fa)
    (hlt : |val delta| < ((s.slot fa).height : Int)) : ∃ t, exec (.scry fa delta) s = .next t ∧
      s.Redraws t fa (fun x y => s.pixel fa x (y - val delta)) (s.bytesOf fa fun _ _ => True) := by
  refine ⟨_, exec_scry_within hd.frame hlt, hd.pasteWhole _ fun x y hr => ?_⟩
  obtain ⟨h1, -, h3, -⟩ := (inRange_iff _ _ _ _).1 hr
  rw [Canvas.snapshot, Int.toNat_of_nonneg h1, Int.toNat_of_nonneg h3, Int.zero_add, neg_add_eq_sub]
  rfl

/-- Settles O40. From a full width or height on, every pixel's source is out of range. -/
theorem scroll : Obligations.Scroll := by
  intro s fa delta hs hf
  have hd := hs.drawable hf
  constructor
  · by_cases hle : ((s.slot fa).width : Int) ≤ |val delta|
    · simp only [hle, if_true]
      refine ⟨_, exec_scrx_beyond hf hle, State.cleared_redraws hd.canvas fun x y hr => State.pixel_out_column ?_,
        fun _ o ho => State.drawn_fillBytes_byte ho _⟩
      obtain ⟨h1, h2, -, -⟩ := (inRange_iff _ _ _ _).1 hr
      rcases le_abs.1 hle with h | h <;> omega
    · obtain ⟨t, hexec, -, hredraws⟩ := scrx_redraws hd (not_le.1 hle)
      simp only [hle, if_false]
      exact ⟨t, hexec, hredraws, fun h => h.elim⟩
  · by_cases hle : ((s.slot fa).height : Int) ≤ |val delta|
    · simp only [hle, if_true]
      refine ⟨_, exec_scry_beyond hf hle, State.cleared_redraws hd.canvas fun x y hr => State.pixel_out_row ?_,
        fun _ o ho => State.drawn_fillBytes_byte ho _⟩
      obtain ⟨-, -, h3, h4⟩ := (inRange_iff _ _ _ _).1 hr
      rcases le_abs.1 hle with h | h <;> omega
    · obtain ⟨t, hexec, hredraws⟩ := scry_redraws hd (not_le.1 hle)
      simp only [hle, if_false]
      exact ⟨t, hexec, hredraws, fun h => h.elim⟩

/-- What MARQUEE_X draws (R237). -/
theorem marqx_redraws {s : State} {fa : Handle} (hd : s.Drawable fa) (delta : Operand) :
    ∃ t, exec (.marqx fa delta) s = .next t ∧ t.Drawable fa ∧
      s.Redraws t fa (fun x y => s.pixel fa ((x - val delta) % ((s.slot fa).width : Int)) y) (s.bytesOf fa fun _ _ => True) := by
  refine ⟨_, congrArg Host.Outcome.next (State.drawOn_frame hd.frame _), hd.paint _, hd.pasteWhole _ fun x y hr => ?_⟩
  obtain ⟨h1, -, h3, -⟩ := (inRange_iff _ _ _ _).1 hr
  have hmod := Int.emod_nonneg (x - val delta) (show ((s.slot fa).width : Int) ≠ 0 by have := hd.widthPos; omega)
  rw [Canvas.snapshot, Int.toNat_of_nonneg h1, Int.toNat_of_nonneg h3, Slot.canvas_width, Int.toNat_of_nonneg hmod, Int.zero_add,
    Int.zero_add]
  rfl

/-- What MARQUEE_Y draws (R238). -/
theorem marqy_redraws {s : State} {fa : Handle} (hd : s.Drawable fa) (delta : Operand) :
    ∃ t, exec (.marqy fa delta) s = .next t ∧ t.Drawable fa ∧
      s.Redraws t fa (fun x y => s.pixel fa x ((y - val delta) % ((s.slot fa).height : Int))) (s.bytesOf fa fun _ _ => True) := by
  refine ⟨_, congrArg Host.Outcome.next (State.drawOn_frame hd.frame _), hd.paint _, hd.pasteWhole _ fun x y hr => ?_⟩
  obtain ⟨h1, -, h3, -⟩ := (inRange_iff _ _ _ _).1 hr
  have hmod := Int.emod_nonneg (y - val delta) (show ((s.slot fa).height : Int) ≠ 0 by have := hd.heightPos; omega)
  rw [Canvas.snapshot, Int.toNat_of_nonneg h1, Int.toNat_of_nonneg h3, Slot.canvas_height, Int.toNat_of_nonneg hmod, Int.zero_add,
    Int.zero_add]
  rfl

/-- Settles O41: a paste of the whole frame, shifted modulo its side. -/
theorem marquee : Obligations.Marquee := by
  intro s fa delta hs hf
  obtain ⟨t, ht, -, htr⟩ := marqx_redraws (hs.drawable hf) delta
  obtain ⟨u, hu, -, hur⟩ := marqy_redraws (hs.drawable hf) delta
  exact ⟨⟨t, ht, htr⟩, u, hu, hur⟩

end Sys2Proof.Machine
end

section
/-!
SUPPORT. Sub-frames, and the laws of the region commands (spec/43_region.md R232, R240).
-/

namespace Sys2Proof.Machine

/-! ## SUB_FRAME (R232) -/

/-- What a canvas shows depends on its size and its bitmap alone. -/
theorem Canvas.getPixel_congr {c c' : Canvas} (width : c.width = c'.width) (height : c.height = c'.height) (buf : c.buf = c'.buf)
    (x y : Int) : c.getPixel x y = c'.getPixel x y := by
  rw [Canvas.getPixel, Canvas.getPixel, width, height, buf]

@[simp] theorem State.subCanvas_width (s : State) (fa : Handle) (left top : Int) (cols rows : Nat) :
    (s.subCanvas fa left top cols rows).width = cols := Canvas.paint_width _ _
@[simp] theorem State.subCanvas_height (s : State) (fa : Handle) (left top : Int) (cols rows : Nat) :
    (s.subCanvas fa left top cols rows).height = rows := Canvas.paint_height _ _

/-- The new frame's picture: the rectangle of the old one (R230 to R232). -/
theorem State.getPixel_subCanvas (s : State) (fa : Handle) (left top : Int) (cols rows : Nat) {x y : Int}
    (hr : Machine.inRange cols rows x y = true) :
    (s.subCanvas fa left top cols rows).getPixel x y = s.pixel fa (left + x) (top + y) := by
  obtain ⟨h1, h2, h3, h4⟩ := (inRange_iff _ _ _ _).1 hr
  rw [State.subCanvas, Canvas.getPixel_paste (Canvas.blank_ok cols rows) _ _ _ _ _ hr, if_pos (by omega), Canvas.snapshot,
    Int.toNat_of_nonneg (by omega), Int.toNat_of_nonneg (by omega), Int.sub_zero, Int.sub_zero]
  rfl

theorem unlisted_getLsbD {k : Nat} (hk : k < 8) : Memory.unlisted.getLsbD (7 - k) = true := by
  rw [Memory.unlisted]
  interval_cases k <;> decide

/-- A bit of the new frame that is no pixel's own is still that of a blank frame (R232). -/
theorem State.subCanvas_padding (s : State) (fa : Handle) (left top : Int) (cols rows : Nat) {o k : Nat} (hk : k < 8)
    (hpad : ∀ x y, Machine.inRange cols rows x y = true → ¬(o = pixelOffset cols rows x.toNat y.toNat ∧ k = x.toNat % 8)) :
    (s.subCanvas fa left top cols rows).bit o k = true := by
  rw [State.subCanvas, Canvas.paint_bit (Canvas.blank_ok cols rows) _ hk fun v _ hr => by rw [pixelBit_eq]; exact hpad v.x v.y hr,
    Canvas.bit, Memory.filled_ff]
  exact unlisted_getLsbD hk

/-- The new frame's write set: the bytes of its pixels (R86). -/
theorem State.mem_subCanvas_ws (s : State) (fa : Handle) (left top : Int) (cols rows o : Nat) :
    o ∈ (s.subCanvas fa left top cols rows).ws ↔
      ∃ x y, Machine.inRange cols rows x y = true ∧ o = pixelOffset cols rows x.toNat y.toNat := by
  rw [State.subCanvas, Canvas.mem_paint_ws]
  constructor
  · rintro (h | ⟨v, -, hr, -, ho⟩)
    · exact absurd h List.not_mem_nil
    · exact ⟨v.x, v.y, hr, ho⟩
  · rintro ⟨x, y, hr, ho⟩
    obtain ⟨h1, h2, h3, h4⟩ := (inRange_iff _ _ _ _).1 hr
    obtain ⟨v, hv, rfl, rfl⟩ := (exists_paste_iff ((s.slot fa).canvas.snapshot left top) cols rows 0 0 x y).2
      ⟨h1, by omega, h3, by omega⟩
    exact .inr ⟨v, hv, hr, pasteVisits_writes _ _ _ _ _ v hv, ho⟩

/-- Settles O38: by what `create` leaves, then a paste of the rectangle into the dark frame. -/
theorem subFrame : Obligations.SubFrame := by
  intro s fa h left top w ht hs hf hw hh ha
  refine ⟨_, exec_subf_sides hf left top hw hh, ?_⟩
  obtain ⟨hcreates, hslot, hws, -⟩ := ha.creates (make := Slot.plainFrame (val w).toNat (val ht).toNat
    (s.subCanvas fa (val left) (val top) (val w).toNat (val ht).toNat).buf) rfl
    (s.subCanvas fa (val left) (val top) (val w).toNat (val ht).toNat).ws
  refine ⟨hcreates, ?_, ?_, ?_, fun x y hr => ?_, fun o k hk hpad => ?_, fun k o => ?_⟩
  · rw [hslot]; rfl
  · rw [hslot]; rfl
  · rw [hslot]; rfl
  · rw [State.inRange, hslot] at hr
    rw [State.pixel, hslot, ← State.getPixel_subCanvas s fa _ _ _ _ hr]
    exact Canvas.getPixel_congr (State.subCanvas_width _ _ _ _ _ _).symm (State.subCanvas_height _ _ _ _ _ _).symm rfl x y
  · simp only [State.inRange, State.offsetOf, hslot] at hpad
    rw [State.byte, hslot]
    exact s.subCanvas_padding fa _ _ _ _ hk hpad
  · rw [hws, mem_map_handle, State.mem_subCanvas_ws]
    simp only [State.bytesOf, State.inRange, State.offsetOf, hslot, true_and]
    rfl

/-! ## Round trip (R240 a) -/

theorem handleValue_injective {h k : Handle} (e : handleValue h = handleValue k) : h = k := by
  have := congrArg BitVec.toNat e
  simp only [handleValue, BitVec.toNat_setWidth] at this
  have hh := h.isLt
  have hk := k.isLt
  exact BitVec.eq_of_toNat_eq (by omega)

theorem State.Answers.inj {s t : State} {st st' : Status} {v v' : BitVec 16} (h : s.Answers t st v) (h' : s.Answers t st' v') :
    st = st' ∧ v = v' := by
  have := List.append_cancel_left (h.symm.trans h')
  simpa using this

theorem State.freeHandle_canAlloc {s : State} {n : Nat} {h : Handle} (hfree : s.freeHandle = some h)
    (hpool : s.blk.poolUsed + n ≤ s.params.poolBytes) (hdrawn : (s.env.alloc.next Config.allocOk).1 = true) : s.CanAlloc n h := by
  obtain ⟨h0, hmax, hdead, hlow⟩ := State.freeHandle_eq_some hfree
  exact ⟨⟨h0, hmax, hdead, hlow⟩, hpool, hdrawn⟩

/-- A SUB_FRAME that answered a handle had legal sides and could allocate that handle (R95, R232). -/
theorem subf_answered {s t : State} {fa h : Handle} {left top w ht : Operand} (hf : s.isFrame fa = true)
    (hexec : exec (.subf fa left top w ht) s = .next t) (hans : s.Answers t .ok (handleValue h)) :
    1 ≤ val w ∧ 1 ≤ val ht ∧ s.CanAlloc (bitmapSize (val w).toNat (val ht).toNat) h := by
  have hsides : ¬(val w < 1 ∨ val ht < 1) := by
    intro hbad
    have hfail : s.fail .badGeometry = t := Host.Outcome.next.inj
      ((badGeometryAndBusy.2.2.1 fa left top w ht s hf hbad).symm.trans hexec)
    have := State.Answers.inj (st := .badGeometry) (v := 0) (by rw [← hfail]; rfl) hans
    simp at this
  have hw : 1 ≤ val w := by omega
  have hh : 1 ≤ val ht := by omega
  refine ⟨hw, hh, ?_⟩
  rw [exec_subf_sides hf left top hw hh, Host.Outcome.next.injEq] at hexec
  rcases s.create_cases _ _ _ with ⟨k, hfree, hpool, hdrawn, e⟩ | ⟨env, e, -⟩
  · obtain ⟨-, hv⟩ := State.Answers.inj (st := .ok) (v := handleValue k) (by rw [← hexec, e]; rfl) hans
    exact handleValue_injective hv ▸ State.freeHandle_canAlloc hfree hpool hdrawn
  · have := State.Answers.inj (st := .noMemory) (v := 0) (by rw [← hexec, e]; rfl) hans
    simp at this

/-- Settles O43. A pixel that the new frame covers is pasted back from it; the others are left alone. -/
theorem subFrameCopyIntoRoundTrip : Obligations.SubFrameCopyIntoRoundTrip := by
  intro s t u fa h left top w ht hs hf hsub hans hcopy
  obtain ⟨hw, hh, ha⟩ := subf_answered hf hsub hans
  obtain ⟨t', ht', hcreates, hwidth, hheight, -, hpixels, -⟩ := subFrame s fa h left top w ht hs hf hw hh ha
  obtain rfl : t' = t := Host.Outcome.next.inj (ht'.symm.trans hsub)
  have hne : fa ≠ h := by
    rintro rfl
    simpa [ha.handle.free] using State.isFrame.live hf
  have hslot : t'.slot fa = s.slot fa := hcreates.others fa hne
  obtain ⟨hparams, -, -⟩ := hcreates.outside
  have hfa : t'.isFrame fa = true := by rw [State.isFrame, hslot, hparams]; exact hf
  have hfb : t'.isFrame h = true :=
    (t'.isFrame_iff h).2 ⟨hcreates.live, ha.handle.pos, hparams ▸ ha.handle.max⟩
  have hd := hs.drawable hf
  obtain ⟨u', hu', hredraws⟩ := copyin_redraws (s := t') (fb := h)
    ⟨hfa, hslot ▸ hd.canvas, hslot ▸ hd.widthPos, hslot ▸ hd.heightPos⟩ hfb left top
  obtain rfl : u' = u := Host.Outcome.next.inj (hu'.symm.trans hcopy)
  have hold : ∀ x y, t'.pixel fa x y = s.pixel fa x y := fun x y => by rw [State.pixel, hslot]; rfl
  refine ⟨hredraws.answer, fun x y => ?_⟩
  cases hr : t'.inRange fa x y with
  | true =>
    rw [hredraws.pixels x y hr]
    split
    · rw [hpixels _ _ ‹_›, add_sub_cancel, add_sub_cancel]
    · exact hold x y
  | false => rw [State.pixel_out ((hredraws.frame.inRange x y).trans hr), ← hold, State.pixel_out hr]

/-! ## Marquees add up, a scroll and its reverse (R240 c, d) -/

/-- A redrawn frame keeps its size. -/
theorem State.OnlyBitmap.size {s t : State} {h : Handle} (hb : s.OnlyBitmap t h) :
    (t.slot h).width = (s.slot h).width ∧ (t.slot h).height = (s.slot h).height := by
  rw [hb.itself]; exact ⟨rfl, rfl⟩

theorem State.Redraws.pixel_eq {s t : State} {h : Handle} {picture : Int → Int → Bool} {stores : Nat → Prop}
    (hr : s.Redraws t h picture stores) (x y : Int) : t.pixel h x y = (s.inRange h x y && picture x y) := by
  cases hin : s.inRange h x y with
  | true => rw [hr.pixels x y hin, Bool.true_and]
  | false => rw [State.pixel_out ((hr.frame.inRange x y).trans hin), Bool.false_and]

/-- Two moves of a frame's picture, each within the frame, make one. -/
theorem State.Redraws.pixel_comp {s t u v : State} {h : Handle} {f g k : Int → Int → Point} {a b c : Nat → Prop}
    (hrt : s.Redraws t h (fun x y => s.pixel h (f x y).1 (f x y).2) a)
    (hru : t.Redraws u h (fun x y => t.pixel h (g x y).1 (g x y).2) b)
    (hrv : s.Redraws v h (fun x y => s.pixel h (k x y).1 (k x y).2) c)
    (within : ∀ x y, s.inRange h x y = true →
      s.inRange h (g x y).1 (g x y).2 = true ∧ f (g x y).1 (g x y).2 = k x y) (x y : Int) :
    u.pixel h x y = v.pixel h x y := by
  rw [hru.pixel_eq, hrv.pixel_eq, hrt.frame.inRange]
  cases hr : s.inRange h x y with
  | false => rw [Bool.false_and, Bool.false_and]
  | true =>
    obtain ⟨hin, e⟩ := within x y hr
    rw [hrt.pixels _ _ hin, e]

/-- Two remainders of one modulus make one. -/
theorem emod_sub_of_add {x d1 d2 d : Int} (hsum : d = d1 + d2) (m : Int) : ((x - d2) % m - d1) % m = (x - d) % m := by
  rw [Int.emod_sub_emod, hsum, Int.sub_sub, Int.add_comm d2]

/-- Settles O44: the shifts add modulo the side. -/
theorem marqueesAdd : Obligations.MarqueesAdd := by
  intro s fa d1 d2 d hs hf hsum
  have hd := hs.drawable hf
  have hw := hd.widthPos
  have hh := hd.heightPos
  constructor
  · intro t u v ht hu hv
    obtain ⟨t', ht', hdt, hrt⟩ := marqx_redraws hd d1
    obtain rfl : t' = t := Host.Outcome.next.inj (ht'.symm.trans ht)
    obtain ⟨u', hu', -, hru⟩ := marqx_redraws hdt d2
    obtain rfl : u' = u := Host.Outcome.next.inj (hu'.symm.trans hu)
    obtain ⟨v', hv', -, hrv⟩ := marqx_redraws hd d
    obtain rfl : v' = v := Host.Outcome.next.inj (hv'.symm.trans hv)
    rw [hrt.frame.size.1] at hru
    refine State.Redraws.pixel_comp (f := fun x y => ((x - val d1) % ((s.slot fa).width : Int), y))
      (g := fun x y => ((x - val d2) % ((s.slot fa).width : Int), y))
      (k := fun x y => ((x - val d) % ((s.slot fa).width : Int), y)) hrt hru hrv fun x y hr => ?_
    obtain ⟨-, -, h3, h4⟩ := (inRange_iff _ _ _ _).1 hr
    exact ⟨(inRange_iff _ _ _ _).2 ⟨Int.emod_nonneg _ (by omega), Int.emod_lt_of_pos _ (by omega), h3, h4⟩,
      Prod.ext (emod_sub_of_add hsum _) rfl⟩
  · intro t u v ht hu hv
    obtain ⟨t', ht', hdt, hrt⟩ := marqy_redraws hd d1
    obtain rfl : t' = t := Host.Outcome.next.inj (ht'.symm.trans ht)
    obtain ⟨u', hu', -, hru⟩ := marqy_redraws hdt d2
    obtain rfl : u' = u := Host.Outcome.next.inj (hu'.symm.trans hu)
    obtain ⟨v', hv', -, hrv⟩ := marqy_redraws hd d
    obtain rfl : v' = v := Host.Outcome.next.inj (hv'.symm.trans hv)
    rw [hrt.frame.size.2] at hru
    refine State.Redraws.pixel_comp (f := fun x y => (x, (y - val d1) % ((s.slot fa).height : Int)))
      (g := fun x y => (x, (y - val d2) % ((s.slot fa).height : Int)))
      (k := fun x y => (x, (y - val d) % ((s.slot fa).height : Int))) hrt hru hrv fun x y hr => ?_
    obtain ⟨h1, h2, -, -⟩ := (inRange_iff _ _ _ _).1 hr
    exact ⟨(inRange_iff _ _ _ _).2 ⟨h1, h2, Int.emod_nonneg _ (by omega), Int.emod_lt_of_pos _ (by omega)⟩,
      Prod.ext rfl (emod_sub_of_add hsum _)⟩

/-- Settles O45. A column stays in the frame when its place after the first scroll is in range. -/
theorem scrollThereAndBack : Obligations.ScrollThereAndBack := by
  intro s t u fa d d' hs hf hlt hback ht hu x y hr
  obtain ⟨t', ht', hdt, hrt⟩ := scrx_redraws (hs.drawable hf) hlt
  obtain rfl : t' = t := Host.Outcome.next.inj (ht'.symm.trans ht)
  obtain ⟨u', hu', -, hru⟩ := scrx_redraws hdt (delta := d') (by rwa [hback, abs_neg, hrt.frame.size.1])
  obtain rfl : u' = u := Host.Outcome.next.inj (hu'.symm.trans hu)
  obtain ⟨h1, h2, h3, h4⟩ := (inRange_iff _ _ _ _).1 hr
  rw [hru.pixels x y ((hrt.frame.inRange x y).trans hr), hrt.pixel_eq, hback, sub_neg_eq_add, add_sub_cancel_right]
  have hstays : s.inRange fa (x + val d) y = true ↔
      max 0 (-val d) ≤ x ∧ x ≤ ((s.slot fa).width : Int) - 1 - max 0 (val d) := by
    rw [State.inRange, inRange_iff]
    omega
  split
  · rw [hstays.2 ‹_›, Bool.true_and]
  · rw [Bool.eq_false_iff.2 (fun h => ‹¬_› (hstays.1 h)), Bool.false_and]

/-! ## Padding (R76) -/

/-- A bit of frame `h` that is no pixel's own: byte `o`, position `k` from the left (R76). -/
def State.IsPadding (s : State) (h : Handle) (o k : Nat) : Prop :=
  ∀ x y, s.inRange h x y = true → ¬(o = s.offsetOf h x y ∧ k = x.toNat % 8)

/-- Visits leave every padding bit. -/
theorem State.drawn_paint_padding {s : State} {h : Handle} (hc : (s.slot h).canvas.Ok) {o k : Nat} (hk : k < 8)
    (hpad : s.IsPadding h o k) (visits : List PixelOp) :
    ((s.drawn h ((s.slot h).canvas.paint visits)).byte h o).getLsbD (7 - k) = (s.byte h o).getLsbD (7 - k) := by
  rw [State.byte, State.drawn_slot_self]
  exact Canvas.paint_bit hc visits hk fun v _ hr => by rw [pixelBit_eq]; exact hpad v.x v.y hr

/-- A command that only visits pixels of frame `h`, when `h` is a frame, leaves every padding bit. -/
theorem State.drawOn_paint_padding {s : State} (hs : s.Inv) {h : Handle} {o k : Nat} (hk : k < 8) (hpad : s.IsPadding h o k)
    {action : Canvas → Canvas} (hvisits : ∃ visits, action (s.slot h).canvas = (s.slot h).canvas.paint visits) :
    ((s.drawOn h action).byte h o).getLsbD (7 - k) = (s.byte h o).getLsbD (7 - k) := by
  cases hf : s.isFrame h with
  | true =>
    obtain ⟨visits, e⟩ := hvisits
    rw [State.drawOn_frame hf, e]
    exact State.drawn_paint_padding (hs.canvas hf) hk hpad visits
  | false => rw [State.drawOn_bad hf]; rfl

/-- Settles O24. Each of these commands is a list of visits. -/
theorem paddingBitsKept : Obligations.PaddingBitsKept := by
  intro i s t fa o k hs hi ht hk hpad
  have visits : ∀ action : Canvas → Canvas, exec i s = .next (s.drawOn fa action) →
      (∃ visits, action (s.slot fa).canvas = (s.slot fa).canvas.paint visits) →
      (t.byte fa o).getLsbD (7 - k) = (s.byte fa o).getLsbD (7 - k) := fun action he hv => by
    rw [he, Host.Outcome.next.injEq] at ht
    exact ht ▸ State.drawOn_paint_padding hs hk hpad hv
  rcases hi with ⟨_, _, _, rfl⟩ | ⟨_, _, _, _, _, rfl⟩ | ⟨_, _, _, _, rfl⟩ | ⟨_, _, _, _, _, rfl⟩ | ⟨_, _, _, _, _, rfl⟩ |
    ⟨fx, fy, tx, ty, w, h, rfl⟩ | ⟨fb, l, r, rfl⟩ | ⟨_, rfl⟩ | ⟨_, rfl⟩ | ⟨d, rfl, hlt⟩ | ⟨d, rfl, hlt⟩
  case inl | inr.inl | inr.inr.inl | inr.inr.inr.inl | inr.inr.inr.inr.inl => exact visits _ rfl ⟨_, rfl⟩
  · refine visits _ rfl ?_
    dsimp only
    split
    · exact ⟨_, rfl⟩
    · exact ⟨[], rfl⟩
  · cases hb : s.isFrame fa && s.isFrame fb with
    | true =>
      have hexec : exec (.copyin fa fb l r) s = _ := congrArg Host.Outcome.next (if_pos hb)
      rw [hexec, Host.Outcome.next.injEq] at ht
      rw [Bool.and_eq_true] at hb
      exact ht ▸ State.drawn_paint_padding (hs.canvas hb.1) hk hpad _
    | false =>
      have hexec : exec (.copyin fa fb l r) s = .next (s.fail .badHandle) :=
        congrArg Host.Outcome.next (if_neg (by simp [hb]))
      rw [hexec, Host.Outcome.next.injEq] at ht
      exact ht ▸ rfl
  · exact visits _ rfl ⟨_, rfl⟩
  · exact visits _ rfl ⟨_, rfl⟩
  · exact visits _ rfl ⟨_, if_neg (not_le.2 hlt)⟩
  · exact visits _ rfl ⟨_, if_neg (not_le.2 hlt)⟩

end Sys2Proof.Machine
end

section
/-!
SUPPORT. The points of a line in closed form (spec/42_drawing.md R200), and what follows for lines, boxes and filled boxes (R202 to
R207). A line is a run of its major axis, each point beside the step it has reached on the minor axis.
-/

namespace Sys2Proof.Machine

/-! ## The loop in closed form (R200) -/

/-- The steps of the minor axis after `k` of the major one, in a line of `n` major and `m` minor steps: those nearest the true line,
a tie going to the next pixel. -/
def minorSteps (n m : Int) (k : Nat) : Int := (2 * k * m + n) / (2 * n)

theorem minorSteps_bounds {n : Int} (hn : 0 < n) (m : Int) (k : Nat) :
    2 * (n * minorSteps n m k) ≤ 2 * (k * m) + n ∧ 2 * (k * m) + n < 2 * (n * minorSteps n m k) + 2 * n := by
  have h1 := Int.mul_ediv_self_le (x := 2 * k * m + n) (k := 2 * n) (by omega)
  have h2 := Int.lt_mul_ediv_self_add (x := 2 * k * m + n) (k := 2 * n) (by omega)
  rw [← minorSteps, mul_assoc, mul_assoc] at h1 h2
  exact ⟨h1, h2⟩

theorem minorSteps_eq_of_bounds {n m q : Int} {k : Nat} (hn : 0 < n) (hlow : 2 * (n * q) ≤ 2 * (k * m) + n)
    (hhigh : 2 * (k * m) + n < 2 * (n * q) + 2 * n) : minorSteps n m k = q := by
  obtain ⟨h1, h2⟩ := minorSteps_bounds hn m k
  have hlt1 : n * q < n * (minorSteps n m k + 1) := by linarith
  have hlt2 : n * minorSteps n m k < n * (q + 1) := by linarith
  have := lt_of_mul_lt_mul_left hlt1 hn.le
  have := lt_of_mul_lt_mul_left hlt2 hn.le
  omega

@[simp] theorem minorSteps_zero {n : Int} (hn : 0 ≤ n) (m : Int) : minorSteps n m 0 = 0 := by
  rw [minorSteps]
  rcases hn.eq_or_lt with rfl | hn
  · simp
  · exact Int.ediv_eq_zero_of_lt (by simp; omega) (by simp; omega)

/-- A line with no minor steps makes none. -/
theorem minorSteps_straight {n : Int} (hn : 0 ≤ n) (k : Nat) : minorSteps n 0 k = 0 := by
  rw [minorSteps, mul_zero, zero_add]
  rcases hn.eq_or_lt with rfl | hn
  · rfl
  · exact Int.ediv_eq_zero_of_lt hn.le (by omega)

theorem minorSteps_end {n m : Int} {k : Nat} (hk : (k : Int) = n) (hm : m ≤ n) (hm0 : 0 ≤ m) : minorSteps n m k = m := by
  rcases (show 0 ≤ n by omega).eq_or_lt with hn | hn
  · rw [show m = 0 by omega]; exact minorSteps_straight (by omega) k
  · exact minorSteps_eq_of_bounds hn (by rw [hk]; omega) (by rw [hk]; omega)

/-- The loop's test: the minor axis steps when the doubled difference has reached the next half pixel (R200). -/
theorem minorSteps_succ {n m : Int} (hn : 0 < n) (hm0 : 0 ≤ m) (hm : m ≤ n) (k : Nat) : minorSteps n m (k + 1) =
    if 0 ≤ 2 * (m * (k + 1)) - n - 2 * (n * minorSteps n m k) then minorSteps n m k + 1 else minorSteps n m k := by
  obtain ⟨h1, h2⟩ := minorSteps_bounds hn m k
  have e1 : m * ((k : Int) + 1) = k * m + m := by ring
  have e2 : ((k + 1 : Nat) : Int) * m = k * m + m := by push_cast; ring
  have e3 : n * (minorSteps n m k + 1) = n * minorSteps n m k + n := by ring
  rw [e1]
  split <;> refine minorSteps_eq_of_bounds hn ?_ ?_ <;> rw [e2] <;> (try rw [e3]) <;> omega

/-- The loop from its `k`-th point on. -/
theorem lineLoop_eq {n m : Int} (hn : 0 < n) (hm0 : 0 ≤ m) (hm : m ≤ n) (sa sb a b : Int) (j k : Nat) :
    lineLoop (2 * n) (2 * m) sa sb j (a + sa * k) (b + sb * minorSteps n m k)
        (2 * (m * (k + 1)) - n - 2 * (n * minorSteps n m k))
      = (List.range j).map fun i => (a + sa * (k + i + 1 : Nat), b + sb * minorSteps n m (k + i + 1)) := by
  induction j generalizing k with
  | zero => rfl
  | succ j ih =>
    have hb : (if 0 ≤ 2 * (m * ((k : Int) + 1)) - n - 2 * (n * minorSteps n m k) then b + sb * minorSteps n m k + sb
        else b + sb * minorSteps n m k) = b + sb * minorSteps n m (k + 1) := by
      rw [minorSteps_succ hn hm0 hm]
      split <;> ring
    have hfrac : (if 0 ≤ 2 * (m * ((k : Int) + 1)) - n - 2 * (n * minorSteps n m k)
        then 2 * (m * ((k : Int) + 1)) - n - 2 * (n * minorSteps n m k) - 2 * n
        else 2 * (m * ((k : Int) + 1)) - n - 2 * (n * minorSteps n m k)) + 2 * m
        = 2 * (m * (((k + 1 : Nat) : Int) + 1)) - n - 2 * (n * minorSteps n m (k + 1)) := by
      rw [minorSteps_succ hn hm0 hm]
      split <;> push_cast <;> ring
    have ha : a + sa * (k : Int) + sa = a + sa * ((k + 1 : Nat) : Int) := by push_cast; ring
    rw [lineLoop, hb, hfrac, ha, ih (k + 1), List.range_succ_eq_map, List.map_cons, List.map_map]
    refine congrArg₂ List.cons (by simp) (List.map_congr_left fun i _ => ?_)
    simp only [Function.comp, Nat.succ_eq_add_one, show k + 1 + i + 1 = k + (i + 1) + 1 by omega]

/-- A run of `n` major steps `sa` from `a`, beside `m` minor steps `sb` from `b`: point `k`, major coordinate first. -/
def runPoint (n m sa sb a b : Int) (k : Nat) : Point := (a + sa * k, b + sb * minorSteps n m k)

/-- The loop of R200 is the run of its major axis, its first point with it. -/
theorem cons_lineLoop_eq_run {n m : Int} {j : Nat} (hj : (j : Int) = n) (hm0 : 0 ≤ m) (hm : m ≤ n) (sa sb a b : Int) :
    (a, b) :: lineLoop (2 * n) (2 * m) sa sb j a b (2 * m - 2 * n / 2)
      = (List.range (j + 1)).map (runPoint n m sa sb a b) := by
  rw [List.range_succ_eq_map, List.map_cons, List.map_map]
  refine congrArg₂ List.cons ?_ ?_
  · simp [runPoint, minorSteps_zero (show 0 ≤ n by omega)]
  · rcases Nat.eq_zero_or_pos j with rfl | hpos
    · rfl
    · have := lineLoop_eq (n := n) (by omega) hm0 hm sa sb a b j 0
      rw [minorSteps_zero (by omega)] at this
      rw [show 2 * n / 2 = n by omega]
      simpa [runPoint, Function.comp_def] using this

/-- A line that has more columns than rows runs along `x` (R200). -/
theorem linePoints_xMajor {x1 y1 x2 y2 : Int} (h : |y2 - y1| < |x2 - x1|) : linePoints x1 y1 x2 y2 =
    (List.range ((x2 - x1).natAbs + 1)).map
      (runPoint |x2 - x1| |y2 - y1| (stepOf (x2 - x1)) (stepOf (y2 - y1)) x1 y1) := by
  rw [linePoints]
  simp only [show 2 * |y2 - y1| < 2 * |x2 - x1| by omega, if_true]
  exact cons_lineLoop_eq_run (Int.natCast_natAbs _) (abs_nonneg _) h.le _ _ _ _

/-- Any other line runs along `y` (R200). -/
theorem linePoints_yMajor {x1 y1 x2 y2 : Int} (h : |x2 - x1| ≤ |y2 - y1|) : linePoints x1 y1 x2 y2 =
    (List.range ((y2 - y1).natAbs + 1)).map
      (Prod.swap ∘ runPoint |y2 - y1| |x2 - x1| (stepOf (y2 - y1)) (stepOf (x2 - x1)) y1 x1) := by
  have hrun := congrArg (List.map Prod.swap) (cons_lineLoop_eq_run (n := |y2 - y1|) (Int.natCast_natAbs _) (abs_nonneg _) h
    (stepOf (y2 - y1)) (stepOf (x2 - x1)) y1 x1)
  rw [linePoints]
  simp only [show ¬2 * |y2 - y1| < 2 * |x2 - x1| by omega, if_false]
  rw [← List.map_map, ← hrun]
  rfl

/-- Settles O32: the walk's accumulated difference is the remainder of the closed form. -/
theorem lineRounding : Obligations.LineRounding := by
  intro x1 y1 x2 y2 k
  constructor
  · intro h hk
    rw [linePoints_xMajor h, List.getElem?_map, List.getElem?_range (by have := Int.natCast_natAbs (x2 - x1); omega)]
    rfl
  · intro h _ hk
    rw [linePoints_yMajor h, List.getElem?_map, List.getElem?_range (by have := Int.natCast_natAbs (y2 - y1); omega)]
    rfl

/-! ## The shape of a line (R202) -/

theorem stepOf_mul_abs (d : Int) : stepOf d * |d| = d := by
  rw [stepOf]
  split
  · rw [abs_of_neg ‹_›]; ring
  · rw [abs_of_nonneg (by omega)]; ring

theorem stepOf_eq (d : Int) : stepOf d = 1 ∨ stepOf d = -1 := by
  rw [stepOf]
  split <;> simp

theorem runPoint_start {n : Int} (hn : 0 ≤ n) (m sa sb a b : Int) : runPoint n m sa sb a b 0 = (a, b) := by
  simp [runPoint, minorSteps_zero hn]

theorem runPoint_end {d e : Int} (hm : |e| ≤ |d|) (a b : Int) :
    runPoint |d| |e| (stepOf d) (stepOf e) a b d.natAbs = (a + d, b + e) := by
  rw [runPoint, minorSteps_end (Int.natCast_natAbs _) hm (abs_nonneg _), Int.natCast_natAbs, stepOf_mul_abs, stepOf_mul_abs]

/-- No point of a run comes twice: its major coordinate moves on. -/
theorem runPoint_injective {n m sb a b d : Int} : Function.Injective (runPoint n m (stepOf d) sb a b) := by
  intro i j hij
  have h := congrArg Prod.fst hij
  simp only [runPoint] at h
  rcases stepOf_eq d with e | e <;> rw [e] at h <;> omega

/-- From a point of a run to the next: one step of the major axis and at most one of the minor. -/
theorem runPoint_step {n m : Int} (hn : 0 < n) (hm0 : 0 ≤ m) (hm : m ≤ n) (d e a b : Int) (k : Nat) :
    |(runPoint n m (stepOf d) (stepOf e) a b (k + 1)).1 - (runPoint n m (stepOf d) (stepOf e) a b k).1| = 1 ∧
    |(runPoint n m (stepOf d) (stepOf e) a b (k + 1)).2 - (runPoint n m (stepOf d) (stepOf e) a b k).2| ≤ 1 := by
  simp only [runPoint, minorSteps_succ hn hm0 hm]
  generalize minorSteps n m k = q
  push_cast
  constructor
  · rcases stepOf_eq d with h | h <;> rw [h] <;> ring_nf <;> simp
  · split <;> rcases stepOf_eq e with h | h <;> rw [h] <;> ring_nf <;> simp

/-- A line of one row is the straight run between its ends. -/
theorem linePoints_row (x1 x2 y : Int) : linePoints x1 y x2 y =
    (List.range ((x2 - x1).natAbs + 1)).map fun (k : Nat) => (x1 + stepOf (x2 - x1) * k, y) := by
  have h0 : |y - y| = 0 := by simp
  by_cases hx : x1 = x2
  · subst hx
    rw [linePoints_yMajor (by simp)]
    simp [runPoint]
  · rw [linePoints_xMajor (by rw [h0, abs_pos]; omega), h0]
    refine List.map_congr_left fun k _ => ?_
    rw [runPoint, minorSteps_straight (abs_nonneg _), mul_zero, add_zero]

/-- A line of one column is the straight run between its ends. -/
theorem linePoints_column (x y1 y2 : Int) : linePoints x y1 x y2 =
    (List.range ((y2 - y1).natAbs + 1)).map fun (k : Nat) => (x, y1 + stepOf (y2 - y1) * k) := by
  have h0 : |x - x| = 0 := by simp
  rw [linePoints_yMajor (by rw [h0]; exact abs_nonneg _), h0]
  refine List.map_congr_left fun k _ => ?_
  rw [Function.comp_apply, runPoint, minorSteps_straight (abs_nonneg _), mul_zero, add_zero]
  rfl

/-- The integers from `a` to `b`, in the direction of `b`. -/
theorem exists_step_iff (a b z : Int) :
    (∃ k ∈ List.range ((b - a).natAbs + 1), a + stepOf (b - a) * (k : Int) = z) ↔ min a b ≤ z ∧ z ≤ max a b := by
  constructor
  · rintro ⟨k, hk, rfl⟩
    have := List.mem_range.1 hk
    rw [stepOf]
    split <;> omega
  · intro h
    refine ⟨(z - a).natAbs, List.mem_range.2 (by omega), ?_⟩
    rw [stepOf]
    split <;> omega

theorem mem_linePoints_row (x1 x2 y : Int) (p : Point) :
    p ∈ linePoints x1 y x2 y ↔ p.2 = y ∧ min x1 x2 ≤ p.1 ∧ p.1 ≤ max x1 x2 := by
  rw [← exists_step_iff, linePoints_row, List.mem_map]
  constructor
  · rintro ⟨k, hk, rfl⟩; exact ⟨rfl, k, hk, rfl⟩
  · rintro ⟨hy, k, hk, hx⟩; exact ⟨k, hk, Prod.ext hx hy.symm⟩

theorem mem_linePoints_column (x y1 y2 : Int) (p : Point) :
    p ∈ linePoints x y1 x y2 ↔ p.1 = x ∧ min y1 y2 ≤ p.2 ∧ p.2 ≤ max y1 y2 := by
  rw [← exists_step_iff, linePoints_column, List.mem_map]
  constructor
  · rintro ⟨k, hk, rfl⟩; exact ⟨rfl, k, hk, rfl⟩
  · rintro ⟨hx, k, hk, hy⟩; exact ⟨k, hk, Prod.ext hx.symm hy⟩

theorem linePoints_nodup (x1 y1 x2 y2 : Int) : (linePoints x1 y1 x2 y2).Nodup := by
  rcases lt_or_ge |y2 - y1| |x2 - x1| with h | h
  · rw [linePoints_xMajor h]
    exact List.nodup_range.map runPoint_injective
  · rw [linePoints_yMajor h]
    exact List.nodup_range.map (Prod.swap_injective.comp runPoint_injective)

/-- Settles O31, for the two kinds of line and for straight ones. -/
theorem lineShape : Obligations.LineShape := by
  intro x1 y1 x2 y2
  refine ⟨?length, ?first, ?last, linePoints_nodup x1 y1 x2 y2, ?chain, ?row, ?column⟩
  case row => rintro rfl p; exact mem_linePoints_row x1 x2 y1 p
  case column => rintro rfl p; exact mem_linePoints_column x1 y1 y2 p
  all_goals rcases lt_or_ge |y2 - y1| |x2 - x1| with h | h
  case length.inl =>
    rw [linePoints_xMajor h, List.length_map, List.length_range, max_eq_left h.le]
    have := Int.natCast_natAbs (x2 - x1); omega
  case length.inr =>
    rw [linePoints_yMajor h, List.length_map, List.length_range, max_eq_right h]
    have := Int.natCast_natAbs (y2 - y1); omega
  case first.inl =>
    rw [linePoints_xMajor h, List.range_succ_eq_map, List.map_cons, List.head?_cons, runPoint_start (abs_nonneg _)]
  case first.inr =>
    rw [linePoints_yMajor h, List.range_succ_eq_map, List.map_cons, List.head?_cons, Function.comp_apply,
      runPoint_start (abs_nonneg _)]
    rfl
  case last.inl =>
    rw [linePoints_xMajor h, List.range_succ, List.map_append, List.map_singleton, List.getLast?_concat, runPoint_end h.le,
      add_sub_cancel, add_sub_cancel]
  case last.inr =>
    rw [linePoints_yMajor h, List.range_succ, List.map_append, List.map_singleton, List.getLast?_concat, Function.comp_apply,
      runPoint_end h, add_sub_cancel, add_sub_cancel]
    rfl
  case chain.inl =>
    rw [linePoints_xMajor h, List.isChain_map, List.isChain_range_succ]
    exact fun k _ => ⟨fun _ => runPoint_step (by have := abs_nonneg (y2 - y1); omega) (abs_nonneg _) h.le _ _ _ _ k,
      fun hn => absurd h (not_lt.2 hn)⟩
  case chain.inr =>
    rw [linePoints_yMajor h, List.isChain_map, List.isChain_range_succ]
    exact fun k hk => ⟨fun hn => absurd h (not_le.2 hn),
      fun _ => runPoint_step (by have := Int.natCast_natAbs (y2 - y1); omega) (abs_nonneg _) h _ _ _ _ k⟩

/-! ## Boxes (R203, R204) -/

theorem count_linePoints_row (x1 x2 y x' y' : Int) : (linePoints x1 y x2 y).count (x', y') =
    if y' = y ∧ min x1 x2 ≤ x' ∧ x' ≤ max x1 x2 then 1 else 0 := by
  rw [(linePoints_nodup _ _ _ _).count]
  simp only [mem_linePoints_row]

theorem count_linePoints_column (x y1 y2 x' y' : Int) : (linePoints x y1 x y2).count (x', y') =
    if x' = x ∧ min y1 y2 ≤ y' ∧ y' ≤ max y1 y2 then 1 else 0 := by
  rw [(linePoints_nodup _ _ _ _).count]
  simp only [mem_linePoints_column]

/-- A box visits a point once for each of its four edges that holds the point. -/
theorem count_boxPoints (x1 y1 x2 y2 x y : Int) : (boxPoints x1 y1 x2 y2).count (x, y) =
    (if y = y1 ∧ min x1 x2 ≤ x ∧ x ≤ max x1 x2 then 1 else 0) + (if x = x2 ∧ min y1 y2 ≤ y ∧ y ≤ max y1 y2 then 1 else 0) +
    (if y = y2 ∧ min x2 x1 ≤ x ∧ x ≤ max x2 x1 then 1 else 0) + (if x = x1 ∧ min y2 y1 ≤ y ∧ y ≤ max y2 y1 then 1 else 0) := by
  rw [boxPoints, List.count_append, List.count_append, List.count_append, count_linePoints_row, count_linePoints_column,
    count_linePoints_row, count_linePoints_column]

/-- Settles O33: the edges that hold a point, counted. -/
theorem boxVisits : Obligations.BoxVisits := by
  intro x1 y1 x2 y2 x y
  rw [count_boxPoints]
  refine ⟨fun hx hy => ?_, fun hx hy => ?_, fun hx hy => ?_, fun hx hy => ?_⟩
  · split_ifs <;> omega
  · subst hx; split_ifs <;> omega
  · subst hy; split_ifs <;> omega
  · subst hx hy; split_ifs <;> omega

/-! ## Filled boxes (R205 to R207) -/

theorem mem_ascending (lo : Int) (n : Nat) (z : Int) : z ∈ ascending lo n ↔ lo ≤ z ∧ z < lo + n := by
  rw [ascending, List.mem_map]
  constructor
  · rintro ⟨k, hk, rfl⟩
    have := List.mem_range.1 hk
    omega
  · intro h
    exact ⟨(z - lo).toNat, List.mem_range.2 (by omega), by omega⟩

theorem mem_filledBoxPoints (x1 y1 x2 y2 x y : Int) : (x, y) ∈ filledBoxPoints x1 y1 x2 y2 ↔
    min x1 x2 ≤ x ∧ x ≤ max x1 x2 ∧ min y1 y2 ≤ y ∧ y ≤ max y1 y2 := by
  rw [filledBoxPoints, List.mem_flatMap]
  constructor
  · rintro ⟨c, hc, hp⟩
    rw [mem_ascending] at hc
    obtain ⟨rfl, h1, h2⟩ := (mem_linePoints_column _ _ _ _).1 hp
    omega
  · rintro ⟨h1, h2, h3, h4⟩
    exact ⟨x, (mem_ascending _ _ _).2 (by omega), (mem_linePoints_column _ _ _ _).2 ⟨rfl, h3, h4⟩⟩

/-- The columns of a filled box share no point, and no point of a column comes twice. -/
theorem filledBoxPoints_nodup (x1 y1 x2 y2 : Int) : (filledBoxPoints x1 y1 x2 y2).Nodup := by
  refine List.nodup_flatMap.2 ⟨fun c _ => linePoints_nodup _ _ _ _, ?_⟩
  rw [ascending, List.pairwise_map]
  refine List.nodup_range.imp fun {i j} hij => ?_
  rintro p hi hj
  have h1 := ((mem_linePoints_column _ _ _ p).1 hi).1
  have h2 := ((mem_linePoints_column _ _ _ p).1 hj).1
  omega

theorem count_filledBoxPoints (x1 y1 x2 y2 x y : Int) : (filledBoxPoints x1 y1 x2 y2).count (x, y) =
    if min x1 x2 ≤ x ∧ x ≤ max x1 x2 ∧ min y1 y2 ≤ y ∧ y ≤ max y1 y2 then 1 else 0 := by
  rw [(filledBoxPoints_nodup _ _ _ _).count]
  simp only [mem_filledBoxPoints]

theorem stepOf_mul (a b : Int) (j : Int) : stepOf (b - a) * j = if a ≤ b then j else -j := by
  rw [stepOf]
  split <;> split <;> omega

/-- Settles O34: the visits are the product of the columns and a column's rows. -/
theorem filledBoxVisits : Obligations.FilledBoxVisits := by
  intro x1 y1 x2 y2
  refine ⟨count_filledBoxPoints x1 y1 x2 y2, ?_⟩
  have hcols : (max x1 x2 - min x1 x2 + 1).toNat = |x2 - x1|.toNat + 1 := by
    rw [Int.abs_eq_natAbs, Int.toNat_natCast]; omega
  have hrows : (y2 - y1).natAbs + 1 = |y2 - y1|.toNat + 1 := by
    rw [Int.abs_eq_natAbs, Int.toNat_natCast]
  rw [filledBoxPoints, ascending, List.flatMap_map, hcols]
  congr 1
  funext i
  rw [linePoints_column, hrows]
  simp only [stepOf_mul]

/-- Settles O35. Every pixel of the rectangle is visited once, every other never. -/
theorem filledBoxDraws : Obligations.FilledBoxDraws := by
  intro s mode fa x1 y1 x2 y2 hs hf
  have hdraws := State.drawn_draws (hs.canvas hf) mode (filledBoxPoints (val x1) (val y1) (val x2) (val y2))
  have hbytes : ∀ o, (∃ p ∈ filledBoxPoints (val x1) (val y1) (val x2) (val y2),
      s.inRange fa p.1 p.2 = true ∧ o = s.offsetOf fa p.1 p.2) ↔ s.bytesOf fa (fun x y =>
        min (val x1) (val x2) ≤ x ∧ x ≤ max (val x1) (val x2) ∧ min (val y1) (val y2) ≤ y ∧ y ≤ max (val y1) (val y2)) o := by
    intro o
    constructor
    · rintro ⟨p, hp, hr, ho⟩
      exact ⟨p.1, p.2, hr, (mem_filledBoxPoints _ _ _ _ _ _).1 hp, ho⟩
    · rintro ⟨x, y, hr, hrect, ho⟩
      exact ⟨(x, y), (mem_filledBoxPoints _ _ _ _ _ _).2 hrect, hr, ho⟩
  refine ⟨_, (exec_fbox _ _ _ _ _ _ _).trans (congrArg _ (State.drawOn_frame hf _)), hdraws.frame, hdraws.answer,
    fun x y hr => ?_, fun k o => ?_, fun o ho => hdraws.bytes o fun hmem => ho ?_⟩
  · rw [hdraws.pixels x y hr, count_filledBoxPoints]
    split <;> rfl
  · rw [hdraws.written, hbytes]
  · rw [hdraws.written, hbytes] at hmem
    exact hmem.2

end Sys2Proof.Machine
end

section
/-!
SUPPORT. The circle (spec/42_drawing.md R210 to R212): its loop walks the arc of one quarter, skips no point of it and visits none
twice; the four points of an iteration stand in four quarters that share no point.
-/

namespace Sys2Proof.Machine

/-! ## One iteration (R210) -/

/-- `y` after an iteration. -/
def circleY (y err : Int) : Int := if err ≤ y then y + 1 else y

/-- The error after the first of the two updates. -/
def circleMidErr (y err : Int) : Int := if err ≤ y then err + 2 * (y + 1) + 1 else err

/-- `x` after an iteration. -/
def circleX (x y err : Int) : Int := if x < err ∨ circleY y err < circleMidErr y err then x + 1 else x

/-- The error after an iteration. -/
def circleErr (x y err : Int) : Int :=
  if x < err ∨ circleY y err < circleMidErr y err then circleMidErr y err + 2 * (x + 1) + 1 else circleMidErr y err

theorem circleLoop_succ (xc yc : Int) (fuel : Nat) (x y err : Int) : circleLoop xc yc (fuel + 1) x y err =
    if x < 0 then circleQuad xc yc x y ++ circleLoop xc yc fuel (circleX x y err) (circleY y err) (circleErr x y err)
    else [] := rfl

theorem le_circleX (x y err : Int) : x ≤ circleX x y err := by rw [circleX]; split <;> omega

theorem le_circleY (y err : Int) : y ≤ circleY y err := by rw [circleY]; split <;> omega

/-- What holds at the head of every iteration: the error is Bresenham's, and the point is on the arc. -/
structure QuarterInv (r x y err : Int) : Prop where
  inv : CircleInv r x y err
  arc : x < 0 → OnArc r (-x) y

theorem QuarterInv.start {r : Int} (hr : 0 < r) : QuarterInv r (-r) 0 (2 - 2 * r) :=
  ⟨CircleInv.start hr.le, fun _ => by rw [neg_neg]; exact OnArc.start hr⟩

theorem QuarterInv.next {r x y err : Int} (h : QuarterInv r x y err) (hx : x < 0) :
    QuarterInv r (circleX x y err) (circleY y err) (circleErr x y err) :=
  ⟨h.inv.iterate hx, (h.arc hx).iterate h.inv hx⟩

/-! ## The walk along one quarter -/

/-- The points `(-x, y)` of the loop's iterations. -/
def quarterLoop : Nat → Int → Int → Int → List Point
  | 0, _, _, _ => []
  | fuel + 1, x, y, err =>
    if x < 0 then (-x, y) :: quarterLoop fuel (circleX x y err) (circleY y err) (circleErr x y err) else []

/-- The quarter `dx > 0`, `dy ≥ 0` of a circle of radius `r` about the origin, in visit order. -/
def circleQuarter (r : Int) : List Point := quarterLoop (2 * r).toNat (-r) 0 (2 - 2 * r)

/-- The four points of a circle that one point of the quarter stands for (R210). -/
def quadOf (xc yc : Int) (p : Point) : List Point :=
  [(xc + p.1, yc + p.2), (xc - p.2, yc + p.1), (xc - p.1, yc - p.2), (xc + p.2, yc - p.1)]

theorem circleQuad_eq (xc yc x y : Int) : circleQuad xc yc x y = quadOf xc yc (-x, y) := by
  simp only [circleQuad, quadOf, sub_neg_eq_add, ← sub_eq_add_neg]

theorem circleLoop_eq_flatMap (xc yc : Int) (fuel : Nat) (x y err : Int) :
    circleLoop xc yc fuel x y err = (quarterLoop fuel x y err).flatMap (quadOf xc yc) := by
  induction fuel generalizing x y err with
  | zero => rfl
  | succ fuel ih =>
    rw [circleLoop_succ, quarterLoop]
    split
    · rw [ih, circleQuad_eq, List.flatMap_cons]
    · rfl

theorem circlePoints_eq_flatMap (xc yc r : Int) : circlePoints xc yc r = (circleQuarter r).flatMap (quadOf xc yc) :=
  circleLoop_eq_flatMap _ _ _ _ _ _

/-- Every point visited is on the arc, and no nearer its start than the loop stands. -/
theorem QuarterInv.mem_quarterLoop {r : Int} {fuel : Nat} {x y err : Int} (h : QuarterInv r x y err) {p : Point}
    (hp : p ∈ quarterLoop fuel x y err) : 0 < p.1 ∧ p.1 ≤ -x ∧ y ≤ p.2 ∧ OnArc r p.1 p.2 := by
  induction fuel generalizing x y err with
  | zero => exact absurd hp List.not_mem_nil
  | succ fuel ih =>
    rw [quarterLoop] at hp
    split at hp
    case isFalse => exact absurd hp List.not_mem_nil
    case isTrue hx =>
      rcases List.mem_cons.1 hp with rfl | hp
      · exact ⟨by simp only; omega, le_refl _, le_refl _, h.arc hx⟩
      · obtain ⟨h1, h2, h3, h4⟩ := ih (h.next hx) hp
        exact ⟨h1, by have := le_circleX x y err; omega, (le_circleY y err).trans h3, h4⟩

/-- Every point of the arc from where the loop stands is visited, when the fuel lasts. -/
theorem QuarterInv.visits {r : Int} (fuel : Nat) {x y err a b : Int} (h : QuarterInv r x y err) (hfuel : r - x - y ≤ fuel)
    (hab : OnArc r a b) (ha : 0 < a) (hax : a ≤ -x) (hyb : y ≤ b) : (a, b) ∈ quarterLoop fuel x y err := by
  have hx : x < 0 := by omega
  induction fuel generalizing x y err with
  | zero =>
    have := h.inv.yHigh
    have : r - x - y ≤ 0 := hfuel
    omega
  | succ fuel ih =>
    rw [quarterLoop, if_pos hx, List.mem_cons]
    by_cases hhere : a = -x ∧ b = y
    · exact .inl (Prod.ext hhere.1 hhere.2)
    · obtain ⟨hax', hyb'⟩ : a ≤ -circleX x y err ∧ circleY y err ≤ b :=
        (h.arc hx).skips_none h.inv hx hab ha hax hyb (by tauto)
      have hmoves : x + y + 1 ≤ circleX x y err + circleY y err := circle_moves hx h.inv.yLow
      exact .inr (ih (h.next hx) (by push_cast at hfuel; omega) hax' hyb' (by omega))

/-- The quarter is the arc. -/
theorem mem_circleQuarter {r : Int} (hr : 0 < r) (a b : Int) :
    (a, b) ∈ circleQuarter r ↔ 0 < a ∧ 0 ≤ b ∧ OnArc r a b := by
  constructor
  · intro h
    obtain ⟨h1, -, h3, h4⟩ := (QuarterInv.start hr).mem_quarterLoop h
    exact ⟨h1, h3, h4⟩
  · rintro ⟨ha, hb, hab⟩
    have := hab.le_radius hr ha hb
    exact (QuarterInv.start hr).visits _ (by omega) hab ha (by omega) hb

/-- Along the walk `dx` falls and `dy` rises, and one of them moves (R210). -/
def Ahead (p q : Point) : Prop := q.1 ≤ p.1 ∧ p.2 ≤ q.2 ∧ p.2 - p.1 < q.2 - q.1

theorem quarterLoop_pairwise {r : Int} (fuel : Nat) {x y err : Int} (h : QuarterInv r x y err) :
    (quarterLoop fuel x y err).Pairwise Ahead := by
  induction fuel generalizing x y err with
  | zero => exact List.Pairwise.nil
  | succ fuel ih =>
    rw [quarterLoop]
    split
    case isFalse => exact List.Pairwise.nil
    case isTrue hx =>
      refine List.pairwise_cons.2 ⟨fun q hq => ?_, ih (h.next hx)⟩
      obtain ⟨-, h2, h3, -⟩ := (h.next hx).mem_quarterLoop hq
      have hmoves : x + y + 1 ≤ circleX x y err + circleY y err := circle_moves hx h.inv.yLow
      have h4 := le_circleX x y err
      have h5 := le_circleY y err
      exact ⟨by simp only; omega, by simp only; omega, by simp only; omega⟩

theorem circleQuarter_head {r : Int} (hr : 0 < r) : (circleQuarter r).head? = some (r, 0) := by
  obtain ⟨k, hk⟩ : ∃ k, (2 * r).toNat = k + 1 := ⟨(2 * r).toNat - 1, by omega⟩
  rw [circleQuarter, hk, quarterLoop, if_pos (by omega), List.head?_cons, neg_neg]

/-! ## The whole circle (R212) -/

/-- The circle of radius `r` passes a point with these distances from the centre's axes: `M` the larger, `m` the smaller. -/
def NearCircle (r a b : Int) : Prop :=
  max a b * max a b - max a b + min a b * min a b + (if a = b then 1 else 0) < r * r ∧
    r * r ≤ max a b * max a b + max a b + min a b * min a b

theorem NearCircle.symm {r a b : Int} (h : NearCircle r a b) : NearCircle r b a := by
  rw [NearCircle, max_comm b a, min_comm b a]
  simpa only [NearCircle, eq_comm] using h

/-- The arc's four conditions are one in the larger and the smaller side. -/
theorem onArc_iff (r a b : Int) : OnArc r a b ↔ NearCircle r a b := by
  rw [NearCircle]
  rcases lt_trichotomy a b with h | h | h
  · rw [max_eq_right h.le, min_eq_left h.le, if_neg h.ne, add_zero]
    exact ⟨fun ⟨_, _, h3, h4, _⟩ => ⟨h4 h, h3 h.le⟩,
      fun ⟨h1, h2⟩ => ⟨fun _ => by omega, fun _ => by omega, fun _ => h2, fun _ => h1, fun _ => by omega⟩⟩
  · subst h
    rw [max_self, min_self, if_pos rfl]
    exact ⟨fun ⟨h1, _, _, _, h5⟩ => ⟨h5 rfl, h1 le_rfl⟩,
      fun ⟨h1, h2⟩ => ⟨fun _ => h2, fun h => by omega, fun _ => h2, fun h => by omega, fun _ => h1⟩⟩
  · rw [max_eq_left h.le, min_eq_right h.le, if_neg h.ne', add_zero]
    exact ⟨fun ⟨h1, h2, _, _, _⟩ => ⟨h2 h, h1 h.le⟩,
      fun ⟨h1, h2⟩ => ⟨fun _ => h2, fun _ => h1, fun _ => by omega, fun _ => by omega, fun _ => by omega⟩⟩

/-- The centre is not on the circle. -/
theorem not_nearCircle_centre {r : Int} (hr : 0 < r) : ¬NearCircle r 0 0 := by
  rintro ⟨-, h⟩
  have := mul_pos hr hr
  simp at h
  omega

/-- Each of the four quarters holds one of the four points. -/
theorem mem_quadOf (xc yc dx dy : Int) (p : Point) : (xc + dx, yc + dy) ∈ quadOf xc yc p ↔
    p = (dx, dy) ∨ p = (dy, -dx) ∨ p = (-dx, -dy) ∨ p = (-dy, dx) := by
  obtain ⟨a, b⟩ := p
  simp only [quadOf, List.mem_cons, Prod.mk.injEq, List.not_mem_nil, or_false]
  omega

/-- Which points a circle visits (R212). -/
theorem mem_circlePoints {xc yc r : Int} (hr : 0 < r) (dx dy : Int) :
    (xc + dx, yc + dy) ∈ circlePoints xc yc r ↔ NearCircle r |dx| |dy| := by
  have hquarters : (xc + dx, yc + dy) ∈ circlePoints xc yc r ↔ (dx, dy) ∈ circleQuarter r ∨ (dy, -dx) ∈ circleQuarter r ∨
      (-dx, -dy) ∈ circleQuarter r ∨ (-dy, dx) ∈ circleQuarter r := by
    rw [circlePoints_eq_flatMap, List.mem_flatMap]
    simp only [mem_quadOf]
    constructor
    · rintro ⟨p, hp, rfl | rfl | rfl | rfl⟩ <;> simp [hp]
    · rintro (h | h | h | h)
      · exact ⟨_, h, .inl rfl⟩
      · exact ⟨_, h, .inr (.inl rfl)⟩
      · exact ⟨_, h, .inr (.inr (.inl rfl))⟩
      · exact ⟨_, h, .inr (.inr (.inr rfl))⟩
  simp only [hquarters, mem_circleQuarter hr, onArc_iff]
  constructor
  · rintro (⟨h1, h2, h⟩ | ⟨h1, h2, h⟩ | ⟨h1, h2, h⟩ | ⟨h1, h2, h⟩)
    · rwa [abs_of_pos h1, abs_of_nonneg h2]
    · rw [abs_of_nonpos (by omega), abs_of_pos h1]; exact h.symm
    · rwa [abs_of_neg (by omega), abs_of_nonpos (by omega)]
    · rw [abs_of_nonneg h2, abs_of_neg (by omega)]; exact h.symm
  · intro h
    rcases lt_trichotomy dx 0 with hx | rfl | hx
    · rcases le_or_gt dy 0 with hy | hy
      · rw [abs_of_neg hx, abs_of_nonpos hy] at h
        exact .inr (.inr (.inl ⟨by omega, by omega, h⟩))
      · rw [abs_of_neg hx, abs_of_pos hy] at h
        exact .inr (.inl ⟨hy, by omega, h.symm⟩)
    · rcases lt_trichotomy dy 0 with hy | rfl | hy
      · rw [abs_zero, abs_of_neg hy] at h
        exact .inr (.inr (.inr ⟨by omega, le_refl _, h.symm⟩))
      · rw [abs_zero] at h
        exact absurd h (not_nearCircle_centre hr)
      · rw [abs_zero, abs_of_pos hy] at h
        exact .inr (.inl ⟨hy, by omega, h.symm⟩)
    · rcases lt_or_ge dy 0 with hy | hy
      · rw [abs_of_pos hx, abs_of_neg hy] at h
        exact .inr (.inr (.inr ⟨by omega, hx.le, h.symm⟩))
      · rw [abs_of_pos hx, abs_of_nonneg hy] at h
        exact .inl ⟨hx, hy, h⟩

/-- No point comes twice: the quarters share none, and in each of them the walk visits none twice. -/
theorem circlePoints_nodup (xc yc r : Int) : (circlePoints xc yc r).Nodup := by
  rcases le_or_gt r 0 with hr | hr
  · rw [circlePoints_of_nonpos xc yc hr]; exact List.nodup_nil
  · rw [circlePoints_eq_flatMap]
    refine List.nodup_flatMap.2 ⟨fun p hp => ?_, ?_⟩
    · obtain ⟨ha, hb, -⟩ := (mem_circleQuarter hr p.1 p.2).1 hp
      simp only [quadOf, List.nodup_cons, List.mem_cons, Prod.mk.injEq, List.not_mem_nil, or_false, not_or, List.nodup_nil,
        and_true, not_false_eq_true]
      omega
    · refine List.Pairwise.imp_of_mem ?_ (quarterLoop_pairwise _ (QuarterInv.start hr))
      intro p q hp hq hpq z hzp hzq
      obtain ⟨h1, h2, -⟩ := (mem_circleQuarter hr p.1 p.2).1 hp
      obtain ⟨h3, h4, -⟩ := (mem_circleQuarter hr q.1 q.2).1 hq
      obtain ⟨-, -, hlt⟩ := hpq
      simp only [quadOf, List.mem_cons, Prod.ext_iff, List.not_mem_nil, or_false] at hzp hzq
      omega

/-- Settles O36: the loop walks the quarter `dx > 0`, `dy ≥ 0`, whose points are those near the circle; the rest are rotations. -/
theorem circleShape : Obligations.CircleShape := by
  intro xc yc r
  refine ⟨circlePoints_of_nonpos xc yc, circlePoints_nodup xc yc r, fun dx dy hmem ex ey hreflect => ?reflections,
    fun hr => ?axes, fun hr dx dy => mem_circlePoints hr dx dy, fun hr => ?order⟩
  case reflections =>
    have hr : 0 < r := by
      by_contra hn
      rw [circlePoints_of_nonpos xc yc (by omega)] at hmem
      exact absurd hmem List.not_mem_nil
    rw [mem_circlePoints hr] at hmem ⊢
    rcases hreflect with ⟨hx, hy⟩ | ⟨hx, hy⟩ <;> rw [hx, hy]
    · exact hmem
    · exact hmem.symm
  case axes =>
    have haxis : NearCircle r |r| |0| := by
      rw [← onArc_iff, abs_of_pos hr, abs_zero]; exact OnArc.start hr
    have hat : ∀ dx dy, NearCircle r |dx| |dy| → (xc + dx, yc + dy) ∈ circlePoints xc yc r :=
      fun dx dy => (mem_circlePoints hr dx dy).2
    have h1 := hat r 0 haxis
    have h2 := hat (-r) 0 (by rwa [abs_neg])
    have h3 := hat 0 r haxis.symm
    have h4 := hat 0 (-r) (by rw [abs_neg]; exact haxis.symm)
    rw [add_zero] at h1 h2 h3 h4
    exact ⟨h1, h2, h3, h4⟩
  case order =>
    refine ⟨circleQuarter r, circlePoints_eq_flatMap xc yc r, circleQuarter_head hr, fun p hp => ?_, ?_⟩
    · obtain ⟨h1, h2, -⟩ := (mem_circleQuarter hr p.1 p.2).1 hp
      exact ⟨h1, h2⟩
    · exact ((quarterLoop_pairwise _ (QuarterInv.start hr)).imp fun h => ⟨h.1, h.2.1⟩).isChain

end Sys2Proof.Machine
end
